-- ==== Sys2Proof/Word.lean ====
section
/-! DEFINITION. Sys2Proof/Word.lean: the words of the block and the sparse byte memory (spec/00_scope.md R10, R11). -/

namespace Sys2Proof

/-- One byte: a bus byte, a buffer byte, a pixel column, a character code. -/
abbrev Byte := BitVec 8

/-- A bus event word, 9 bits: the phase line `PH` above the byte (R10, R90). -/
abbrev BusWord := BitVec 9

/-- A host operation word or a host result word, 32 bits (R10, R93, R94). -/
abbrev HostWord := BitVec 32

/-- A cursor coordinate, 12 bits (R10, R31). -/
abbrev Coord := BitVec 12

/-- A font ROM address held in a register, 24 bits (R10, R32). -/
abbrev FontAddr := BitVec 24

/-- A byte memory as plain data: the cells that differ from 0x00, by strictly rising address. -/
abbrev Memory := List Host.Cell

end Sys2Proof
end

