-- ==== Sys2Proof/Config.lean ====
section
/-! DEFINITION. Sys2Proof/Config.lean: the implementation parameters of spec/00_scope.md R9 and the reference
configuration of spec/92_eei_decisions.md (D39). -/

namespace Sys2Proof

/-- The half of a byte that feeds a digit position: `hi` is bits 7:4, `lo` is bits 3:0 (R9, R160). -/
inductive Nibble where
  | hi
  | lo
  deriving DecidableEq, Repr

/-- The parameters of R9, the values no source gives. They are fixed for a run (R37). The model takes them as data, so
that every statement over all states is a statement over all parameter values (assumption log 1). -/
structure Config where
  /-- `CMD_A`, the command byte that selects A (D7) -/
  cmdA : Byte
  /-- `CMD_B` (D7) -/
  cmdB : Byte
  /-- `CMD_C` (D7) -/
  cmdC : Byte
  /-- `CMD_ANN` (D7) -/
  cmdAnn : Byte
  /-- `CMD_IGN0`, recognized and ignored (D7) -/
  cmdIgn0 : Byte
  /-- `CMD_IGN1` (D7) -/
  cmdIgn1 : Byte
  /-- `CMD_IGN2` (D7) -/
  cmdIgn2 : Byte
  /-- `PAIR_BYTE(j)`: the buffer index that feeds digit positions 2j and 2j + 1 (D13) -/
  pairByte : Vector (Fin 6) 6
  /-- `EVEN_NIBBLE`: the half that feeds the even position of each pair (D13) -/
  evenNibble : Nibble
  /-- `B_DIGIT_LSB`: offset of the 2-bit digit field inside the B nibble (D13) -/
  bDigitLsb : Fin 3
  /-- `C_BIT`: offset of the 1-bit digit field inside the C nibble (D13) -/
  cBit : Fin 4
  /-- `RAW_COMBINE(a, b, c)` as a table: the raw code of the fields a, b, c stands at index c · 64 + b · 16 + a
  (D13, assumption log 13) -/
  rawCombine : List (BitVec 7)
  /-- `DISPLAY_WIDTH` (D16) -/
  displayWidth : Nat
  /-- `DISPLAY_HEIGHT` (D16) -/
  displayHeight : Nat
  /-- `CHIP2_START` (D16) -/
  chip2Start : Nat
  /-- `CHIP3_START` (D16) -/
  chip3Start : Nat
  /-- `MIN_PRINTABLE` (D17) -/
  minPrintable : Byte
  /-- `GLYPH_SPACING`, 0..255 (D17) -/
  glyphSpacing : Byte
  /-- `FONT_ROM_SIZE` (D22) -/
  fontRomSize : Nat
  /-- `FONT_ROM`: the cells below FONT_ROM_SIZE that differ from 0x00 (D22) -/
  fontRom : Memory
  deriving DecidableEq, Repr

/-- Font F1 of the reference configuration, at 0x100: fixed width 2, height 12, 'A' to 'C'. -/
def Config.fontF1 : Memory :=
  [(0x101, 0x12), (0x102, 0x02), (0x103, 0x0C), (0x104, 0x41), (0x105, 0x43),
   (0x106, 0x11), (0x107, 0x22), (0x108, 0x03), (0x109, 0x0C),
   (0x10A, 0x44), (0x10B, 0x55), (0x10C, 0x06), (0x10D, 0x09),
   (0x10E, 0xFF), (0x10F, 0x81), (0x110, 0x0F), (0x111, 0x08)]

/-- Font F2 of the reference configuration, at 0x200: variable width, height 8, '0' to '2'. -/
def Config.fontF2 : Memory :=
  [(0x201, 0x0F), (0x203, 0x08), (0x204, 0x30), (0x205, 0x32),
   (0x206, 0x03), (0x207, 0x01), (0x208, 0x02),
   (0x209, 0x7E), (0x20A, 0x81), (0x20B, 0x7E),
   (0x20C, 0xFF), (0x20D, 0xC1), (0x20E, 0xB1)]

/-- The reference configuration (92_eei_decisions.md, D39): the values of the spec's test vectors. "It is not a claim
about the legacy instrument"; State.reset carries it, and no statement rests on it unless it says so. -/
def Config.reference : Config where
  cmdA := 0x0A
  cmdB := 0x0B
  cmdC := 0x0C
  cmdAnn := 0x0D
  cmdIgn0 := 0x01
  cmdIgn1 := 0x02
  cmdIgn2 := 0x03
  pairByte := #v[0, 1, 2, 3, 4, 5]
  evenNibble := .hi
  bDigitLsb := 0
  cBit := 0
  rawCombine := (List.range 128).map (BitVec.ofNat 7)
  displayWidth := 192
  displayHeight := 64
  chip2Start := 64
  chip3Start := 128
  minPrintable := 0x20
  glyphSpacing := 1
  fontRomSize := 0x400
  fontRom := Config.fontF1 ++ Config.fontF2

end Sys2Proof
end

