-- ==== Sys2Proof/Syntax.lean ====
section
/-! DEFINITION. Sys2Proof/Syntax.lean: the operations of the block, one constructor for each row of
spec/opcode_table.json (spec/30_encoding.md R91, R95). -/

namespace Sys2Proof

/-- The four frame registers (10_state.md R20). -/
inductive RegId where
  | A
  | B
  | C
  | ANN
  deriving DecidableEq, Repr

/-- The operations: seven bus events of the producer (R91) and twenty-one host operations of the consumer (R95, R96).
An operand holds exactly the bits its format names (R97). -/
inductive Instr where
  /-- BUS.CMD_A: the command byte CMD_A (R121) -/
  | busCmdA
  /-- BUS.CMD_B (R121) -/
  | busCmdB
  /-- BUS.CMD_C (R121) -/
  | busCmdC
  /-- BUS.CMD_ANN (R121) -/
  | busCmdAnn
  /-- BUS.CMD_IGN: one of the three recognized, ignored command bytes (R122) -/
  | busCmdIgn (v : Byte)
  /-- BUS.CMD_UNREC: any other command byte (R122) -/
  | busCmdUnrec (v : Byte)
  /-- BUS.DATA: a data byte (R123) -/
  | busData (v : Byte)
  /-- NOP (R126) -/
  | nop
  /-- STATUS (R127) -/
  | status
  /-- FS.READY (R130) -/
  | fsReady
  /-- FS.RESET (R131) -/
  | fsReset
  /-- FS.CAPTURE (R132) -/
  | fsCapture
  /-- REG.RD (R128), format FR -/
  | regRd (r : RegId) (idx : BitVec 3)
  /-- SNAP.RD (R129), format FR -/
  | snapRd (r : RegId) (idx : BitVec 3)
  /-- DIGIT (R166), format FP -/
  | digit (pos : BitVec 4)
  /-- PUNCT (R169), format FP -/
  | punct (pos : BitVec 4)
  /-- ANN (R172), format FP -/
  | ann (pos : BitVec 4)
  /-- ANN.MASK (R173) -/
  | annMask
  /-- CUR.SET (R238), format FXY -/
  | curSet (x y : Coord)
  /-- CUR.RD (R239) -/
  | curRd
  /-- COL.WR (R232), format FB -/
  | colWr (b : Byte)
  /-- PUTC (R201), format FB -/
  | putc (code : Byte)
  /-- FONT.SET (R195), format FA -/
  | fontSet (addr : FontAddr)
  /-- FONT.RD (R196) -/
  | fontRd
  /-- GLYPH.INFO (R197), format FB -/
  | glyphInfo (code : Byte)
  /-- GLYPH.OFF (R198), format FB -/
  | glyphOff (code : Byte)
  /-- CHIP.RES (R237), format FX -/
  | chipRes (x : Coord)
  /-- RESERVED: a host word with an opcode from 0x14 to 0xFF (R96) -/
  | reserved (opc : Byte)
  deriving DecidableEq, Repr

/-- The producer's operations; every other one is the consumer's (R17). -/
def Instr.isBus : Instr → Bool
  | .busCmdA | .busCmdB | .busCmdC | .busCmdAnn => true
  | .busCmdIgn _ | .busCmdUnrec _ | .busData _ => true
  | .nop | .status | .fsReady | .fsReset | .fsCapture => false
  | .regRd _ _ | .snapRd _ _ | .digit _ | .punct _ | .ann _ | .annMask => false
  | .curSet _ _ | .curRd | .colWr _ | .putc _ => false
  | .fontSet _ | .fontRd | .glyphInfo _ | .glyphOff _ | .chipRes _ => false
  | .reserved _ => false

end Sys2Proof
end

