-- ==== Sys2Proof/WellFormed.lean ====
section
/-! DEFINITION. Sys2Proof/WellFormed.lean: which configurations meet the constraints of spec/00_scope.md R9, and which
operations are well formed under a configuration (spec/30_encoding.md R91, R96). -/

namespace Sys2Proof

/-- No two entries of the list are equal. -/
def pairwiseDistinct {α : Type} [DecidableEq α] : List α → Bool
  | [] => true
  | x :: xs => !xs.contains x && pairwiseDistinct xs

/-- The canonical form of a sparse byte memory whose addresses are at least `lo`: addresses strictly rising, and no
cell equal to the 0x00 that an unlisted address reads as. -/
def canonicalFrom : Nat → Memory → Bool
  | _, [] => true
  | lo, (a, v) :: m => decide (lo ≤ a) && decide (v ≠ 0) && canonicalFrom (a + 1) m

/-- The four register command bytes (R9: "8-bit, pairwise distinct"). -/
def Config.registerCommands (c : Config) : List Byte := [c.cmdA, c.cmdB, c.cmdC, c.cmdAnn]

/-- The three recognized but ignored command bytes (R9: "distinct from the four above"). -/
def Config.ignoredCommands (c : Config) : List Byte := [c.cmdIgn0, c.cmdIgn1, c.cmdIgn2]

/-- The command bytes meet D7. -/
def Config.commandsWf (c : Config) : Bool :=
  pairwiseDistinct c.registerCommands && c.ignoredCommands.all (fun v => !c.registerCommands.contains v)

/-- PAIR_BYTE is a permutation of 0..5 and RAW_COMBINE an injective map onto 0..127 (D13). -/
def Config.digitMapWf (c : Config) : Bool :=
  pairwiseDistinct c.pairByte.toList && decide (c.rawCombine.length = 128) && pairwiseDistinct c.rawCombine

/-- The display geometry meets D16. -/
def Config.geometryWf (c : Config) : Bool :=
  decide (3 ≤ c.displayWidth) && decide (c.displayWidth ≤ 2048) && decide (8 ≤ c.displayHeight) &&
  decide (c.displayHeight ≤ 2048) && decide (c.displayHeight % 8 = 0) && decide (0 < c.chip2Start) &&
  decide (c.chip2Start < c.chip3Start) && decide (c.chip3Start < c.displayWidth)

/-- The font ROM meets D22: its size, its canonical form, and no cell at or beyond its end. -/
def Config.fontRomWf (c : Config) : Bool :=
  decide (1 ≤ c.fontRomSize) && decide (c.fontRomSize ≤ 2 ^ 24) && canonicalFrom 0 c.fontRom &&
  c.fontRom.all (fun cell => decide (cell.1 < c.fontRomSize))

/-- The configuration meets every constraint of R9. -/
def Config.wf (c : Config) : Bool :=
  c.commandsWf && c.digitMapWf && c.geometryWf && c.fontRomWf

/-- Well-formed operations under a configuration. BUS.CMD_IGN carries one of the three ignored bytes, BUS.CMD_UNREC a byte
of neither list (R91), RESERVED an opcode from 0x14 on (R96). Every other operand is held by its type; an index or a
position that is out of range is well formed, and the block gives it an effect (R96). -/
def Instr.wf (c : Config) : Instr → Bool
  | .busCmdIgn v => c.ignoredCommands.contains v && !c.registerCommands.contains v
  | .busCmdUnrec v => !c.ignoredCommands.contains v && !c.registerCommands.contains v
  | .reserved opc => decide (0x14 ≤ opc.toNat)
  | .busCmdA | .busCmdB | .busCmdC | .busCmdAnn | .busData _ => true
  | .nop | .status | .fsReady | .fsReset | .fsCapture => true
  | .regRd _ _ | .snapRd _ _ | .digit _ | .punct _ | .ann _ | .annMask => true
  | .curSet _ _ | .curRd | .colWr _ | .putc _ => true
  | .fontSet _ | .fontRd | .glyphInfo _ | .glyphOff _ | .chipRes _ => true

end Sys2Proof
end

