-- ==== Sys2Proof/Decode.lean ====
section
/-! DEFINITION. Sys2Proof/Decode.lean: decoding of bus event words and host operation words, and after it the encoder
(spec/30_encoding.md R90 to R100). -/

namespace Sys2Proof

/-- A word as one of the two ports takes it (R90, R93). -/
inductive InputWord where
  /-- a 9-bit bus event word, for the producer -/
  | bus (w : BusWord)
  /-- a 32-bit host operation word, for the consumer -/
  | host (w : HostWord)
  deriving DecidableEq, Repr

/-- Why a number is no word of either port. Decoding of a word itself never fails (R92, R96). -/
inductive DecodeError where
  /-- more than the 9 bits of a bus event word (R100) -/
  | busWordTooWide
  /-- more than the 32 bits of a host operation word (R100) -/
  | hostWordTooWide
  deriving DecidableEq, Repr

/-- The frame-register id of format FR (R98). -/
def RegId.frId : RegId → BitVec 2
  | .A => 0
  | .B => 1
  | .C => 2
  | .ANN => 3

/-- The frame register of an FR id (R98). -/
def RegId.ofFrId (n : BitVec 2) : RegId :=
  match n.toNat with
  | 0 => .A
  | 1 => .B
  | 2 => .C
  | _ => .ANN

/-- `PH`, bit 8 of a bus event word (R90). -/
def busPhase (w : BusWord) : Bool := w.getLsbD 8

/-- `BYTE`, bits 7:0 of a bus event word (R90). -/
def busByte (w : BusWord) : Byte := w.extractLsb' 0 8

/-- The command table: what a command-phase byte selects, first match wins (R91). -/
def decodeCommand (c : Config) (v : Byte) : Instr :=
  if v = c.cmdA then .busCmdA
  else if v = c.cmdB then .busCmdB
  else if v = c.cmdC then .busCmdC
  else if v = c.cmdAnn then .busCmdAnn
  else if v = c.cmdIgn0 ∨ v = c.cmdIgn1 ∨ v = c.cmdIgn2 then .busCmdIgn v
  else .busCmdUnrec v

/-- Decoding a bus event word (R91); total (R92). -/
def decodeBus (c : Config) (w : BusWord) : Instr :=
  if busPhase w then decodeCommand c (busByte w) else .busData (busByte w)

/-- `OPC`, bits 31:24 (R93). -/
def hostOpc (w : HostWord) : Byte := w.extractLsb' 24 8

/-- `REG` of format FR, bits 9:8 (R97, R98). -/
def operandReg (w : HostWord) : RegId := RegId.ofFrId (w.extractLsb' 8 2)

/-- `IDX` of format FR, bits 2:0 (R97). -/
def operandIdx (w : HostWord) : BitVec 3 := w.extractLsb' 0 3

/-- `POS` of format FP, bits 3:0 (R97). -/
def operandPos (w : HostWord) : BitVec 4 := w.extractLsb' 0 4

/-- `X` of format FXY, bits 23:12 (R97). -/
def operandHighCoord (w : HostWord) : Coord := w.extractLsb' 12 12

/-- `Y` of format FXY and `X` of format FX, bits 11:0 (R97). -/
def operandLowCoord (w : HostWord) : Coord := w.extractLsb' 0 12

/-- `B` of format FB, bits 7:0 (R97). -/
def operandByte (w : HostWord) : Byte := w.extractLsb' 0 8

/-- `ADDR` of format FA, bits 23:0 (R97). -/
def operandAddr (w : HostWord) : FontAddr := w.extractLsb' 0 24

/-- Decoding a host operation word by the opcode map (R95); every other opcode is reserved (R96). -/
def decodeHost (w : HostWord) : Instr :=
  match (hostOpc w).toNat with
  | 0x00 => .nop
  | 0x01 => .status
  | 0x02 => .fsReady
  | 0x03 => .fsReset
  | 0x04 => .fsCapture
  | 0x05 => .regRd (operandReg w) (operandIdx w)
  | 0x06 => .snapRd (operandReg w) (operandIdx w)
  | 0x07 => .digit (operandPos w)
  | 0x08 => .punct (operandPos w)
  | 0x09 => .ann (operandPos w)
  | 0x0A => .annMask
  | 0x0B => .curSet (operandHighCoord w) (operandLowCoord w)
  | 0x0C => .curRd
  | 0x0D => .colWr (operandByte w)
  | 0x0E => .putc (operandByte w)
  | 0x0F => .fontSet (operandAddr w)
  | 0x10 => .fontRd
  | 0x11 => .glyphInfo (operandByte w)
  | 0x12 => .glyphOff (operandByte w)
  | 0x13 => .chipRes (operandLowCoord w)
  | _ => .reserved (hostOpc w)

/-- The decoder: every word of either port selects exactly one operation (R92, R95, R96). -/
def decode (c : Config) : InputWord → Instr
  | .bus w => decodeBus c w
  | .host w => decodeHost w

/-- The word of `nbits` bits whose bits are `w`: the table gives a bus row 9 bits (16 in whole bytes) and a host row 32.
A number with bits above its port's word is rejected by name (R100, assumption log 11). -/
def wordOfTableBits (nbits w : Nat) : Except DecodeError InputWord :=
  if nbits ≤ 16 then
    if w < 2 ^ 9 then .ok (.bus (BitVec.ofNat 9 w)) else .error .busWordTooWide
  else
    if w < 2 ^ 32 then .ok (.host (BitVec.ofNat 32 w)) else .error .hostWordTooWide

/-- Decoding from a number, under a configuration. -/
def decodeBits (c : Config) (nbits w : Nat) : Except DecodeError Instr :=
  match wordOfTableBits nbits w with
  | .ok x => .ok (decode c x)
  | .error e => .error e

/-- What the decoder reads from a word of the opcode table, with the command bytes of the reference configuration
(assumption logs 1 and 11). -/
def decodeTableWord (nbits w : Nat) : Option Instr :=
  match decodeBits Config.reference nbits w with
  | .ok i => some i
  | .error _ => none

/-- A command-phase bus event word: PH = 1 (R90). -/
def commandWord (v : Byte) : BusWord := 1#1 ++ v

/-- A data-phase bus event word: PH = 0 (R90). -/
def dataWord (v : Byte) : BusWord := 0#1 ++ v

/-- A host operation word from its opcode and operand (R93). -/
def hostWord (opc : Byte) (opd : BitVec 24) : HostWord := opc ++ opd

/-- An operand of format F0. -/
def formatF0 : BitVec 24 := 0

/-- An operand of format FR: REG in bits 9:8, IDX in bits 2:0. -/
def formatFR (r : RegId) (idx : BitVec 3) : BitVec 24 := 0#14 ++ r.frId ++ 0#5 ++ idx

/-- An operand of format FP: POS in bits 3:0. -/
def formatFP (pos : BitVec 4) : BitVec 24 := 0#20 ++ pos

/-- An operand of format FXY: X in bits 23:12, Y in bits 11:0. -/
def formatFXY (x y : Coord) : BitVec 24 := x ++ y

/-- An operand of format FB: B in bits 7:0. -/
def formatFB (b : Byte) : BitVec 24 := 0#16 ++ b

/-- An operand of format FX: X in bits 11:0. -/
def formatFX (x : Coord) : BitVec 24 := 0#12 ++ x

/-- The encoder: the word of a well-formed operation, with 0 in every bit its format does not name (R91, R95, R97,
R102). -/
def encode (c : Config) : Instr → InputWord
  | .busCmdA => .bus (commandWord c.cmdA)
  | .busCmdB => .bus (commandWord c.cmdB)
  | .busCmdC => .bus (commandWord c.cmdC)
  | .busCmdAnn => .bus (commandWord c.cmdAnn)
  | .busCmdIgn v => .bus (commandWord v)
  | .busCmdUnrec v => .bus (commandWord v)
  | .busData v => .bus (dataWord v)
  | .nop => .host (hostWord 0x00 formatF0)
  | .status => .host (hostWord 0x01 formatF0)
  | .fsReady => .host (hostWord 0x02 formatF0)
  | .fsReset => .host (hostWord 0x03 formatF0)
  | .fsCapture => .host (hostWord 0x04 formatF0)
  | .regRd r idx => .host (hostWord 0x05 (formatFR r idx))
  | .snapRd r idx => .host (hostWord 0x06 (formatFR r idx))
  | .digit pos => .host (hostWord 0x07 (formatFP pos))
  | .punct pos => .host (hostWord 0x08 (formatFP pos))
  | .ann pos => .host (hostWord 0x09 (formatFP pos))
  | .annMask => .host (hostWord 0x0A formatF0)
  | .curSet x y => .host (hostWord 0x0B (formatFXY x y))
  | .curRd => .host (hostWord 0x0C formatF0)
  | .colWr b => .host (hostWord 0x0D (formatFB b))
  | .putc code => .host (hostWord 0x0E (formatFB code))
  | .fontSet addr => .host (hostWord 0x0F addr)
  | .fontRd => .host (hostWord 0x10 formatF0)
  | .glyphInfo code => .host (hostWord 0x11 (formatFB code))
  | .glyphOff code => .host (hostWord 0x12 (formatFB code))
  | .chipRes x => .host (hostWord 0x13 (formatFX x))
  | .reserved opc => .host (hostWord opc formatF0)

end Sys2Proof
end

