-- ==== Sys2Proof/Machine/State.lean ====
section
/-! DEFINITION. Sys2Proof/Machine/State.lean: the state of the block and of its environment as plain data, the reasons a
step can stop, and the state after reset (spec/10_state.md, spec/20_memory.md R65, R66). -/

namespace Sys2Proof.Machine

/-- The buffers of the four frame registers (R20), or of the snapshot bank that mirrors them (R33). -/
structure Buffers where
  /-- `A.buf[0..5]` -/
  a : Vector Byte 6
  /-- `B.buf[0..5]` -/
  b : Vector Byte 6
  /-- `C.buf[0..5]` -/
  c : Vector Byte 6
  /-- `ANN.buf[0..1]` -/
  ann : Vector Byte 2
  deriving DecidableEq, Repr

/-- Every buffer byte 0x00. -/
def Buffers.zero : Buffers where
  a := #v[0, 0, 0, 0, 0, 0]
  b := #v[0, 0, 0, 0, 0, 0]
  c := #v[0, 0, 0, 0, 0, 0]
  ann := #v[0, 0]

/-- The valid flags of the four frame registers (R20). -/
structure ValidFlags where
  a : Bool
  b : Bool
  c : Bool
  ann : Bool
  deriving DecidableEq, Repr

/-- Every valid flag 0. -/
def ValidFlags.none : ValidFlags := ⟨false, false, false, false⟩

/-- The three chips of the display (R8: "number of chip regions", ids 1, 2, 3). -/
inductive ChipId where
  | chip1
  | chip2
  | chip3
  deriving DecidableEq, Repr

/-- The display memory: one byte array for each chip (R65). The cell of page p and local column lx, lx < 4096, is at
address p · 4096 + lx of its chip's memory. -/
structure Display where
  chip1 : Memory
  chip2 : Memory
  chip3 : Memory
  deriving DecidableEq, Repr

/-- A display with nothing listed: every cell reads 0x00 (assumption log 3). -/
def Display.blank : Display := ⟨[], [], []⟩

/-- One transaction of the display port, as DLOG records it (R66). -/
inductive Transaction where
  /-- `RD(chip, page, lx, v)` -/
  | rd (chip : ChipId) (page lx : Nat) (v : Byte)
  /-- `WR(chip, page, lx, v)` -/
  | wr (chip : ChipId) (page lx : Nat) (v : Byte)
  deriving DecidableEq, Repr

/-- What happens next, as the environment orders it (R74, assumption log 2). -/
inductive Input where
  /-- a word at one of the two ports: one step of the producer or of the consumer (R90, R93) -/
  | word (w : InputWord)
  /-- the BUS_IDLE line takes this level (R30, log 4) -/
  | busIdle (level : Bool)
  /-- power-on or the external watchdog resets the block (R300, R304, log 8) -/
  | blockReset
  /-- one of the Display Controller's own operations sets a cell (R80, R314, log 9) -/
  | controllerWrite (chip : ChipId) (page lx : Nat) (v : Byte)
  deriving DecidableEq, Repr

/-- The state: all that the spec gives the block (R20 to R36), the display memory and the logs of a run (R65, R66, D40),
and the environment's side (R37). -/
structure State where
  /-- the parameters of R9, fixed for a run (R37, log 1) -/
  cfg : Config
  /-- what the environment does next, in order (R74, log 2) -/
  inputs : List Input
  /-- the level of the BUS_IDLE input (R30, log 4) -/
  busIdle : Bool
  /-- the buffers of the live frame set (R20) -/
  live : Buffers
  /-- the valid flags of the live frame set (R20, R24) -/
  valid : ValidFlags
  /-- `ACTIVE`: NONE, or the frame register that data bytes go to (R25, log 7) -/
  active : Option RegId
  /-- `REMAINING`, the number of data bytes still expected (R26) -/
  remaining : BitVec 3
  /-- `BUS_DISABLED` (R29) -/
  busDisabled : Bool
  /-- `CURSOR_X` (R31) -/
  cursorX : Coord
  /-- `CURSOR_Y` (R31) -/
  cursorY : Coord
  /-- `FONT_BASE` (R32) -/
  fontBase : FontAddr
  /-- the snapshot bank (R33) -/
  snap : Buffers
  /-- `SNAP_VALID` (R33) -/
  snapValid : Bool
  /-- `BADOP`, sticky (R34) -/
  badop : Bool
  /-- the host result word of the last host operation (R36) -/
  result : HostWord
  /-- `DM`, the memory of the external Display Controller (R65) -/
  display : Display
  /-- `DLOG`, oldest first (R66) -/
  dlog : List Transaction
  /-- the host results of the run, oldest first (D40, log 6) -/
  hostLog : List HostWord
  deriving DecidableEq, Repr

/-- Why the machine stops. The block itself has no exceptions (R270): each of these stands where the spec says that a
model faults, or where the state or the input is one that the spec says cannot be. -/
inductive Fault where
  /-- Raised by PUTC, GLYPH.INFO and GLYPH.OFF through `fontRead`: condition E14, a font ROM read at or beyond
  FONT_ROM_SIZE, which is "unspecified; a model faults" (R62, R271, U1). Safe (log 5). -/
  | fontReadOutOfRom (addr : Nat)
  /-- Raised by BUS.DATA in a state where REMAINING > 0 while ACTIVE is NONE or names a shorter register. No run reaches
  such a state (R27). Safe (log 7). -/
  | burstOutsideRegister
  /-- Raised by an environment event that names a display cell that does not exist (R65). Safe (log 9). -/
  | noDisplayCell (chip : ChipId) (page lx : Nat)
  deriving DecidableEq, Repr

/-- Why the machine gives an operation no meaning. -/
inductive Refusal where
  /-- Raised by an arm of `exec` that has no meaning yet; no arm of this model raises it. Safe. -/
  | notModelled (mnemonic : String)
  deriving DecidableEq, Repr

/-- The machine at power-on: the block as R39 and R300 give it, with any parameters, any display contents (R301, U2) and
any BUS_IDLE level (U13), an empty DLOG (R301), and no event yet. -/
def State.powerOn (cfg : Config) (display : Display) (busIdle : Bool) : State where
  cfg := cfg
  inputs := []
  busIdle := busIdle
  live := Buffers.zero
  valid := ValidFlags.none
  active := none
  remaining := 0
  busDisabled := false
  cursorX := 0
  cursorY := 0
  fontBase := 0
  snap := Buffers.zero
  snapValid := false
  badop := false
  result := 0
  display := display
  dlog := []
  hostLog := []

/-- The machine right after reset. The block's registers are as R39 says. The parameters are the reference configuration
(log 1), the display is blank (log 3) and BUS_IDLE is 1 (log 4): these three are the model's choices. -/
def State.reset : State := State.powerOn Config.reference Display.blank true

end Sys2Proof.Machine
end

