-- ==== Sys2Proof/Machine/Operands.lean ====
section
/-! DEFINITION. Sys2Proof/Machine/Operands.lean: frame-register lengths and bytes, operand ranges, and the fields of one
digit position (spec/10_state.md R20, R25; spec/30_encoding.md R96; spec/41_field_decoders.md R160 to R168). -/

namespace Sys2Proof

/-- `LEN(R)`: 6 for A, B and C, 2 for ANN (R20). -/
def RegId.len : RegId → Nat
  | .A => 6
  | .B => 6
  | .C => 6
  | .ANN => 2

/-- The ACTIVE code of a register: its FR id + 1 (R25, R98). -/
def RegId.activeCode : RegId → BitVec 3
  | .A => 1
  | .B => 2
  | .C => 3
  | .ANN => 4

namespace Machine

/-- The ACTIVE code, 0 for NONE (R25). -/
def activeCode : Option RegId → BitVec 3
  | none => 0
  | some r => r.activeCode

/-- `R.buf[k]`, for k below LEN(R) (R13, R20). -/
def Buffers.byte (b : Buffers) (r : RegId) (k : Nat) : Byte :=
  match r with
  | .A => b.a[k]?.getD 0
  | .B => b.b[k]?.getD 0
  | .C => b.c[k]?.getD 0
  | .ANN => b.ann[k]?.getD 0

/-- `R.buf[k] <- v`, for k below LEN(R) (R13). -/
def Buffers.setByte (b : Buffers) (r : RegId) (k : Nat) (v : Byte) : Buffers :=
  match r with
  | .A => { b with a := b.a.setIfInBounds k v }
  | .B => { b with b := b.b.setIfInBounds k v }
  | .C => { b with c := b.c.setIfInBounds k v }
  | .ANN => { b with ann := b.ann.setIfInBounds k v }

/-- IDX names a byte of the register (R96: out of range when IDX ≥ LEN). -/
def idxInRange (r : RegId) (idx : BitVec 3) : Bool := decide (idx.toNat < r.len)

/-- POS names one of the twelve positions (R96: out of range when POS ≥ 12). -/
def posInRange (pos : BitVec 4) : Bool := decide (pos.toNat < 12)

end Machine

/-- The other half of a byte (R160). -/
def Nibble.other : Nibble → Nibble
  | .hi => .lo
  | .lo => .hi

/-- `nib(v, half)`: bits 7:4 or bits 3:0 (R160). -/
def nib (v : Byte) : Nibble → BitVec 4
  | .hi => v.extractLsb' 4 4
  | .lo => v.extractLsb' 0 4

/-- `half(p)`: the half that feeds a position (R160). -/
def Config.half (c : Config) (pos : Nat) : Nibble := if pos % 2 = 0 then c.evenNibble else c.evenNibble.other

/-- `PAIR_BYTE(p div 2)`: the buffer index that feeds a position (R160). -/
def Config.pairIndex (c : Config) (pos : Nat) : Nat := (c.pairByte[pos / 2]?.getD 0).val

/-- `RAW_COMBINE(a, b, c)` (R162, assumption log 13). -/
def Config.combine (c : Config) (fa : BitVec 4) (fb : BitVec 2) (fc : BitVec 1) : BitVec 7 :=
  c.rawCombine.getD (fc.toNat * 64 + fb.toNat * 16 + fa.toNat) 0

/-- The 4-bit field of A (R161). -/
def Config.fieldA (c : Config) (pos : Nat) (a8 : Byte) : BitVec 4 := nib a8 (c.half pos)

/-- The 2-bit field of B (R161). -/
def Config.fieldB (c : Config) (pos : Nat) (b8 : Byte) : BitVec 2 :=
  BitVec.ofNat 2 ((nib b8 (c.half pos)).toNat / 2 ^ c.bDigitLsb.val)

/-- The 1-bit field of C (R161). -/
def Config.fieldC (c : Config) (pos : Nat) (c8 : Byte) : BitVec 1 :=
  BitVec.ofNat 1 ((nib c8 (c.half pos)).toNat / 2 ^ c.cBit.val)

/-- The punctuation mask of a position: 0xC0 for the HI half, 0x0C for the LO half (R167). -/
def Config.punctMask (c : Config) (pos : Nat) : Byte :=
  match c.half pos with
  | .hi => 0xC0
  | .lo => 0x0C

end Sys2Proof
end

