-- ==== Sys2Proof/Machine/Flags.lean ====
section
/-! DEFINITION. Sys2Proof/Machine/Flags.lean: the valid flags, READY, DISABLE_REQ and the STATUS word
(spec/10_state.md R23, R24, R35; spec/60_exceptions.md R276). -/

namespace Sys2Proof.Machine

/-- `R.valid`. -/
def ValidFlags.get (f : ValidFlags) : RegId → Bool
  | .A => f.a
  | .B => f.b
  | .C => f.c
  | .ANN => f.ann

/-- `R.valid <- 1`. -/
def ValidFlags.mark (f : ValidFlags) : RegId → ValidFlags
  | .A => { f with a := true }
  | .B => { f with b := true }
  | .C => { f with c := true }
  | .ANN => { f with ann := true }

/-- All four valid flags are true. -/
def ValidFlags.all (f : ValidFlags) : Bool := f.a && f.b && f.c && f.ann

/-- `READY`, the level of the READY output (R23, R277). -/
def State.ready (s : State) : Bool := s.valid.all

/-- `DISABLE_REQ` = BUS_DISABLED at all times (R276). -/
def State.disableReq (s : State) : Bool := s.busDisabled

/-- One flag as a bit. -/
def flagBit (b : Bool) : BitVec 1 := BitVec.ofBool b

/-- The STATUS word (R35, R127). -/
def State.statusWord (s : State) : HostWord :=
  0#17 ++ s.remaining ++ activeCode s.active ++ flagBit s.badop ++ flagBit s.snapValid ++ flagBit s.busDisabled ++
  flagBit s.busIdle ++ flagBit s.ready ++ flagBit s.valid.ann ++ flagBit s.valid.c ++ flagBit s.valid.b ++
  flagBit s.valid.a

end Sys2Proof.Machine
end

