-- ==== Sys2Proof/Machine/Geometry.lean ====
section
/-! DEFINITION. Sys2Proof/Machine/Geometry.lean: the display bounds and the three chip regions (spec/20_memory.md R65,
R68; spec/43_pixel_plane.md R230, R235). -/

namespace Sys2Proof

/-- `DISPLAY_RIGHT` = W − 1 (R9, R230). -/
def Config.displayRight (c : Config) : Nat := c.displayWidth - 1

/-- `DISPLAY_BOTTOM` = H − 1 (R9, R230). -/
def Config.displayBottom (c : Config) : Nat := c.displayHeight - 1

/-- `PAGES` = H / 8 (R9, R68). -/
def Config.pages (c : Config) : Nat := c.displayHeight / 8

/-- `CHIP_START(c)` (R68). -/
def Config.chipStart (c : Config) : Machine.ChipId → Nat
  | .chip1 => 0
  | .chip2 => c.chip2Start
  | .chip3 => c.chip3Start

/-- `CW(c)`, the width of a chip region (R65). -/
def Config.chipWidth (c : Config) : Machine.ChipId → Nat
  | .chip1 => c.chip2Start
  | .chip2 => c.chip3Start - c.chip2Start
  | .chip3 => c.displayWidth - c.chip3Start

/-- The cursor position (x, y) is in bounds (R31, R230). -/
def Config.inBounds (c : Config) (x y : Nat) : Bool := decide (x ≤ c.displayRight) && decide (y ≤ c.displayBottom)

/-- The display cell exists: p < PAGES and lx < CW(chip) (R65, R66). -/
def Config.cellExists (c : Config) (chip : Machine.ChipId) (page lx : Nat) : Bool :=
  decide (page < c.pages) && decide (lx < c.chipWidth chip)

namespace Machine

/-- The chip id, 1, 2 or 3 (R8, R68). -/
def ChipId.number : ChipId → Nat
  | .chip1 => 1
  | .chip2 => 2
  | .chip3 => 3

/-- `ResolveChip(x)`: the chip and the local column of a global column; `none` stands for the spec's (0, 0), no chip
(R235, D25). -/
def resolveChip (c : Config) (x : Nat) : Option (ChipId × Nat) :=
  if x < c.chip2Start then some (.chip1, x)
  else if x < c.chip3Start then some (.chip2, x - c.chip2Start)
  else if x ≤ c.displayRight then some (.chip3, x - c.chip3Start)
  else none

end Machine

end Sys2Proof
end

