-- ==== Sys2Proof/Machine/Memory.lean ====
section
/-! DEFINITION. Sys2Proof/Machine/Memory.lean: reading and writing one byte of a sparse memory in canonical form. -/

namespace Sys2Proof

/-- The canonical form: addresses strictly rising, and no cell equal to the 0x00 an unlisted address reads as. -/
def Memory.wf (m : Memory) : Bool := canonicalFrom 0 m

/-- What an unlisted address reads as (assumption log 3 for the display, log 12 for the font ROM). -/
def Memory.unlisted : Byte := 0

/-- The byte at an address. -/
def Memory.read : Memory → Nat → Byte
  | [], _ => Memory.unlisted
  | (k, v) :: m, a => if a = k then v else Memory.read m a

/-- The memory with `v` put in front, or without a cell where `v` is what an unlisted address reads as. -/
def Memory.cons (a : Nat) (v : Byte) (m : Memory) : Memory :=
  if v = Memory.unlisted then m else (a, v) :: m

/-- The memory with the byte at `a` set to `v`. -/
def Memory.write : Memory → Nat → Byte → Memory
  | [], a, v => Memory.cons a v []
  | (k, u) :: m, a, v =>
    if a < k then Memory.cons a v ((k, u) :: m)
    else if a = k then Memory.cons a v m
    else (k, u) :: Memory.write m a v

end Sys2Proof
end

