-- ==== Sys2Proof/Machine/Ops.lean ====
section
/-! DEFINITION. Sys2Proof/Machine/Ops.lean: the pseudocode primitives of spec/00_scope.md R13 and the other operations
that several meanings share. The block takes no exception and has no return from one (spec/60_exceptions.md R270, R275):
the shared operation in that place is `badop`, the record of a misuse of the host port (R96, R272). -/

namespace Sys2Proof.Machine

/-- How a meaning ends. -/
abbrev StepResult := Host.Outcome State Fault Refusal

/-- A meaning that can only stop at a font read (E14). -/
def ofExcept (r : Except Fault State) : StepResult :=
  match r with
  | .ok s => .next s
  | .error f => .fault f

/-- `result <- v` (R13, R94); the run's record of host results grows with it (D40). -/
def withResult (v : HostWord) (s : State) : State := { s with result := v, hostLog := s.hostLog ++ [v] }

/-- `badop(); result <- 0` (R96). -/
def badop (s : State) : State := withResult 0 { s with badop := true }

/-- `cursor <- (x, y)`, each stored mod 2^12 (R12, R13). -/
def setCursor (x y : Nat) (s : State) : State :=
  { s with cursorX := BitVec.ofNat 12 x, cursorY := BitVec.ofNat 12 y }

/-- `FontRead(a)`: a byte of the font ROM; beyond its end a fault (R62, U1, assumption log 5). -/
def fontRead (c : Config) (a : Nat) : Except Fault Byte :=
  if a < c.fontRomSize then .ok (c.fontRom.read a) else .error (.fontReadOutOfRom a)

/-- The memory of one chip (R65). -/
def Display.chip (d : Display) : ChipId → Memory
  | .chip1 => d.chip1
  | .chip2 => d.chip2
  | .chip3 => d.chip3

/-- The display with the memory of one chip replaced. -/
def Display.setChip (d : Display) (chip : ChipId) (m : Memory) : Display :=
  match chip with
  | .chip1 => { d with chip1 := m }
  | .chip2 => { d with chip2 := m }
  | .chip3 => { d with chip3 := m }

/-- The address of the cell of a page and local column inside its chip's memory; one address for each pair, since a local
column is below 4096 (R65). -/
def cellAddress (page lx : Nat) : Nat := page * 4096 + lx

/-- `DM[chip][page][lx]` (R65). -/
def Display.cell (d : Display) (chip : ChipId) (page lx : Nat) : Byte := (d.chip chip).read (cellAddress page lx)

/-- `DM[chip][page][lx] <- v`. -/
def Display.setCell (d : Display) (chip : ChipId) (page lx : Nat) (v : Byte) : Display :=
  d.setChip chip ((d.chip chip).write (cellAddress page lx) v)

/-- `DispRead(chip, page, lx)`: the byte read, and the state with the transaction logged (R66). -/
def dispRead (chip : ChipId) (page lx : Nat) (s : State) : Byte × State :=
  let v := s.display.cell chip page lx
  (v, { s with dlog := s.dlog ++ [.rd chip page lx v] })

/-- `DispWrite(chip, page, lx, v)` (R66). -/
def dispWrite (chip : ChipId) (page lx : Nat) (v : Byte) (s : State) : State :=
  { s with display := s.display.setCell chip page lx v, dlog := s.dlog ++ [.wr chip page lx v] }

/-- A read-modify-write of one page byte: read it, merge `bits` in by OR, write it back (R234). -/
def mergeCell (chip : ChipId) (page lx : Nat) (bits : Byte) (s : State) : State :=
  let (v, s') := dispRead chip page lx s
  dispWrite chip page lx (v ||| bits) s'

/-- The live frame set cleared: every buffer byte 0x00 and every valid flag 0 (R131, R132). -/
def clearFrameSet (s : State) : State := { s with live := Buffers.zero, valid := ValidFlags.none }

/-- A command-phase byte: it ends a desync, and sets the target and the remaining-count (R121, R122). -/
def selectTarget (target : Option RegId) (count : BitVec 3) (s : State) : State :=
  { s with busDisabled := false, active := target, remaining := count }

/-- The store case of BUS.DATA: reverse-order reassembly into register `r` (R124). -/
def storeBurstByte (r : RegId) (v : Byte) (s : State) : State :=
  let left := s.remaining - 1
  { s with
    live := s.live.setByte r left.toNat v
    remaining := left
    valid := if left = 0 then s.valid.mark r else s.valid }

/-- Block reset: every piece of block state to the value of R39 (R300). The display, the parameters, the BUS_IDLE level,
the logs of the run and what the environment does next are not the block's (R37, R301, assumption logs 6 and 8). -/
def blockReset (s : State) : State :=
  { s with
    live := Buffers.zero
    valid := ValidFlags.none
    active := none
    remaining := 0
    busDisabled := false
    cursorX := 0
    cursorY := 0
    fontBase := 0
    snap := Buffers.zero
    snapValid := false
    badop := false
    result := 0 }

end Sys2Proof.Machine
end

