-- ==== Sys2Proof/Machine/FieldDecoders.lean ====
section
/-! DEFINITION. Sys2Proof/Machine/FieldDecoders.lean: the digit, punctuation and annunciator decoders and their host
operations on the snapshot bank (spec/41_field_decoders.md). -/

namespace Sys2Proof.Machine

/-- `DigitMap(raw)`: the character code of a 7-bit raw code (R163, R164). -/
def digitMap (raw : BitVec 7) : Byte :=
  let n := raw.toNat
  if n = 0x00 then 0x2A
  else if n ≤ 0x1F then BitVec.ofNat 8 (n + 0x40)
  else if n = 0x2C then 0x3C
  else if n = 0x2E then 0x3E
  else if n = 0x3A then 0x2A
  else if 0x3B ≤ n ∧ n ≤ 0x3F then BitVec.ofNat 8 n
  else if 0x40 ≤ n ∧ n ≤ 0x45 then BitVec.ofNat 8 (n + 0x20)
  else 0x3F

/-- The raw code of a position (R161, R162). -/
def rawCode (c : Config) (pos : Nat) (b : Buffers) : BitVec 7 :=
  let k := c.pairIndex pos
  c.combine (c.fieldA pos (b.byte .A k)) (c.fieldB pos (b.byte .B k)) (c.fieldC pos (b.byte .C k))

/-- `Digit(p, A, B, C)` (R165). -/
def digitAt (c : Config) (pos : Nat) (b : Buffers) : Byte := digitMap (rawCode c pos b)

/-- DIGIT (R166). -/
def execDigit (pos : BitVec 4) (s : State) : StepResult :=
  if posInRange pos then .next (withResult ((digitAt s.cfg pos.toNat s.snap).setWidth 32) s) else .next (badop s)

/-- `PunctClass(m)`: NONE 0, DOT 1, COLON 2, COMMA 3 (R168). -/
def punctClass (m : Byte) : BitVec 2 :=
  if m = 0x40 ∨ m = 0x04 then 1
  else if m = 0x80 ∨ m = 0x08 then 2
  else if m = 0xC0 ∨ m = 0x0C then 3
  else 0

/-- The masked byte of a position (R167). -/
def punctByte (c : Config) (pos : Nat) (b : Buffers) : Byte := b.byte .B (c.pairIndex pos) &&& c.punctMask pos

/-- PUNCT (R169). -/
def execPunct (pos : BitVec 4) (s : State) : StepResult :=
  if posInRange pos then .next (withResult ((punctClass (punctByte s.cfg pos.toNat s.snap)).setWidth 32) s)
  else .next (badop s)

/-- `AnnMask(ANN)`: buf[0] is the high byte; the low 12 bits of {buf[0], buf[1]} (R170). -/
def annMask (b : Buffers) : BitVec 12 := (b.byte .ANN 0 ++ b.byte .ANN 1).setWidth 12

/-- `AnnBit(i)`: left-to-right position i is mask bit 11 − i (R171). -/
def annBit (b : Buffers) (pos : Nat) : Bool := (annMask b).getLsbD (11 - pos)

/-- ANN (R172). -/
def execAnn (pos : BitVec 4) (s : State) : StepResult :=
  if posInRange pos then .next (withResult ((flagBit (annBit s.snap pos.toNat)).setWidth 32) s) else .next (badop s)

/-- ANN.MASK (R173). -/
def execAnnMask (s : State) : StepResult := .next (withResult ((annMask s.snap).setWidth 32) s)

end Sys2Proof.Machine
end

