-- ==== Sys2Proof/Machine/FrameDecoder.lean ====
section
/-! DEFINITION. Sys2Proof/Machine/FrameDecoder.lean: the producer's bus events and the consumer's frame-set operations
(spec/40_frame_decoder.md), and the reserved opcodes (spec/30_encoding.md R96). -/

namespace Sys2Proof.Machine

/-- BUS.CMD_A (R121). -/
def execBusCmdA (s : State) : StepResult := .next (selectTarget (some .A) 6 s)

/-- BUS.CMD_B (R121). -/
def execBusCmdB (s : State) : StepResult := .next (selectTarget (some .B) 6 s)

/-- BUS.CMD_C (R121). -/
def execBusCmdC (s : State) : StepResult := .next (selectTarget (some .C) 6 s)

/-- BUS.CMD_ANN (R121). -/
def execBusCmdAnn (s : State) : StepResult := .next (selectTarget (some .ANN) 2 s)

/-- BUS.CMD_IGN: a recognized command byte that selects nothing (R122). -/
def execBusCmdIgn (s : State) : StepResult := .next (selectTarget none 0 s)

/-- BUS.CMD_UNREC: an unrecognized command byte, ignored identically (R122). -/
def execBusCmdUnrec (s : State) : StepResult := .next (selectTarget none 0 s)

/-- BUS.DATA (R123): no effect while disabled, the store of R124 while bytes are expected, else the desync of R125. In a
state that breaks R27 there is no register to store to (assumption log 7). -/
def execBusData (v : Byte) (s : State) : StepResult :=
  if s.busDisabled then .next s
  else if s.remaining = 0 then .next { s with busDisabled := true }
  else
    match s.active with
    | none => .fault .burstOutsideRegister
    | some r => if s.remaining.toNat ≤ r.len then .next (storeBurstByte r v s) else .fault .burstOutsideRegister

/-- NOP (R126). -/
def execNop (s : State) : StepResult := .next (withResult 0 s)

/-- STATUS (R127). -/
def execStatus (s : State) : StepResult := .next (withResult s.statusWord s)

/-- FS.READY (R130). -/
def execFsReady (s : State) : StepResult := .next (withResult ((flagBit s.ready).setWidth 32) s)

/-- FS.RESET (R131). -/
def execFsReset (s : State) : StepResult := .next (withResult 0 (clearFrameSet s))

/-- FS.CAPTURE: test, copy to the snapshot bank and clear, in one step (R132). -/
def execFsCapture (s : State) : StepResult :=
  if s.ready then .next (withResult 1 (clearFrameSet { s with snap := s.live, snapValid := true }))
  else .next (withResult 0 s)

/-- REG.RD (R128). -/
def execRegRd (r : RegId) (idx : BitVec 3) (s : State) : StepResult :=
  if idxInRange r idx then .next (withResult ((s.live.byte r idx.toNat).setWidth 32) s) else .next (badop s)

/-- SNAP.RD (R129). -/
def execSnapRd (r : RegId) (idx : BitVec 3) (s : State) : StepResult :=
  if idxInRange r idx then .next (withResult ((s.snap.byte r idx.toNat).setWidth 32) s) else .next (badop s)

/-- RESERVED: opcodes 0x14 to 0xFF (R96). -/
def execReserved (s : State) : StepResult := .next (badop s)

end Sys2Proof.Machine
end

