-- ==== Sys2Proof/Machine/PixelPlane.lean ====
section
/-! DEFINITION. Sys2Proof/Machine/PixelPlane.lean: the column writer, chip resolution and the cursor, with their host
operations (spec/43_pixel_plane.md). -/

namespace Sys2Proof.Machine

/-- x advances by 1 and y is unchanged (R232). -/
def advanceColumn (s : State) : State := { s with cursorX := BitVec.ofNat 12 (s.cursorX.toNat + 1) }

/-- The column writer at a resolved cell column: page p = y div 8, off = y mod 8 (R232 to R234). -/
def writeColumnAt (chip : ChipId) (lx : Nat) (b : Byte) (s : State) : State :=
  let y := s.cursorY.toNat
  let p := y / 8
  let off := y % 8
  if off = 0 then advanceColumn (dispWrite chip p lx b s)
  else
    let s1 := mergeCell chip p lx (b <<< off) s
    if y + 8 > s.cfg.displayBottom then advanceColumn s1
    else advanceColumn (mergeCell chip (p + 1) lx (b >>> (8 - off)) s1)

/-- `WriteColumn(b)`: dropped when the cursor is out of bounds (R231); else one column at the chip and local column of
the cursor (R232, R236). -/
def writeColumn (b : Byte) (s : State) : State :=
  if s.cfg.inBounds s.cursorX.toNat s.cursorY.toNat then
    match resolveChip s.cfg s.cursorX.toNat with
    | some (chip, lx) => writeColumnAt chip lx b s
    | none => s
  else s

/-- COL.WR (R232). -/
def execColWr (b : Byte) (s : State) : StepResult := .next (withResult 0 (writeColumn b s))

/-- CUR.SET (R238). -/
def execCurSet (x y : Coord) (s : State) : StepResult := .next (withResult 0 { s with cursorX := x, cursorY := y })

/-- CUR.RD (R239). -/
def execCurRd (s : State) : StepResult := .next (withResult (0#8 ++ s.cursorX ++ s.cursorY) s)

/-- The result word of CHIP.RES: bit 31 = valid, bits 17:16 = chip, bits 11:0 = local column (R237). -/
def chipResWord : Option (ChipId × Nat) → HostWord
  | none => 0
  | some (chip, lx) => 1#1 ++ 0#13 ++ BitVec.ofNat 2 chip.number ++ 0#4 ++ BitVec.ofNat 12 lx

/-- CHIP.RES (R237). -/
def execChipRes (x : Coord) (s : State) : StepResult := .next (withResult (chipResWord (resolveChip s.cfg x.toNat)) s)

end Sys2Proof.Machine
end

