-- ==== Sys2Proof/Machine/GlyphRenderer.lean ====
section
/-! DEFINITION. Sys2Proof/Machine/GlyphRenderer.lean: the font resolver and the glyph renderer, with their host operations
(spec/42_glyph_renderer.md). -/

namespace Sys2Proof.Machine

/-- The header of a font (R190). -/
structure FontHeader where
  /-- `FW`, 0 for a variable-width font -/
  fixedWidth : Nat
  /-- `HT` -/
  height : Nat
  /-- `FIRST` -/
  first : Nat
  /-- `LAST` -/
  last : Nat
  deriving DecidableEq, Repr

/-- `PC` = ceil(HT / 8) (R63, R190). -/
def FontHeader.pages (h : FontHeader) : Nat := (h.height + 7) / 8

/-- `N` = LAST − FIRST + 1, the source's charCount (R191). -/
def FontHeader.charCount (h : FontHeader) : Nat := h.last - h.first + 1

/-- The source's tableOffset, the offset of the first byte after the header (R191). -/
def tableOffset : Nat := 6

/-- The header of the font at base address `base`. The declared size at offsets 0 and 1 is never read (R190). -/
def readHeader (c : Config) (base : Nat) : Except Fault FontHeader := do
  let fw ← fontRead c (base + 2)
  let ht ← fontRead c (base + 3)
  let first ← fontRead c (base + 4)
  let last ← fontRead c (base + 5)
  .ok { fixedWidth := fw.toNat, height := ht.toNat, first := first.toNat, last := last.toNat }

/-- A located glyph: its offset from the font's base, its width and its page count (R192). -/
structure Glyph where
  offset : Nat
  width : Nat
  pages : Nat
  deriving DecidableEq, Repr

/-- The sum of the first `n` entries of the width table at `table` (R194). -/
def widthSum (c : Config) (table : Nat) : Nat → Except Fault Nat
  | 0 => .ok 0
  | n + 1 => do
    let s ← widthSum c table n
    let w ← fontRead c (table + n)
    .ok (s + w.toNat)

/-- A glyph of a fixed-width font (R193). -/
def fixedGlyph (h : FontHeader) (i : Nat) : Glyph where
  offset := i * h.pages * h.fixedWidth + tableOffset
  width := h.fixedWidth
  pages := h.pages

/-- A glyph of a variable-width font (R194). -/
def variableGlyph (c : Config) (base : Nat) (h : FontHeader) (i : Nat) : Except Fault Glyph := do
  let w ← fontRead c (base + tableOffset + i)
  let s ← widthSum c (base + tableOffset) i
  .ok { offset := s * h.pages + h.charCount + tableOffset, width := w.toNat, pages := h.pages }

/-- `LocateGlyph(F, code)`; `none` stands for found = 0 (R192). -/
def locateGlyph (c : Config) (base code : Nat) : Except Fault (Option Glyph) := do
  let h ← readHeader c base
  if code < h.first ∨ h.last < code then .ok none
  else if h.fixedWidth ≠ 0 then .ok (some (fixedGlyph h (code - h.first)))
  else do
    let g ← variableGlyph c base h (code - h.first)
    .ok (some g)

/-- FONT.SET (R195). -/
def execFontSet (addr : FontAddr) (s : State) : StepResult := .next (withResult 0 { s with fontBase := addr })

/-- FONT.RD (R196). -/
def execFontRd (s : State) : StepResult := .next (withResult (s.fontBase.setWidth 32) s)

/-- The result word of GLYPH.INFO: bit 31 = found, bits 13:8 = page count, bits 7:0 = width (R197). -/
def glyphInfoWord : Option Glyph → HostWord
  | none => 0
  | some g => 1#1 ++ 0#17 ++ BitVec.ofNat 6 g.pages ++ BitVec.ofNat 8 g.width

/-- The result word of GLYPH.OFF: bit 31 = found, bits 23:0 = offset (R198). -/
def glyphOffWord : Option Glyph → HostWord
  | none => 0
  | some g => 1#1 ++ 0#7 ++ BitVec.ofNat 24 g.offset

/-- GLYPH.INFO (R197). -/
def execGlyphInfo (code : Byte) (s : State) : StepResult :=
  match locateGlyph s.cfg s.fontBase.toNat code.toNat with
  | .ok g => .next (withResult (glyphInfoWord g) s)
  | .error f => .fault f

/-- GLYPH.OFF (R198). -/
def execGlyphOff (code : Byte) (s : State) : StepResult :=
  match locateGlyph s.cfg s.fontBase.toNat code.toNat with
  | .ok g => .next (withResult (glyphOffWord g) s)
  | .error f => .fault f

/-- The next `n` columns of one page of a glyph, from font address `a` on, each through the column writer (R201). Every
byte is read, those of columns the writer then drops as well (assumption log 14). -/
def streamColumns : Nat → Nat → State → Except Fault State
  | _, 0, s => .ok s
  | a, n + 1, s => do
    let b ← fontRead s.cfg a
    streamColumns (a + 1) n (writeColumn b s)

/-- The page advance: the cursor of page `p` of a glyph at (x0, y0) is (x0, y0 + 8 p) (R202). -/
def pageCursor (x0 y0 p : Nat) (s : State) : State := setCursor x0 (y0 + 8 * p) s

/-- The last `n` pages of a glyph of `w` columns whose page `p` stands at font address `a`. After all but the last page
the cursor goes down, unless the next page's row is below the bottom edge: then no more pages are streamed (R201, R202). -/
def streamPages (w x0 y0 : Nat) : Nat → Nat → Nat → State → Except Fault State
  | _, _, 0, s => .ok s
  | _, a, 1, s => streamColumns a w s
  | p, a, n + 2, s => do
    let s1 ← streamColumns a w s
    if y0 + 8 * (p + 1) > s.cfg.displayBottom then .ok s1
    else streamPages w x0 y0 (p + 1) (a + w) (n + 1) (pageCursor x0 y0 (p + 1) s1)

/-- A located glyph drawn at the cursor, and the advance after it (R199, R201, R203). -/
def drawGlyph (g : Glyph) (s : State) : Except Fault State := do
  let x0 := s.cursorX.toNat
  let y0 := s.cursorY.toNat
  let s1 ← streamPages g.width x0 y0 0 (s.fontBase.toNat + g.offset) g.pages s
  .ok (setCursor (x0 + g.width + s.cfg.glyphSpacing.toNat) y0 s1)

/-- `putChar(code)`, with the three no-op cases of R200 in their order. -/
def putChar (code : Byte) (s : State) : Except Fault State :=
  if !s.cfg.inBounds s.cursorX.toNat s.cursorY.toNat then .ok s
  else if code.toNat < s.cfg.minPrintable.toNat then .ok s
  else do
    match ← locateGlyph s.cfg s.fontBase.toNat code.toNat with
    | none => .ok s
    | some g => drawGlyph g s

/-- PUTC (R201). -/
def execPutc (code : Byte) (s : State) : StepResult :=
  match putChar code s with
  | .ok s' => .next (withResult 0 s')
  | .error f => .fault f

end Sys2Proof.Machine
end

