-- ==== Sys2Proof/Machine/Dispatch.lean ====
section
/-! DEFINITION. Sys2Proof/Machine/Dispatch.lean: the meaning of each operation, one arm for each constructor of Instr. -/

namespace Sys2Proof.Machine

def exec (i : Instr) (s : State) : Host.Outcome State Fault Refusal :=
  match i with
  | .busCmdA => Sys2Proof.Machine.execBusCmdA s
  | .busCmdB => Sys2Proof.Machine.execBusCmdB s
  | .busCmdC => Sys2Proof.Machine.execBusCmdC s
  | .busCmdAnn => Sys2Proof.Machine.execBusCmdAnn s
  | .busCmdIgn _ => Sys2Proof.Machine.execBusCmdIgn s
  | .busCmdUnrec _ => Sys2Proof.Machine.execBusCmdUnrec s
  | .busData v => Sys2Proof.Machine.execBusData v s
  | .nop => Sys2Proof.Machine.execNop s
  | .status => Sys2Proof.Machine.execStatus s
  | .fsReady => Sys2Proof.Machine.execFsReady s
  | .fsReset => Sys2Proof.Machine.execFsReset s
  | .fsCapture => Sys2Proof.Machine.execFsCapture s
  | .regRd r idx => Sys2Proof.Machine.execRegRd r idx s
  | .snapRd r idx => Sys2Proof.Machine.execSnapRd r idx s
  | .digit pos => Sys2Proof.Machine.execDigit pos s
  | .punct pos => Sys2Proof.Machine.execPunct pos s
  | .ann pos => Sys2Proof.Machine.execAnn pos s
  | .annMask => Sys2Proof.Machine.execAnnMask s
  | .curSet x y => Sys2Proof.Machine.execCurSet x y s
  | .curRd => Sys2Proof.Machine.execCurRd s
  | .colWr b => Sys2Proof.Machine.execColWr b s
  | .putc code => Sys2Proof.Machine.execPutc code s
  | .fontSet addr => Sys2Proof.Machine.execFontSet addr s
  | .fontRd => Sys2Proof.Machine.execFontRd s
  | .glyphInfo code => Sys2Proof.Machine.execGlyphInfo code s
  | .glyphOff code => Sys2Proof.Machine.execGlyphOff code s
  | .chipRes x => Sys2Proof.Machine.execChipRes x s
  | .reserved _ => Sys2Proof.Machine.execReserved s

end Sys2Proof.Machine
end

