-- ==== Sys2Proof/Machine/Environment.lean ====
section
/-! DEFINITION. Sys2Proof/Machine/Environment.lean: the environment's side: what the next step takes, and the events that
are no operation of the block (spec/20_memory.md R74, R80; spec/10_state.md R30; spec/70_reset_and_hazards.md R300, R304,
R314). -/

namespace Sys2Proof.Machine

/-- The state after the next input is taken from the list. -/
def takeInput (rest : List Input) (s : State) : State := { s with inputs := rest }

/-- The operation of a word at one of the two ports, under the state's own parameters (R91, R95). -/
def decodeInput (s : State) (w : InputWord) : Instr := decode s.cfg w

/-- BUS_IDLE takes a level (R30, assumption log 4). -/
def setBusIdle (level : Bool) (s : State) : State := { s with busIdle := level }

/-- One of the Display Controller's own operations sets a cell; it is no transaction of the block, so DLOG does not grow
(R80, R314, assumption log 9). -/
def controllerSet (chip : ChipId) (page lx : Nat) (v : Byte) (s : State) : StepResult :=
  if s.cfg.cellExists chip page lx then .next { s with display := s.display.setCell chip page lx v }
  else .fault (.noDisplayCell chip page lx)

/-- A number of the opcode table as the input that carries its word: a bus event word for at most 16 bits, else a host
word (assumption log 11). -/
def tableInput (nbits w : Nat) : Input :=
  if nbits ≤ 16 then .word (.bus (BitVec.ofNat 9 w)) else .word (.host (BitVec.ofNat 32 w))

/-- A word put where the next step takes its input. -/
def placeTableWord (s : State) (nbits w : Nat) : State := { s with inputs := tableInput nbits w :: s.inputs }

end Sys2Proof.Machine
end

