-- ==== Sys2Proof/Machine/Step.lean ====
section
/-! DEFINITION. Sys2Proof/Machine/Step.lean: one step of the machine (spec/00_scope.md R14, spec/20_memory.md R74). -/

namespace Sys2Proof.Machine

/-- One step: the next event of the interleaving, whole. A word at a port is one operation of its agent. With no event
pending both agents wait (R302), and the state stays as it is. -/
def step (s : State) : Host.Outcome State Fault Refusal :=
  match s.inputs with
  | [] => .next s
  | .word w :: rest => exec (decodeInput s w) (takeInput rest s)
  | .busIdle level :: rest => .next (setBusIdle level (takeInput rest s))
  | .blockReset :: rest => .next (blockReset (takeInput rest s))
  | .controllerWrite chip page lx v :: rest => controllerSet chip page lx v (takeInput rest s)

/-- The state whose very next step runs the operation of a word of the opcode table. -/
def State.withFetchWord (s : State) (nbits w : Nat) : State := placeTableWord s nbits w

end Sys2Proof.Machine
end

