-- ==== Sys2Proof/Safety.lean ====
section
/-! DEFINITION. Sys2Proof/Safety.lean: the invariant of the machine (spec/10_state.md R26, R27, R40; spec/20_memory.md R67)
and the vocabulary in which the statements about it are written. -/

namespace Sys2Proof

/-- The operation is a misuse of the host port: a reserved opcode or an out-of-range operand (R96). -/
def Instr.misuse : Instr → Bool
  | .reserved _ => true
  | .regRd r idx | .snapRd r idx => decide (r.len ≤ idx.toNat)
  | .digit pos | .punct pos | .ann pos => decide (12 ≤ pos.toNat)
  | .busCmdA | .busCmdB | .busCmdC | .busCmdAnn | .busCmdIgn _ | .busCmdUnrec _ | .busData _ => false
  | .nop | .status | .fsReady | .fsReset | .fsCapture | .annMask | .curSet _ _ | .curRd | .colWr _ => false
  | .putc _ | .fontSet _ | .fontRd | .glyphInfo _ | .glyphOff _ | .chipRes _ => false

/-- The operations that read the font ROM (R190, R201). -/
def Instr.readsFont : Instr → Bool
  | .putc _ | .glyphInfo _ | .glyphOff _ => true
  | .busCmdA | .busCmdB | .busCmdC | .busCmdAnn | .busCmdIgn _ | .busCmdUnrec _ | .busData _ => false
  | .nop | .status | .fsReady | .fsReset | .fsCapture | .regRd _ _ | .snapRd _ _ => false
  | .digit _ | .punct _ | .ann _ | .annMask | .curSet _ _ | .curRd | .colWr _ => false
  | .fontSet _ | .fontRd | .chipRes _ | .reserved _ => false

/-- The consumer's operations that share the frame set, ACTIVE, REMAINING or BUS_DISABLED with the producer (R75). -/
def Instr.sharesWithProducer : Instr → Bool
  | .fsReady | .fsReset | .fsCapture | .regRd _ _ | .status => true
  | .busCmdA | .busCmdB | .busCmdC | .busCmdAnn | .busCmdIgn _ | .busCmdUnrec _ | .busData _ => false
  | .nop | .snapRd _ _ | .digit _ | .punct _ | .ann _ | .annMask | .curSet _ _ | .curRd | .colWr _ => false
  | .putc _ | .fontSet _ | .fontRd | .glyphInfo _ | .glyphOff _ | .chipRes _ | .reserved _ => false

/-- `v[lo + width − 1 : lo]` of a host word, as a number (R11). -/
def wordField (w : HostWord) (lo width : Nat) : Nat := w.toNat / 2 ^ lo % 2 ^ width

/-- The bits of a host word that its opcode's format names, the opcode among them (R95, R97). -/
def namedBits (w : HostWord) : HostWord :=
  let opc := wordField w 24 8
  if opc = 0x05 ∨ opc = 0x06 then 0xFF000307
  else if opc = 0x07 ∨ opc = 0x08 ∨ opc = 0x09 then 0xFF00000F
  else if opc = 0x0B ∨ opc = 0x0F then 0xFFFFFFFF
  else if opc = 0x0D ∨ opc = 0x0E ∨ opc = 0x11 ∨ opc = 0x12 then 0xFF0000FF
  else if opc = 0x13 then 0xFF000FFF
  else 0xFF000000

/-- The result bits that a host operation's rule names (R94, R95, R127). -/
def Instr.resultBits : Instr → HostWord
  | .status => 0x00007FFF
  | .fsReady | .fsCapture | .ann _ => 0x00000001
  | .regRd _ _ | .snapRd _ _ | .digit _ => 0x000000FF
  | .punct _ => 0x00000003
  | .annMask => 0x00000FFF
  | .curRd | .fontRd => 0x00FFFFFF
  | .glyphInfo _ => 0x80003FFF
  | .glyphOff _ => 0x80FFFFFF
  | .chipRes _ => 0x80030FFF
  | .nop | .fsReset | .curSet _ _ | .colWr _ | .putc _ | .fontSet _ | .reserved _ => 0x00000000
  | .busCmdA | .busCmdB | .busCmdC | .busCmdAnn | .busCmdIgn _ | .busCmdUnrec _ | .busData _ => 0x00000000

/-- The nibble of a byte that feeds a position, as a number: the position's half is EVEN_NIBBLE when the position is even,
the other one when it is odd (R160). -/
def positionNibble (c : Config) (pos : Nat) (v : Byte) : Nat :=
  if (pos % 2 = 0) = (c.evenNibble = .hi) then v.toNat / 16 else v.toNat % 16

/-- `PAIR_BYTE(p div 2)` (R160). -/
def positionIndex (c : Config) (pos : Nat) : Nat := (c.pairByte.toList.getD (pos / 2) 0).val

namespace Machine

/-- R27: REMAINING > 0 implies ACTIVE ≠ NONE and REMAINING ≤ LEN(ACTIVE). -/
def State.burstOk (s : State) : Bool :=
  match s.active with
  | none => decide (s.remaining = 0)
  | some r => decide (s.remaining.toNat ≤ r.len)

/-- The memory of every chip is in canonical form. -/
def Display.wf (d : Display) : Bool := d.chip1.wf && d.chip2.wf && d.chip3.wf

/-- Every listed cell of the memory of a chip is a cell that exists (R65). -/
def cellsExistIn (c : Config) (chip : ChipId) (m : Memory) : Bool :=
  m.all (fun cell => c.cellExists chip (cell.1 / 4096) (cell.1 % 4096))

/-- Every listed cell of the display is a cell that exists (R65). -/
def Display.cellsExist (c : Config) (d : Display) : Bool :=
  cellsExistIn c .chip1 d.chip1 && cellsExistIn c .chip2 d.chip2 && cellsExistIn c .chip3 d.chip3

/-- The transaction's address is in range (R66, R67). -/
def Transaction.inRange (c : Config) : Transaction → Bool
  | .rd chip page lx _ => c.cellExists chip page lx
  | .wr chip page lx _ => c.cellExists chip page lx

/-- The invariant: what holds at power-on and what every step keeps. -/
structure State.Inv (s : State) : Prop where
  /-- the parameters meet R9 -/
  cfgWf : s.cfg.wf = true
  /-- R27, and with it REMAINING ≤ 6 (R26, R40) -/
  burst : s.burstOk = true
  /-- R40: BUS_DISABLED = 1 implies REMAINING = 0 -/
  disabled : s.busDisabled = true → s.remaining = 0
  /-- R40: if SNAP_VALID = 0 then every snapshot byte is 0x00 -/
  snapshot : s.snapValid = false → s.snap = Buffers.zero
  /-- the display memory keeps its canonical form -/
  displayWf : s.display.wf = true
  /-- the display memory lists only cells that exist -/
  displayCells : s.display.cellsExist s.cfg = true
  /-- R67: every transaction's address is in range -/
  dlogInRange : ∀ tr ∈ s.dlog, tr.inRange s.cfg = true

/-- Only the host result has changed: the result word, and the record of results by that one word (R94). -/
def OnlyResult (s t : State) : Prop := t = { s with result := t.result, hostLog := s.hostLog ++ [t.result] }

/-- Only the host result and the pixels have changed: the cursor, the display and DLOG. -/
def OnlyPixels (s t : State) : Prop :=
  t = { s with
        result := t.result
        hostLog := s.hostLog ++ [t.result]
        cursorX := t.cursorX
        cursorY := t.cursorY
        display := t.display
        dlog := t.dlog }

/-- Only what the producer writes has changed (R22, R75, R282). -/
def OnlyProducer (s t : State) : Prop :=
  t = { s with
        live := t.live
        valid := t.valid
        active := t.active
        remaining := t.remaining
        busDisabled := t.busDisabled }

/-- `n` steps, up to the first stop. -/
def runSteps : Nat → State → StepResult
  | 0, s => .next s
  | n + 1, s =>
    match step s with
    | .next s' => runSteps n s'
    | .fault f => .fault f
    | .refused r => .refused r

/-- One operation after another, up to the first stop. -/
def execBoth (i j : Instr) (s : State) : StepResult :=
  match exec i s with
  | .next s' => exec j s'
  | .fault f => .fault f
  | .refused r => .refused r

/-- Bus event words as inputs, in arrival order. -/
def busInputs (ws : List BusWord) : List Input := ws.map (fun w => .word (.bus w))

/-- The bus words of one frame: the command byte of the register, then the data bytes (R103, `FRAME`). -/
def frameWords (c : Config) (r : RegId) (ds : List Byte) : List BusWord :=
  (match r with
    | .A => commandWord c.cmdA
    | .B => commandWord c.cmdB
    | .C => commandWord c.cmdC
    | .ANN => commandWord c.cmdAnn) :: ds.map dataWord

/-- The display after the transactions of a log, if each read of the log returns what the display then holds (R66). -/
def replay : List Transaction → Display → Option Display
  | [], d => some d
  | .rd chip page lx v :: log, d => if d.cell chip page lx = v then replay log d else none
  | .wr chip page lx v :: log, d => replay log (d.setCell chip page lx v)

/-- The transaction is a page read. -/
def Transaction.isRead : Transaction → Bool
  | .rd _ _ _ _ => true
  | .wr _ _ _ _ => false

/-- The byte of the font ROM at `a` (R62). -/
def romByte (c : Config) (a : Nat) : Nat := (c.fontRom.read a).toNat

/-- `PC`, the page count of the font at `base`: ceil(HT / 8) (R63, R190). -/
def romPages (c : Config) (base : Nat) : Nat := (romByte c (base + 3) + 7) / 8

/-- The code is in the declared range FIRST..LAST of the font at `base` (R192). -/
def inFontRange (c : Config) (base : Nat) (code : Byte) : Prop :=
  romByte c (base + 4) ≤ code.toNat ∧ code.toNat ≤ romByte c (base + 5)

/-- A PUTC of `code` gets past the first two no-op cases of R200: the cursor is in bounds and the code printable. -/
def State.mayPut (s : State) (code : Byte) : Prop :=
  s.cursorX.toNat ≤ s.cfg.displayRight ∧ s.cursorY.toNat ≤ s.cfg.displayBottom ∧
  s.cfg.minPrintable.toNat ≤ code.toNat

/-- How many pages of a glyph at row y0 are streamed: those whose row y0 + 8 p is not below the bottom edge (R202). -/
def streamedPages (c : Config) (y0 pages : Nat) : Nat := min pages ((c.displayBottom - y0) / 8 + 1)

/-- How many columns of a glyph at column x0 are in bounds (R205). -/
def inBoundsColumns (c : Config) (x0 width : Nat) : Nat := min width (c.displayRight + 1 - x0)

/-- Every byte that PUTC streams for the located glyph is in the ROM (R199, R202). -/
def State.glyphInRom (s : State) (g : Glyph) : Prop :=
  ∀ k, k < streamedPages s.cfg s.cursorY.toNat g.pages * g.width → s.fontBase.toNat + g.offset + k < s.cfg.fontRomSize

/-- The glyph byte of page p and column c (R199). -/
def State.glyphByte (s : State) (g : Glyph) (p c : Nat) : Byte :=
  s.cfg.fontRom.read (s.fontBase.toNat + g.offset + p * g.width + c)

/-- The transactions of one column write of `b` at row y, where the bytes of the two pages under it read `upper` and `lower`:
one write at a page-aligned row; else a read and a write of the upper page, and of the lower one unless it is below the
bottom edge (R240). -/
def columnTransactions (bottom : Nat) (chip : ChipId) (lx y : Nat) (b upper lower : Byte) : List Transaction :=
  let p := y / 8
  let off := y % 8
  let mergeUpper := [.rd chip p lx upper, .wr chip p lx (upper ||| BitVec.ofNat 8 (b.toNat * 2 ^ off))]
  let mergeLower := [.rd chip (p + 1) lx lower, .wr chip (p + 1) lx (lower ||| BitVec.ofNat 8 (b.toNat / 2 ^ (8 - off)))]
  if off = 0 then [.wr chip p lx b]
  else if bottom < y + 8 then mergeUpper
  else mergeUpper ++ mergeLower

/-- The bits that page p − 1 of a glyph has merged into the upper page of page p by the time page p is streamed (R201). -/
def State.glyphSpill (s : State) (g : Glyph) (c : Nat) : Nat → Byte
  | 0 => 0
  | p + 1 => BitVec.ofNat 8 ((s.glyphByte g p c).toNat / 2 ^ (8 - s.cursorY.toNat % 8))

/-- The transactions of column c of page p of a glyph: those of one column write at row y0 + 8 p, none right of the display
(R199, R205). -/
def State.glyphTransactions (s : State) (g : Glyph) (p c : Nat) : List Transaction :=
  let y := s.cursorY.toNat + 8 * p
  match resolveChip s.cfg (s.cursorX.toNat + c) with
  | none => []
  | some (chip, lx) =>
    columnTransactions s.cfg.displayBottom chip lx y (s.glyphByte g p c)
      (s.display.cell chip (y / 8) lx ||| s.glyphSpill g c p) (s.display.cell chip (y / 8 + 1) lx)

/-- The pixel at global column X and row Y: bit Y mod 8 of the byte of page Y div 8 at the column's chip and local column
(R65). -/
def State.pixel (s : State) (X Y : Nat) : Bool :=
  match resolveChip s.cfg X with
  | some (chip, lx) => (s.display.cell chip (Y / 8) lx).getLsbD (Y % 8)
  | none => false

end Machine

end Sys2Proof
end

