-- ==== Sys2Proof/Certificates/Slice0/Obligations.lean ====
section
/-! DEFINITION. Sys2Proof/Certificates/Slice0/Obligations.lean: the statements about the block, from the numbered rules of
spec/. A statement quantifies over every State, and with it over every value of the parameters of R9 (assumption log 1),
every display contents and every order of events. `OnlyResult s t` and its like say the frame: t is s but for the fields
they name. -/

open Sys2Proof Sys2Proof.Machine

/-! ### Encoding -/

/-- Words written out from R91, R95 and R97, with the command bytes of the reference configuration. -/
def Obligations.DecodesWordsOfTheEncodingTables : Prop :=
  decodeTableWord 16 0b100001010 = some .busCmdA ∧
  decodeTableWord 16 0b000001010 = some (.busData 0x0A) ∧
  decodeTableWord 16 0b100000011 = some (.busCmdIgn 3) ∧
  decodeTableWord 16 0b101110111 = some (.busCmdUnrec 0x77) ∧
  decodeTableWord 32 0x05000302 = some (.regRd .ANN 2) ∧
  decodeTableWord 32 0x0700000B = some (.digit 11) ∧
  decodeTableWord 32 0x0B00A03C = some (.curSet 10 60) ∧
  decodeTableWord 32 0x0E000141 = some (.putc 0x41) ∧
  decodeTableWord 32 0x0F000100 = some (.fontSet 0x100) ∧
  decodeTableWord 32 0x13ABC040 = some (.chipRes 64) ∧
  decodeTableWord 32 0xFF123456 = some (.reserved 0xFF)

/-- Decoding the word of a well-formed operation gives the operation back, for every operation, every operand and every
command table that meets R9. -/
def Obligations.DecodeInvertsEncode : Prop :=
  ∀ (c : Config) (i : Instr), c.wf = true → i.wf c = true → decode c (encode c i) = i

/-- R92: every one of the 512 bus event words is the word of exactly one operation, a well-formed bus operation. -/
def Obligations.EveryBusWordIsOneOperation : Prop :=
  ∀ (c : Config) (w : BusWord), encode c (decodeBus c w) = .bus w ∧ (decodeBus c w).isBus = true ∧
    (decodeBus c w).wf c = true

/-- R91: the command table, first match wins, and the data phase. -/
def Obligations.BusWordsDecodeByTheCommandTable : Prop :=
  ∀ (c : Config), c.wf = true → ∀ v : Byte,
    (v = c.cmdA → decodeBus c (1#1 ++ v) = .busCmdA) ∧
    (v = c.cmdB → decodeBus c (1#1 ++ v) = .busCmdB) ∧
    (v = c.cmdC → decodeBus c (1#1 ++ v) = .busCmdC) ∧
    (v = c.cmdAnn → decodeBus c (1#1 ++ v) = .busCmdAnn) ∧
    (v ∈ c.ignoredCommands → decodeBus c (1#1 ++ v) = .busCmdIgn v) ∧
    (v ∉ c.registerCommands → v ∉ c.ignoredCommands → decodeBus c (1#1 ++ v) = .busCmdUnrec v) ∧
    decodeBus c (0#1 ++ v) = .busData v

/-- R95, R97, R98: the opcode map and the operand fields of every format, in arithmetic on the word. -/
def Obligations.HostWordsDecodeByTheOpcodeMap : Prop :=
  ∀ w : HostWord,
    let opc := wordField w 24 8
    let pos := BitVec.ofNat 4 (wordField w 0 4)
    let byte := BitVec.ofNat 8 (wordField w 0 8)
    (opc = 0x00 → decodeHost w = .nop) ∧
    (opc = 0x01 → decodeHost w = .status) ∧
    (opc = 0x02 → decodeHost w = .fsReady) ∧
    (opc = 0x03 → decodeHost w = .fsReset) ∧
    (opc = 0x04 → decodeHost w = .fsCapture) ∧
    (∀ n r, (n, r) ∈ [(0, RegId.A), (1, RegId.B), (2, RegId.C), (3, RegId.ANN)] → wordField w 8 2 = n →
      (opc = 0x05 → decodeHost w = .regRd r (BitVec.ofNat 3 (wordField w 0 3))) ∧
      (opc = 0x06 → decodeHost w = .snapRd r (BitVec.ofNat 3 (wordField w 0 3)))) ∧
    (opc = 0x07 → decodeHost w = .digit pos) ∧
    (opc = 0x08 → decodeHost w = .punct pos) ∧
    (opc = 0x09 → decodeHost w = .ann pos) ∧
    (opc = 0x0A → decodeHost w = .annMask) ∧
    (opc = 0x0B → decodeHost w = .curSet (BitVec.ofNat 12 (wordField w 12 12)) (BitVec.ofNat 12 (wordField w 0 12))) ∧
    (opc = 0x0C → decodeHost w = .curRd) ∧
    (opc = 0x0D → decodeHost w = .colWr byte) ∧
    (opc = 0x0E → decodeHost w = .putc byte) ∧
    (opc = 0x0F → decodeHost w = .fontSet (BitVec.ofNat 24 (wordField w 0 24))) ∧
    (opc = 0x10 → decodeHost w = .fontRd) ∧
    (opc = 0x11 → decodeHost w = .glyphInfo byte) ∧
    (opc = 0x12 → decodeHost w = .glyphOff byte) ∧
    (opc = 0x13 → decodeHost w = .chipRes (BitVec.ofNat 12 (wordField w 0 12))) ∧
    (0x14 ≤ opc → decodeHost w = .reserved (BitVec.ofNat 8 opc))

/-! ### Steps and the environment -/

/-- A step with a word pending runs the operation the word decodes to, on the state with that word taken; and the state
that `withFetchWord` makes runs the word it is given. The list of pending words is the model's (assumption log 2). -/
def Obligations.StepRunsTheDecodedOperation : Prop :=
  (∀ (s : State) (w : InputWord) (rest : List Input), s.inputs = .word w :: rest →
    step s = exec (decode s.cfg w) { s with inputs := rest }) ∧
  (∀ (s : State) (nbits n : Nat) (w : InputWord), wordOfTableBits nbits n = .ok w →
    step (s.withFetchWord nbits n) = exec (decode s.cfg w) s)

/-- What a step does where the pending event is no operation, or none is pending: the model's environment, and what a
block reset leaves of it (assumption logs 2, 4, 6, 8 and 9). -/
def Obligations.StepTakesEnvironmentEvents : Prop :=
  ∀ (s : State) (rest : List Input),
    (s.inputs = [] → step s = .next s) ∧
    (∀ level, s.inputs = .busIdle level :: rest → step s = .next { s with inputs := rest, busIdle := level }) ∧
    (s.inputs = .blockReset :: rest → ∃ t, step s = .next t ∧ t.inputs = rest ∧ t.cfg = s.cfg ∧
      t.busIdle = s.busIdle ∧ t.display = s.display ∧ t.dlog = s.dlog ∧ t.hostLog = s.hostLog) ∧
    (∀ chip page lx v, s.inputs = .controllerWrite chip page lx v :: rest →
      (page < s.cfg.pages ∧ lx < s.cfg.chipWidth chip →
        step s = .next { s with inputs := rest, display := s.display.setCell chip page lx v }) ∧
      (¬(page < s.cfg.pages ∧ lx < s.cfg.chipWidth chip) → step s = .fault (.noDisplayCell chip page lx)))

/-- R300: block reset sets every piece of block state, in one step; the display stays (R301). -/
def Obligations.BlockResetSetsEveryRegister : Prop :=
  ∀ (s : State) (rest : List Input), s.inputs = .blockReset :: rest →
    ∃ t, step s = .next t ∧
      (∀ (r : RegId) (k : Nat), k < r.len → t.live.byte r k = 0x00 ∧ t.snap.byte r k = 0x00) ∧
      (∀ r : RegId, t.valid.get r = false) ∧ t.ready = false ∧
      t.active = none ∧ t.remaining = 0 ∧ t.busDisabled = false ∧ t.disableReq = false ∧
      t.cursorX = 0 ∧ t.cursorY = 0 ∧ t.fontBase = 0x000000 ∧
      t.snapValid = false ∧ t.badop = false ∧ t.result = 0 ∧ t.display = s.display

/-! ### The producer -/

/-- R121: a command byte selects its register and loads the remaining-count; no buffer and no valid flag changes. -/
def Obligations.CommandByteSelectsItsRegister : Prop :=
  ∀ (s : State) (i : Instr) (r : RegId) (n : BitVec 3),
    (i, r, n) ∈ [(Instr.busCmdA, RegId.A, 6#3), (.busCmdB, .B, 6#3), (.busCmdC, .C, 6#3), (.busCmdAnn, .ANN, 2#3)] →
    exec i s = .next { s with busDisabled := false, active := some r, remaining := n }

/-- R122: any other command byte selects nothing, whether ignored or unrecognized. -/
def Obligations.OtherCommandByteSelectsNothing : Prop :=
  ∀ (s : State) (v : Byte) (i : Instr), i = .busCmdIgn v ∨ i = .busCmdUnrec v →
    exec i s = .next { s with busDisabled := false, active := none, remaining := 0 }

/-- R123, R124, R125: a data byte has no effect while disabled; with bytes expected it is stored at REMAINING − 1 of the
active register, whose valid flag is set by the last byte; with none expected it raises desync. The premise is R27. -/
def Obligations.DataByteStoresOrDesyncs : Prop :=
  ∀ (s : State) (v : Byte), s.burstOk = true →
    (s.busDisabled = true → exec (.busData v) s = .next s) ∧
    (s.busDisabled = false → s.remaining = 0 → exec (.busData v) s = .next { s with busDisabled := true }) ∧
    (s.busDisabled = false → s.remaining ≠ 0 →
      ∃ r t, s.active = some r ∧ exec (.busData v) s = .next t ∧
        t.live.byte r (s.remaining.toNat - 1) = v ∧
        (∀ r' k, k < r'.len → (r', k) ≠ (r, s.remaining.toNat - 1) → t.live.byte r' k = s.live.byte r' k) ∧
        t.remaining.toNat = s.remaining.toNat - 1 ∧
        t.valid.get r = (s.valid.get r || decide (s.remaining = 1)) ∧
        (∀ r', r' ≠ r → t.valid.get r' = s.valid.get r') ∧
        t = { s with live := t.live, valid := t.valid, remaining := t.remaining })

/-- In a state that breaks R27, which no run reaches, a data byte stops the model (assumption log 7). -/
def Obligations.DataByteOutsideABurstFaults : Prop :=
  ∀ (s : State) (v : Byte), s.burstOk = false → s.busDisabled = false →
    exec (.busData v) s = .fault .burstOutsideRegister

/-- R133: from any state, a command byte and a full burst leave the register's buffer equal to the data bytes reversed and
its flag set, and no earlier byte of the sequence writes a flag. -/
def Obligations.BurstReassemblesInReverse : Prop :=
  ∀ (s : State) (r : RegId) (ds : List Byte) (rest : List Input), s.cfg.wf = true → ds.length = r.len →
    s.inputs = busInputs (frameWords s.cfg r ds) ++ rest →
    (∀ n, n ≤ r.len → ∃ t, runSteps n s = .next t ∧ t.valid = s.valid) ∧
    ∃ t, runSteps (r.len + 1) s = .next t ∧
      (∀ k, k < r.len → t.live.byte r k = ds.getD (r.len - 1 - k) 0) ∧ t.valid.get r = true ∧
      (∀ r', r' ≠ r → t.valid.get r' = s.valid.get r' ∧ ∀ k, k < r'.len → t.live.byte r' k = s.live.byte r' k) ∧
      t.active = some r ∧ t.remaining = 0 ∧ t.busDisabled = false ∧ t.inputs = rest

/-- R315: a burst in progress at FS.RESET goes on into the cleared register: its last byte makes the register valid, and
the slots the burst had filled before the reset hold 0x00. -/
def Obligations.BurstGoesOnAcrossFsReset : Prop :=
  ∀ (s : State) (r : RegId) (ds : List Byte) (rest : List Input), s.active = some r → s.remaining.toNat ≤ r.len →
    s.remaining ≠ 0 → s.busDisabled = false → ds.length = s.remaining.toNat →
    s.inputs = .word (encode s.cfg .fsReset) :: (busInputs (ds.map dataWord) ++ rest) →
    ∃ t, runSteps (ds.length + 1) s = .next t ∧ t.valid.get r = true ∧
      (∀ k, k < s.remaining.toNat → t.live.byte r k = ds.getD (s.remaining.toNat - 1 - k) 0) ∧
      (∀ k, s.remaining.toNat ≤ k → k < r.len → t.live.byte r k = 0x00)

/-- R134: after FS.RESET, FS.READY returns 0, at once and after any bus events up to 17; 18 can be enough. -/
def Obligations.ResetThenNotReady : Prop :=
  (∀ (s t : State), exec .fsReset s = .next t → ∃ u, exec .fsReady t = .next u ∧ u.result = 0) ∧
  (∀ (s t : State) (ws : List BusWord), s.burstOk = true → exec .fsReset s = .next t → ws.length ≤ 17 →
    ∃ u v, runSteps ws.length { t with inputs := busInputs ws } = .next u ∧ exec .fsReady u = .next v ∧ v.result = 0) ∧
  (∃ (s t u v : State) (ws : List BusWord), s.burstOk = true ∧ exec .fsReset s = .next t ∧ ws.length = 18 ∧
    runSteps 18 { t with inputs := busInputs ws } = .next u ∧ exec .fsReady u = .next v ∧ v.result = 1)

/-- The frame of the bus events: none of them changes anything that the consumer owns, the display or the environment. -/
def Obligations.BusEventsChangeOnlyProducerState : Prop :=
  ∀ (i : Instr) (s t : State), i.isBus = true → exec i s = .next t → OnlyProducer s t

/-- R24: the three ways in which a valid flag changes, and no other; a command byte leaves the flags and the buffers of all
registers unchanged. -/
def Obligations.ValidFlagsChangeInThreeWays : Prop :=
  (∀ (i : Instr) (s t : State) (r : RegId), exec i s = .next t → t.valid.get r ≠ s.valid.get r →
    (t.valid.get r = true ∧ (∃ v, i = .busData v) ∧ s.active = some r ∧ s.remaining = 1 ∧ t.remaining = 0 ∧
      s.busDisabled = false) ∨
    (t.valid.get r = false ∧ i = .fsReset) ∨
    (t.valid.get r = false ∧ i = .fsCapture ∧ s.ready = true)) ∧
  (∀ (i : Instr) (s t : State), i.isBus = true → (∀ v, i ≠ .busData v) → exec i s = .next t →
    t.valid = s.valid ∧ t.live = s.live)

/-- R22: a host operation leaves the live frame set alone, but for FS.RESET and a successful FS.CAPTURE, which clear it;
and no host operation changes ACTIVE, REMAINING or BUS_DISABLED. -/
def Obligations.HostOperationsOnlyClearTheFrameSet : Prop :=
  ∀ (i : Instr) (s t : State), i.isBus = false → exec i s = .next t →
    t.active = s.active ∧ t.remaining = s.remaining ∧ t.busDisabled = s.busDisabled ∧
    ((t.live = s.live ∧ t.valid = s.valid) ∨
      ((i = .fsReset ∨ (i = .fsCapture ∧ s.ready = true)) ∧
        ∀ r : RegId, t.valid.get r = false ∧ ∀ k, k < r.len → t.live.byte r k = 0x00))

/-! ### Frame-set host operations -/

/-- R126: NOP leaves all state unchanged and gives a result of 0, whatever its operand bits. -/
def Obligations.NopOnlySetsAZeroResult : Prop :=
  ∀ (s : State), exec .nop s = .next { s with result := 0, hostLog := s.hostLog ++ [0] }

/-- R35, R127: every field of the STATUS word. -/
def Obligations.StatusReportsEveryField : Prop :=
  ∀ (s : State), ∃ t, exec .status s = .next t ∧ OnlyResult s t ∧
    t.result.getLsbD 0 = s.valid.a ∧ t.result.getLsbD 1 = s.valid.b ∧ t.result.getLsbD 2 = s.valid.c ∧
    t.result.getLsbD 3 = s.valid.ann ∧
    t.result.getLsbD 4 = (s.valid.a && s.valid.b && s.valid.c && s.valid.ann) ∧
    t.result.getLsbD 5 = s.busIdle ∧ t.result.getLsbD 6 = s.busDisabled ∧ t.result.getLsbD 7 = s.snapValid ∧
    t.result.getLsbD 8 = s.badop ∧
    wordField t.result 9 3 = (match s.active with | none => 0 | some .A => 1 | some .B => 2 | some .C => 3 | some .ANN => 4) ∧
    wordField t.result 12 3 = s.remaining.toNat ∧
    wordField t.result 15 17 = 0

/-- R130: FS.READY tests all four valid flags. -/
def Obligations.FsReadyTestsAllFourFlags : Prop :=
  ∀ (s : State), ∃ t, exec .fsReady s = .next t ∧ OnlyResult s t ∧
    t.result = (if s.valid.a = true ∧ s.valid.b = true ∧ s.valid.c = true ∧ s.valid.ann = true then 1 else 0)

/-- R131: FS.RESET zeroes the four buffers and clears the four flags; ACTIVE, REMAINING, BUS_DISABLED and the snapshot stay. -/
def Obligations.FsResetClearsTheFrameSet : Prop :=
  ∀ (s : State), ∃ t, exec .fsReset s = .next t ∧ t.result = 0 ∧ t.ready = false ∧
    (∀ r : RegId, t.valid.get r = false ∧ ∀ k, k < r.len → t.live.byte r k = 0x00) ∧
    t = { s with live := t.live, valid := t.valid, result := t.result, hostLog := s.hostLog ++ [t.result] }

/-- R132: FS.CAPTURE copies and clears the frame set when READY, and else changes nothing but the result. -/
def Obligations.FsCaptureCopiesAndClears : Prop :=
  ∀ (s : State),
    ((s.valid.a && s.valid.b && s.valid.c && s.valid.ann) = true →
      ∃ t, exec .fsCapture s = .next t ∧ t.result = 1 ∧ t.snapValid = true ∧
        (∀ r : RegId, t.valid.get r = false ∧
          ∀ k, k < r.len → t.snap.byte r k = s.live.byte r k ∧ t.live.byte r k = 0x00) ∧
        t = { s with
              live := t.live
              valid := t.valid
              snap := t.snap
              snapValid := t.snapValid
              result := t.result
              hostLog := s.hostLog ++ [t.result] }) ∧
    ((s.valid.a && s.valid.b && s.valid.c && s.valid.ann) = false →
      exec .fsCapture s = .next { s with result := 0, hostLog := s.hostLog ++ [0] })

/-- R128: REG.RD returns a live buffer byte, zero-extended; an index out of range is a misuse. -/
def Obligations.RegRdReadsALiveByte : Prop :=
  ∀ (s : State) (r : RegId) (idx : BitVec 3),
    (idx.toNat < r.len → ∃ t, exec (.regRd r idx) s = .next t ∧ OnlyResult s t ∧
      t.result.toNat = (s.live.byte r idx.toNat).toNat) ∧
    (r.len ≤ idx.toNat → exec (.regRd r idx) s = .next { s with badop := true, result := 0, hostLog := s.hostLog ++ [0] })

/-- R129: SNAP.RD returns a snapshot byte, zero-extended; an index out of range is a misuse. -/
def Obligations.SnapRdReadsASnapshotByte : Prop :=
  ∀ (s : State) (r : RegId) (idx : BitVec 3),
    (idx.toNat < r.len → ∃ t, exec (.snapRd r idx) s = .next t ∧ OnlyResult s t ∧
      t.result.toNat = (s.snap.byte r idx.toNat).toNat) ∧
    (r.len ≤ idx.toNat → exec (.snapRd r idx) s = .next { s with badop := true, result := 0, hostLog := s.hostLog ++ [0] })

/-- R96: a reserved opcode, or an operand out of range, sets BADOP and a result of 0 and changes no other state; operand
bits that a format does not name are ignored. -/
def Obligations.MisuseOfTheHostPortSetsBadop : Prop :=
  (∀ w : HostWord, 0x14 ≤ wordField w 24 8 → (decodeHost w).misuse = true) ∧
  (∀ (r : RegId) (idx : BitVec 3), r.len ≤ idx.toNat → (Instr.regRd r idx).misuse = true ∧
    (Instr.snapRd r idx).misuse = true) ∧
  (∀ pos : BitVec 4, 12 ≤ pos.toNat → (Instr.digit pos).misuse = true ∧ (Instr.punct pos).misuse = true ∧
    (Instr.ann pos).misuse = true) ∧
  (∀ (i : Instr) (s : State), i.misuse = true →
    exec i s = .next { s with badop := true, result := 0, hostLog := s.hostLog ++ [0] }) ∧
  (∀ w : HostWord, decodeHost (w &&& namedBits w) = decodeHost w)

/-- R94: every host operation sets the result word; an operation with no result sets it to 0, and every result bit that
the operation's rule does not name is 0. -/
def Obligations.EveryHostOperationSetsTheResult : Prop :=
  ∀ (i : Instr) (s t : State), i.isBus = false → exec i s = .next t →
    t.hostLog = s.hostLog ++ [t.result] ∧ t.result &&& i.resultBits = t.result

/-- R34: BADOP is set by a misuse of the host port and by nothing else, and no operation clears it; block reset does. -/
def Obligations.BadopIsSticky : Prop :=
  (∀ (i : Instr) (s t : State), exec i s = .next t → t.badop = (s.badop || i.misuse)) ∧
  (∀ (s t : State), step s = .next t → s.badop = true → t.badop = false → s.inputs.head? = some .blockReset)

/-- R33: only FS.CAPTURE writes the snapshot bank. -/
def Obligations.OnlyFsCaptureWritesTheSnapshot : Prop :=
  ∀ (i : Instr) (s t : State), exec i s = .next t → (t.snap ≠ s.snap ∨ t.snapValid ≠ s.snapValid) →
    i = .fsCapture ∧ s.ready = true ∧ t.snap = s.live ∧ t.snapValid = true

/-! ### Field decoders -/

/-- R163: the digit table. -/
def Obligations.DigitMapFollowsTheTable : Prop :=
  ∀ raw : BitVec 7,
    let n := raw.toNat
    (n = 0x00 → digitMap raw = 0x2A) ∧
    (0x01 ≤ n → n ≤ 0x1F → (digitMap raw).toNat = n + 0x40) ∧
    (n = 0x2C → digitMap raw = 0x3C) ∧
    (n = 0x2E → digitMap raw = 0x3E) ∧
    (n = 0x3A → digitMap raw = 0x2A) ∧
    (0x3B ≤ n → n ≤ 0x3F → (digitMap raw).toNat = n) ∧
    (0x40 ≤ n → n ≤ 0x45 → (digitMap raw).toNat = n + 0x20) ∧
    ((0x20 ≤ n ∧ n ≤ 0x2B) ∨ n = 0x2D ∨ (0x2F ≤ n ∧ n ≤ 0x39) ∨ 0x46 ≤ n → digitMap raw = 0x3F)

/-- R160, R161, R162, R165, R166: DIGIT takes one nibble of the byte at PAIR_BYTE of each of S_A, S_B and S_C, makes the
raw code of its 4-, 2- and 1-bit fields, and maps it. -/
def Obligations.DigitDecodesOnePosition : Prop :=
  ∀ (s : State) (pos : BitVec 4),
    (pos.toNat < 12 → ∃ t, exec (.digit pos) s = .next t ∧ OnlyResult s t ∧ t.result ≠ 0 ∧
      (let k := positionIndex s.cfg pos.toNat
       let fa := positionNibble s.cfg pos.toNat (s.snap.byte .A k)
       let fb := positionNibble s.cfg pos.toNat (s.snap.byte .B k) / 2 ^ s.cfg.bDigitLsb.val % 4
       let fc := positionNibble s.cfg pos.toNat (s.snap.byte .C k) / 2 ^ s.cfg.cBit.val % 2
       t.result.toNat = (digitMap (s.cfg.rawCombine.getD (fc * 64 + fb * 16 + fa) 0)).toNat)) ∧
    (12 ≤ pos.toNat → exec (.digit pos) s = .next { s with badop := true, result := 0, hostLog := s.hostLog ++ [0] })

/-- R168: the punctuation classes. -/
def Obligations.PunctClassFollowsTheTable : Prop :=
  ∀ m : Byte,
    (m = 0x40 ∨ m = 0x04 → punctClass m = 1) ∧
    (m = 0x80 ∨ m = 0x08 → punctClass m = 2) ∧
    (m = 0xC0 ∨ m = 0x0C → punctClass m = 3) ∧
    (m ∉ [0x40, 0x04, 0x80, 0x08, 0xC0, 0x0C] → punctClass m = 0)

/-- R167, R169: the punctuation class of a position is the top two bits of its nibble of S_B. -/
def Obligations.PunctDecodesOnePosition : Prop :=
  ∀ (s : State) (pos : BitVec 4),
    (pos.toNat < 12 → ∃ t, exec (.punct pos) s = .next t ∧ OnlyResult s t ∧
      t.result.toNat = positionNibble s.cfg pos.toNat (s.snap.byte .B (positionIndex s.cfg pos.toNat)) / 4) ∧
    (12 ≤ pos.toNat → exec (.punct pos) s = .next { s with badop := true, result := 0, hostLog := s.hostLog ++ [0] })

/-- R170 to R173: the annunciator mask and its bits, position i being mask bit 11 − i. -/
def Obligations.AnnunciatorsReadTheMask : Prop :=
  ∀ (s : State),
    let mask := ((s.snap.byte .ANN 0).toNat * 256 + (s.snap.byte .ANN 1).toNat) % 4096
    (∃ t, exec .annMask s = .next t ∧ OnlyResult s t ∧ t.result.toNat = mask) ∧
    (∀ pos : BitVec 4,
      (pos.toNat < 12 → ∃ t, exec (.ann pos) s = .next t ∧ OnlyResult s t ∧
        t.result.toNat = mask / 2 ^ (11 - pos.toNat) % 2) ∧
      (12 ≤ pos.toNat →
        exec (.ann pos) s = .next { s with badop := true, result := 0, hostLog := s.hostLog ++ [0] }))

/-! ### Cursor, chips and the column writer -/

/-- R238, R239: CUR.SET stores any two 12-bit values, and CUR.RD returns the cursor as {x, y}. -/
def Obligations.CursorIsSetAndRead : Prop :=
  ∀ (s : State),
    (∀ x y : Coord, exec (.curSet x y) s =
      .next { s with cursorX := x, cursorY := y, result := 0, hostLog := s.hostLog ++ [0] }) ∧
    ∃ t, exec .curRd s = .next t ∧ OnlyResult s t ∧ t.result.toNat = s.cursorX.toNat * 2 ^ 12 + s.cursorY.toNat

/-- R235, R237: CHIP.RES reports the chip and the local column of a global column, and 0 outside the display. -/
def Obligations.ChipResReportsTheResolution : Prop :=
  ∀ (s : State) (x : Coord), s.cfg.wf = true →
    ∃ t, exec (.chipRes x) s = .next t ∧ OnlyResult s t ∧
      (x.toNat < s.cfg.chip2Start → t.result.toNat = 2 ^ 31 + 1 * 2 ^ 16 + x.toNat) ∧
      (s.cfg.chip2Start ≤ x.toNat → x.toNat < s.cfg.chip3Start →
        t.result.toNat = 2 ^ 31 + 2 * 2 ^ 16 + (x.toNat - s.cfg.chip2Start)) ∧
      (s.cfg.chip3Start ≤ x.toNat → x.toNat < s.cfg.displayWidth →
        t.result.toNat = 2 ^ 31 + 3 * 2 ^ 16 + (x.toNat - s.cfg.chip3Start)) ∧
      (s.cfg.displayWidth ≤ x.toNat → t.result = 0)

/-- R241: chip resolution is a partition: total on the display, one chip and one local column for each x, injective, local
column 0 at the start of each region, and every local column inside its chip. -/
def Obligations.ChipResolutionPartitionsTheDisplay : Prop :=
  ∀ (c : Config), c.wf = true →
    (∀ x, x < c.displayWidth →
      ∃ chip lx, resolveChip c x = some (chip, lx) ∧ lx < c.chipWidth chip ∧ x = c.chipStart chip + lx) ∧
    (∀ x y chip lx, resolveChip c x = some (chip, lx) → resolveChip c y = some (chip, lx) → x = y) ∧
    (∀ x, c.displayWidth ≤ x → resolveChip c x = none) ∧
    resolveChip c 0 = some (.chip1, 0) ∧ resolveChip c c.chip2Start = some (.chip2, 0) ∧
    resolveChip c c.chip3Start = some (.chip3, 0)

/-- R231: a column write with the cursor out of bounds is dropped: nothing read, nothing written, the cursor unchanged. -/
def Obligations.ColumnWriteOutOfBoundsIsDropped : Prop :=
  ∀ (s : State) (b : Byte), s.cfg.displayRight < s.cursorX.toNat ∨ s.cfg.displayBottom < s.cursorY.toNat →
    exec (.colWr b) s = .next { s with result := 0, hostLog := s.hostLog ++ [0] }

/-- R232, R233, R234, R242: the pixels of a column write in bounds, at the chip and local column of the cursor (R236):
every byte of the display, the cursor, and nothing else. -/
def Obligations.ColumnWriteSetsItsPixels : Prop :=
  ∀ (s : State) (b : Byte), s.display.wf = true → s.cursorX.toNat ≤ s.cfg.displayRight →
    s.cursorY.toNat ≤ s.cfg.displayBottom →
    ∃ t chip lx, exec (.colWr b) s = .next t ∧ OnlyPixels s t ∧ t.result = 0 ∧
      t.cursorX = s.cursorX + 1 ∧ t.cursorY = s.cursorY ∧
      resolveChip s.cfg s.cursorX.toNat = some (chip, lx) ∧
      (let y := s.cursorY.toNat
       let off := y % 8
       let old := fun page => s.display.cell chip page lx
       let new := fun page => t.display.cell chip page lx
       (off = 0 → new (y / 8) = b) ∧
       (off ≠ 0 → new (y / 8) = old (y / 8) ||| BitVec.ofNat 8 (b.toNat * 2 ^ off)) ∧
       (off ≠ 0 → y + 8 ≤ s.cfg.displayBottom →
         new (y / 8 + 1) = old (y / 8 + 1) ||| BitVec.ofNat 8 (b.toNat / 2 ^ (8 - off))) ∧
       (∀ chip' page lx', lx' < 4096 → (chip', page, lx') ≠ (chip, y / 8, lx) →
         ¬(off ≠ 0 ∧ y + 8 ≤ s.cfg.displayBottom ∧ (chip', page, lx') = (chip, y / 8 + 1, lx)) →
         t.display.cell chip' page lx' = s.display.cell chip' page lx'))

/-- R240: the transactions of a column write, with their addresses and bytes: none with the cursor out of bounds. -/
def Obligations.ColumnWriteTransactions : Prop :=
  (∀ (s t : State) (b : Byte), s.cfg.displayRight < s.cursorX.toNat ∨ s.cfg.displayBottom < s.cursorY.toNat →
    exec (.colWr b) s = .next t → t.dlog = s.dlog) ∧
  ∀ (s t : State) (b : Byte) (chip : ChipId) (lx : Nat), s.cursorX.toNat ≤ s.cfg.displayRight →
    s.cursorY.toNat ≤ s.cfg.displayBottom → resolveChip s.cfg s.cursorX.toNat = some (chip, lx) →
    exec (.colWr b) s = .next t →
      (let y := s.cursorY.toNat
       let p := y / 8
       let off := y % 8
       let v1 := s.display.cell chip p lx
       let v2 := s.display.cell chip (p + 1) lx
       let w1 := v1 ||| BitVec.ofNat 8 (b.toNat * 2 ^ off)
       let w2 := v2 ||| BitVec.ofNat 8 (b.toNat / 2 ^ (8 - off))
       (off = 0 → t.dlog = s.dlog ++ [.wr chip p lx b]) ∧
       (off ≠ 0 → y + 8 ≤ s.cfg.displayBottom →
         t.dlog = s.dlog ++ [.rd chip p lx v1, .wr chip p lx w1, .rd chip (p + 1) lx v2, .wr chip (p + 1) lx w2]) ∧
       (off ≠ 0 → s.cfg.displayBottom < y + 8 → t.dlog = s.dlog ++ [.rd chip p lx v1, .wr chip p lx w1]))

/-- R66: DLOG records what happened: every operation appends transactions whose reads return what the display then holds
and whose writes lead from the display before to the display after. -/
def Obligations.LogReplaysToTheDisplay : Prop :=
  ∀ (i : Instr) (s t : State), exec i s = .next t →
    ∃ log, t.dlog = s.dlog ++ log ∧ replay log s.display = some t.display

/-- R67: only COL.WR and PUTC issue display transactions, and every transaction's address is in range. -/
def Obligations.OnlyPixelOperationsReachTheDisplay : Prop :=
  ∀ (i : Instr) (s t : State), exec i s = .next t →
    ((∀ b, i ≠ .colWr b ∧ i ≠ .putc b) → t.display = s.display ∧ t.dlog = s.dlog) ∧
    (s.cfg.wf = true → ∃ log, t.dlog = s.dlog ++ log ∧ ∀ tr ∈ log, tr.inRange s.cfg = true)

/-! ### Fonts and glyphs -/

/-- R195, R196: FONT.SET stores the base of the active font unchecked, FONT.RD returns it, and no other operation writes
it. -/
def Obligations.FontBaseIsSetAndRead : Prop :=
  (∀ (i : Instr) (s t : State), exec i s = .next t → t.fontBase ≠ s.fontBase → ∃ a, i = .fontSet a) ∧
  ∀ (s : State),
    (∀ addr : FontAddr, exec (.fontSet addr) s =
      .next { s with fontBase := addr, result := 0, hostLog := s.hostLog ++ [0] }) ∧
    ∃ t, exec .fontRd s = .next t ∧ OnlyResult s t ∧ t.result.toNat = s.fontBase.toNat

/-- R193, R197, R198: a glyph of a fixed-width font. -/
def Obligations.FixedWidthGlyphIsLocated : Prop :=
  ∀ (s : State) (code : Byte),
    let F := s.fontBase.toNat
    let FW := romByte s.cfg (F + 2)
    F + 5 < s.cfg.fontRomSize → inFontRange s.cfg F code → FW ≠ 0 →
    (∃ t, exec (.glyphInfo code) s = .next t ∧ OnlyResult s t ∧
      t.result.toNat = 2 ^ 31 + romPages s.cfg F * 2 ^ 8 + FW) ∧
    (∃ t, exec (.glyphOff code) s = .next t ∧ OnlyResult s t ∧
      t.result.toNat = 2 ^ 31 + ((code.toNat - romByte s.cfg (F + 4)) * romPages s.cfg F * FW + 6))

/-- R194, R197, R198: a glyph of a variable-width font. -/
def Obligations.VariableWidthGlyphIsLocated : Prop :=
  ∀ (s : State) (code : Byte),
    let F := s.fontBase.toNat
    let i := code.toNat - romByte s.cfg (F + 4)
    let N := romByte s.cfg (F + 5) - romByte s.cfg (F + 4) + 1
    F + 6 + i < s.cfg.fontRomSize → inFontRange s.cfg F code → romByte s.cfg (F + 2) = 0 →
    (∃ t, exec (.glyphInfo code) s = .next t ∧ OnlyResult s t ∧
      t.result.toNat = 2 ^ 31 + romPages s.cfg F * 2 ^ 8 + romByte s.cfg (F + 6 + i)) ∧
    (∃ t, exec (.glyphOff code) s = .next t ∧ OnlyResult s t ∧
      t.result.toNat = 2 ^ 31 +
        (((List.range i).map (fun k => romByte s.cfg (F + 6 + k))).sum * romPages s.cfg F + N + 6))

/-- E5 of R271: a code outside the font's range is not found, and the result is 0. -/
def Obligations.CodeOutsideTheFontIsNotFound : Prop :=
  ∀ (s : State) (code : Byte), s.fontBase.toNat + 5 < s.cfg.fontRomSize → ¬inFontRange s.cfg s.fontBase.toNat code →
    exec (.glyphInfo code) s = .next { s with result := 0, hostLog := s.hostLog ++ [0] } ∧
    exec (.glyphOff code) s = .next { s with result := 0, hostLog := s.hostLog ++ [0] }

/-- E14: an operation that needs a header or width byte at or beyond FONT_ROM_SIZE stops the model with a fault, as R62 and
U1 say a model does; the order of the reads is the model's reading (assumption log 5). -/
def Obligations.FontReadBeyondTheRomFaults : Prop :=
  ∀ (s : State) (code : Byte) (i : Instr),
    i = .glyphInfo code ∨ i = .glyphOff code ∨ (i = .putc code ∧ s.mayPut code) →
    (let F := s.fontBase.toNat
     s.cfg.fontRomSize ≤ F + 5 ∨
       (inFontRange s.cfg F code ∧ romByte s.cfg (F + 2) = 0 ∧
        s.cfg.fontRomSize ≤ F + 6 + (code.toNat - romByte s.cfg (F + 4)))) →
    ∃ a, s.cfg.fontRomSize ≤ a ∧ exec i s = .fault (.fontReadOutOfRom a)

/-- R200: the three cases in which PUTC does nothing. -/
def Obligations.PutcNoOpCases : Prop :=
  ∀ (s : State) (code : Byte),
    (s.cfg.displayRight < s.cursorX.toNat ∨ s.cfg.displayBottom < s.cursorY.toNat) ∨
    code.toNat < s.cfg.minPrintable.toNat ∨
    (s.fontBase.toNat + 5 < s.cfg.fontRomSize ∧ ¬inFontRange s.cfg s.fontBase.toNat code) →
    exec (.putc code) s = .next { s with result := 0, hostLog := s.hostLog ++ [0] }

/-- R201, R203: a PUTC of a located glyph whose streamed bytes are in the ROM completes: the cursor ends at
(x0 + w + GLYPH_SPACING, y0), and only the pixels have changed. With a streamed byte beyond the ROM it faults, as R62 and U1
say a model does: that the bytes are read in pseudocode order, and those of clipped columns as well, is the model's reading
(assumption logs 5 and 14). -/
def Obligations.PutcDrawsAndAdvances : Prop :=
  ∀ (s : State) (code : Byte) (g : Glyph), s.cfg.wf = true → s.mayPut code →
    locateGlyph s.cfg s.fontBase.toNat code.toNat = .ok (some g) →
    (s.glyphInRom g → ∃ t, exec (.putc code) s = .next t ∧ OnlyPixels s t ∧ t.result = 0 ∧
      t.cursorX.toNat = s.cursorX.toNat + g.width + s.cfg.glyphSpacing.toNat ∧ t.cursorY = s.cursorY) ∧
    (¬s.glyphInRom g → ∃ a, s.cfg.fontRomSize ≤ a ∧ exec (.putc code) s = .fault (.fontReadOutOfRom a))

/-- R199, R201, R233: at a page-aligned row, PUTC replaces the page bytes under the glyph's columns in bounds by the glyph's
bytes, and no other byte of the display changes. -/
def Obligations.PutcDrawsAnAlignedGlyph : Prop :=
  ∀ (s t : State) (code : Byte) (g : Glyph), s.cfg.wf = true → s.display.wf = true → s.mayPut code →
    locateGlyph s.cfg s.fontBase.toNat code.toNat = .ok (some g) → s.cursorY.toNat % 8 = 0 →
    exec (.putc code) s = .next t →
    (∀ p c chip lx, p < g.pages → c < g.width → s.cursorY.toNat + 8 * p ≤ s.cfg.displayBottom →
      s.cursorX.toNat + c ≤ s.cfg.displayRight → resolveChip s.cfg (s.cursorX.toNat + c) = some (chip, lx) →
      t.display.cell chip (s.cursorY.toNat / 8 + p) lx = s.glyphByte g p c) ∧
    (∀ chip page lx, lx < 4096 →
      (∀ p c, p < g.pages → c < g.width → s.cursorX.toNat + c ≤ s.cfg.displayRight →
        ¬(page = s.cursorY.toNat / 8 + p ∧ page < s.cfg.pages ∧
          resolveChip s.cfg (s.cursorX.toNat + c) = some (chip, lx))) →
      t.display.cell chip page lx = s.display.cell chip page lx)

/-- R201, R234: at any other row, PUTC sets the pixels of the glyph's set bits that are on the display and clears none, and
no byte changes outside the two pages under each page of the glyph's columns in bounds. -/
def Obligations.PutcMergesAnUnalignedGlyph : Prop :=
  ∀ (s t : State) (code : Byte) (g : Glyph), s.cfg.wf = true → s.display.wf = true → s.mayPut code →
    locateGlyph s.cfg s.fontBase.toNat code.toNat = .ok (some g) → s.cursorY.toNat % 8 ≠ 0 →
    exec (.putc code) s = .next t →
    (∀ X Y, X ≤ s.cfg.displayRight → Y ≤ s.cfg.displayBottom →
      (t.pixel X Y = true ↔ s.pixel X Y = true ∨
        ∃ p c i, p < g.pages ∧ c < g.width ∧ i < 8 ∧ X = s.cursorX.toNat + c ∧ Y = s.cursorY.toNat + 8 * p + i ∧
          (s.glyphByte g p c).getLsbD i = true)) ∧
    (∀ chip page lx, lx < 4096 →
      (∀ p c, p < g.pages → c < g.width → s.cursorX.toNat + c ≤ s.cfg.displayRight →
        ¬((page = s.cursorY.toNat / 8 + p ∨ page = s.cursorY.toNat / 8 + p + 1) ∧ page < s.cfg.pages ∧
          resolveChip s.cfg (s.cursorX.toNat + c) = some (chip, lx))) →
      t.display.cell chip page lx = s.display.cell chip page lx)

/-- R205: how many reads and writes a PUTC that draws issues. -/
def Obligations.PutcTransactionCount : Prop :=
  ∀ (s t : State) (code : Byte) (g : Glyph), s.cfg.wf = true → s.mayPut code →
    locateGlyph s.cfg s.fontBase.toNat code.toNat = .ok (some g) → exec (.putc code) s = .next t →
    ∃ log, t.dlog = s.dlog ++ log ∧
      (let y0 := s.cursorY.toNat
       let cols := inBoundsColumns s.cfg s.cursorX.toNat g.width
       let pages := (List.range g.pages).filter (fun p => decide (y0 + 8 * p ≤ s.cfg.displayBottom))
       let reads := fun p => if y0 % 8 = 0 then 0 else if y0 + 8 * p + 8 ≤ s.cfg.displayBottom then 2 else 1
       let writes := fun p => if y0 % 8 = 0 then 1 else if y0 + 8 * p + 8 ≤ s.cfg.displayBottom then 2 else 1
       log.countP Transaction.isRead = (pages.map (fun p => cols * reads p)).sum ∧
       log.countP (fun tr => !tr.isRead) = (pages.map (fun p => cols * writes p)).sum)

/-- R199, R78, R240: the transactions of a PUTC that draws, in their order: the streamed pages from the top down (R202), in
each page the columns from the left to the right, with every address and every byte read or written. -/
def Obligations.PutcTransactionsInOrder : Prop :=
  ∀ (s t : State) (code : Byte) (g : Glyph), s.cfg.wf = true → s.display.wf = true → s.mayPut code →
    locateGlyph s.cfg s.fontBase.toNat code.toNat = .ok (some g) → exec (.putc code) s = .next t →
    t.dlog = s.dlog ++ (List.range (streamedPages s.cfg s.cursorY.toNat g.pages)).flatMap (fun p =>
      (List.range g.width).flatMap (fun c => s.glyphTransactions g p c))

/-! ### The whole machine -/

/-- The invariant holds at power-on, for all parameters that meet R9 and every display, and so it does at reset. -/
def Obligations.PowerOnMeetsTheInvariant : Prop :=
  (∀ (c : Config) (d : Display) (idle : Bool), c.wf = true → d.wf = true → d.cellsExist c = true →
    (State.powerOn c d idle).Inv) ∧
  State.reset.Inv

/-- The invariant is kept by every step: R27, the REMAINING, BUS_DISABLED and snapshot clauses of R40, R67, the constraints
of R9, and the canonical form of the display memory. -/
def Obligations.EveryStepKeepsTheInvariant : Prop :=
  ∀ (s t : State), s.Inv → step s = .next t → t.Inv

/-- R66, as an invariant of the step: while DLOG replays from some display to the present one, so it does after every step
but a Display Controller event. That DLOG stays across a block reset and that the controller's events are not in it is the
model's (assumption logs 6 and 9). -/
def Obligations.EveryStepKeepsTheLogReplay : Prop :=
  ∀ (start : Display) (s t : State), (∀ chip page lx v, s.inputs.head? ≠ some (.controllerWrite chip page lx v)) →
    replay s.dlog start = some s.display → step s = .next t → replay t.dlog start = some t.display

/-- R40: CURSOR_Y changes only by CUR.SET, and CURSOR_X never passes the larger of its last value and
DISPLAY_RIGHT + 255 + GLYPH_SPACING but by CUR.SET. -/
def Obligations.CursorStaysInItsBounds : Prop :=
  ∀ (i : Instr) (s t : State), s.cfg.wf = true → exec i s = .next t → (∀ x y, i ≠ .curSet x y) →
    t.cursorY = s.cursorY ∧
    t.cursorX.toNat ≤ max s.cursorX.toNat (s.cfg.displayRight + 255 + s.cfg.glyphSpacing.toNat) ∧
    (t.cursorX ≠ s.cursorX → s.cursorX.toNat ≤ s.cfg.displayRight)

/-- R270: no operation stops, in any state that keeps R27, but an operation that reads the font ROM beyond its end (E14). -/
def Obligations.EveryOperationCompletes : Prop :=
  ∀ (i : Instr) (s : State), s.burstOk = true →
    (i.readsFont = false → ∃ t, exec i s = .next t) ∧
    (i.readsFont = true → (∃ t, exec i s = .next t) ∨
      ∃ a, s.cfg.fontRomSize ≤ a ∧ exec i s = .fault (.fontReadOutOfRom a))

/-- R75: a producer step commutes with every consumer step but FS.READY, FS.RESET, FS.CAPTURE, REG.RD and STATUS. -/
def Obligations.ProducerCommutesWithConsumer : Prop :=
  ∀ (b h : Instr) (s : State), s.burstOk = true → b.isBus = true → h.isBus = false → h.sharesWithProducer = false →
    execBoth b h s = execBoth h b s

/-- R37, R79: no operation changes the parameters, the font ROM among them, the BUS_IDLE level or the events to come; and
no step changes the parameters. -/
def Obligations.ParametersNeverChange : Prop :=
  (∀ (i : Instr) (s t : State), exec i s = .next t →
    t.cfg = s.cfg ∧ t.busIdle = s.busIdle ∧ t.inputs = s.inputs) ∧
  (∀ (s t : State), step s = .next t → t.cfg = s.cfg)
end

