-- ==== Sys2Proof/Laws/State.lean ====
section
/-! SUPPORT. Sys2Proof/Laws/State.lean: one lemma for each field of State after each named update. -/

namespace Sys2Proof.Machine

@[simp] theorem withResult_cfg (v : HostWord) (s : State) : (withResult v s).cfg = s.cfg := rfl
@[simp] theorem withResult_inputs (v : HostWord) (s : State) : (withResult v s).inputs = s.inputs := rfl
@[simp] theorem withResult_busIdle (v : HostWord) (s : State) : (withResult v s).busIdle = s.busIdle := rfl
@[simp] theorem withResult_live (v : HostWord) (s : State) : (withResult v s).live = s.live := rfl
@[simp] theorem withResult_valid (v : HostWord) (s : State) : (withResult v s).valid = s.valid := rfl
@[simp] theorem withResult_active (v : HostWord) (s : State) : (withResult v s).active = s.active := rfl
@[simp] theorem withResult_remaining (v : HostWord) (s : State) : (withResult v s).remaining = s.remaining := rfl
@[simp] theorem withResult_busDisabled (v : HostWord) (s : State) : (withResult v s).busDisabled = s.busDisabled := rfl
@[simp] theorem withResult_cursorX (v : HostWord) (s : State) : (withResult v s).cursorX = s.cursorX := rfl
@[simp] theorem withResult_cursorY (v : HostWord) (s : State) : (withResult v s).cursorY = s.cursorY := rfl
@[simp] theorem withResult_fontBase (v : HostWord) (s : State) : (withResult v s).fontBase = s.fontBase := rfl
@[simp] theorem withResult_snap (v : HostWord) (s : State) : (withResult v s).snap = s.snap := rfl
@[simp] theorem withResult_snapValid (v : HostWord) (s : State) : (withResult v s).snapValid = s.snapValid := rfl
@[simp] theorem withResult_badop (v : HostWord) (s : State) : (withResult v s).badop = s.badop := rfl
@[simp] theorem withResult_result (v : HostWord) (s : State) : (withResult v s).result = v := rfl
@[simp] theorem withResult_display (v : HostWord) (s : State) : (withResult v s).display = s.display := rfl
@[simp] theorem withResult_dlog (v : HostWord) (s : State) : (withResult v s).dlog = s.dlog := rfl
@[simp] theorem withResult_hostLog (v : HostWord) (s : State) : (withResult v s).hostLog = s.hostLog ++ [v] := rfl

@[simp] theorem badop_cfg (s : State) : (badop s).cfg = s.cfg := rfl
@[simp] theorem badop_inputs (s : State) : (badop s).inputs = s.inputs := rfl
@[simp] theorem badop_busIdle (s : State) : (badop s).busIdle = s.busIdle := rfl
@[simp] theorem badop_live (s : State) : (badop s).live = s.live := rfl
@[simp] theorem badop_valid (s : State) : (badop s).valid = s.valid := rfl
@[simp] theorem badop_active (s : State) : (badop s).active = s.active := rfl
@[simp] theorem badop_remaining (s : State) : (badop s).remaining = s.remaining := rfl
@[simp] theorem badop_busDisabled (s : State) : (badop s).busDisabled = s.busDisabled := rfl
@[simp] theorem badop_cursorX (s : State) : (badop s).cursorX = s.cursorX := rfl
@[simp] theorem badop_cursorY (s : State) : (badop s).cursorY = s.cursorY := rfl
@[simp] theorem badop_fontBase (s : State) : (badop s).fontBase = s.fontBase := rfl
@[simp] theorem badop_snap (s : State) : (badop s).snap = s.snap := rfl
@[simp] theorem badop_snapValid (s : State) : (badop s).snapValid = s.snapValid := rfl
@[simp] theorem badop_badop (s : State) : (badop s).badop = true := rfl
@[simp] theorem badop_result (s : State) : (badop s).result = 0 := rfl
@[simp] theorem badop_display (s : State) : (badop s).display = s.display := rfl
@[simp] theorem badop_dlog (s : State) : (badop s).dlog = s.dlog := rfl
@[simp] theorem badop_hostLog (s : State) : (badop s).hostLog = s.hostLog ++ [0] := rfl

@[simp] theorem setCursor_cfg (x y : Nat) (s : State) : (setCursor x y s).cfg = s.cfg := rfl
@[simp] theorem setCursor_inputs (x y : Nat) (s : State) : (setCursor x y s).inputs = s.inputs := rfl
@[simp] theorem setCursor_busIdle (x y : Nat) (s : State) : (setCursor x y s).busIdle = s.busIdle := rfl
@[simp] theorem setCursor_live (x y : Nat) (s : State) : (setCursor x y s).live = s.live := rfl
@[simp] theorem setCursor_valid (x y : Nat) (s : State) : (setCursor x y s).valid = s.valid := rfl
@[simp] theorem setCursor_active (x y : Nat) (s : State) : (setCursor x y s).active = s.active := rfl
@[simp] theorem setCursor_remaining (x y : Nat) (s : State) : (setCursor x y s).remaining = s.remaining := rfl
@[simp] theorem setCursor_busDisabled (x y : Nat) (s : State) : (setCursor x y s).busDisabled = s.busDisabled := rfl
@[simp] theorem setCursor_cursorX (x y : Nat) (s : State) : (setCursor x y s).cursorX = BitVec.ofNat 12 x := rfl
@[simp] theorem setCursor_cursorY (x y : Nat) (s : State) : (setCursor x y s).cursorY = BitVec.ofNat 12 y := rfl
@[simp] theorem setCursor_fontBase (x y : Nat) (s : State) : (setCursor x y s).fontBase = s.fontBase := rfl
@[simp] theorem setCursor_snap (x y : Nat) (s : State) : (setCursor x y s).snap = s.snap := rfl
@[simp] theorem setCursor_snapValid (x y : Nat) (s : State) : (setCursor x y s).snapValid = s.snapValid := rfl
@[simp] theorem setCursor_badop (x y : Nat) (s : State) : (setCursor x y s).badop = s.badop := rfl
@[simp] theorem setCursor_result (x y : Nat) (s : State) : (setCursor x y s).result = s.result := rfl
@[simp] theorem setCursor_display (x y : Nat) (s : State) : (setCursor x y s).display = s.display := rfl
@[simp] theorem setCursor_dlog (x y : Nat) (s : State) : (setCursor x y s).dlog = s.dlog := rfl
@[simp] theorem setCursor_hostLog (x y : Nat) (s : State) : (setCursor x y s).hostLog = s.hostLog := rfl

@[simp] theorem dispWrite_cfg (chip : ChipId) (p lx : Nat) (v : Byte) (s : State) : (dispWrite chip p lx v s).cfg = s.cfg := rfl
@[simp] theorem dispWrite_inputs (chip : ChipId) (p lx : Nat) (v : Byte) (s : State) : (dispWrite chip p lx v s).inputs = s.inputs := rfl
@[simp] theorem dispWrite_busIdle (chip : ChipId) (p lx : Nat) (v : Byte) (s : State) : (dispWrite chip p lx v s).busIdle = s.busIdle := rfl
@[simp] theorem dispWrite_live (chip : ChipId) (p lx : Nat) (v : Byte) (s : State) : (dispWrite chip p lx v s).live = s.live := rfl
@[simp] theorem dispWrite_valid (chip : ChipId) (p lx : Nat) (v : Byte) (s : State) : (dispWrite chip p lx v s).valid = s.valid := rfl
@[simp] theorem dispWrite_active (chip : ChipId) (p lx : Nat) (v : Byte) (s : State) : (dispWrite chip p lx v s).active = s.active := rfl
@[simp] theorem dispWrite_remaining (chip : ChipId) (p lx : Nat) (v : Byte) (s : State) : (dispWrite chip p lx v s).remaining = s.remaining := rfl
@[simp] theorem dispWrite_busDisabled (chip : ChipId) (p lx : Nat) (v : Byte) (s : State) : (dispWrite chip p lx v s).busDisabled = s.busDisabled := rfl
@[simp] theorem dispWrite_cursorX (chip : ChipId) (p lx : Nat) (v : Byte) (s : State) : (dispWrite chip p lx v s).cursorX = s.cursorX := rfl
@[simp] theorem dispWrite_cursorY (chip : ChipId) (p lx : Nat) (v : Byte) (s : State) : (dispWrite chip p lx v s).cursorY = s.cursorY := rfl
@[simp] theorem dispWrite_fontBase (chip : ChipId) (p lx : Nat) (v : Byte) (s : State) : (dispWrite chip p lx v s).fontBase = s.fontBase := rfl
@[simp] theorem dispWrite_snap (chip : ChipId) (p lx : Nat) (v : Byte) (s : State) : (dispWrite chip p lx v s).snap = s.snap := rfl
@[simp] theorem dispWrite_snapValid (chip : ChipId) (p lx : Nat) (v : Byte) (s : State) : (dispWrite chip p lx v s).snapValid = s.snapValid := rfl
@[simp] theorem dispWrite_badop (chip : ChipId) (p lx : Nat) (v : Byte) (s : State) : (dispWrite chip p lx v s).badop = s.badop := rfl
@[simp] theorem dispWrite_result (chip : ChipId) (p lx : Nat) (v : Byte) (s : State) : (dispWrite chip p lx v s).result = s.result := rfl
@[simp] theorem dispWrite_display (chip : ChipId) (p lx : Nat) (v : Byte) (s : State) : (dispWrite chip p lx v s).display = s.display.setCell chip p lx v := rfl
@[simp] theorem dispWrite_dlog (chip : ChipId) (p lx : Nat) (v : Byte) (s : State) : (dispWrite chip p lx v s).dlog = s.dlog ++ [.wr chip p lx v] := rfl
@[simp] theorem dispWrite_hostLog (chip : ChipId) (p lx : Nat) (v : Byte) (s : State) : (dispWrite chip p lx v s).hostLog = s.hostLog := rfl

@[simp] theorem mergeCell_cfg (chip : ChipId) (p lx : Nat) (v : Byte) (s : State) : (mergeCell chip p lx v s).cfg = s.cfg := rfl
@[simp] theorem mergeCell_inputs (chip : ChipId) (p lx : Nat) (v : Byte) (s : State) : (mergeCell chip p lx v s).inputs = s.inputs := rfl
@[simp] theorem mergeCell_busIdle (chip : ChipId) (p lx : Nat) (v : Byte) (s : State) : (mergeCell chip p lx v s).busIdle = s.busIdle := rfl
@[simp] theorem mergeCell_live (chip : ChipId) (p lx : Nat) (v : Byte) (s : State) : (mergeCell chip p lx v s).live = s.live := rfl
@[simp] theorem mergeCell_valid (chip : ChipId) (p lx : Nat) (v : Byte) (s : State) : (mergeCell chip p lx v s).valid = s.valid := rfl
@[simp] theorem mergeCell_active (chip : ChipId) (p lx : Nat) (v : Byte) (s : State) : (mergeCell chip p lx v s).active = s.active := rfl
@[simp] theorem mergeCell_remaining (chip : ChipId) (p lx : Nat) (v : Byte) (s : State) : (mergeCell chip p lx v s).remaining = s.remaining := rfl
@[simp] theorem mergeCell_busDisabled (chip : ChipId) (p lx : Nat) (v : Byte) (s : State) : (mergeCell chip p lx v s).busDisabled = s.busDisabled := rfl
@[simp] theorem mergeCell_cursorX (chip : ChipId) (p lx : Nat) (v : Byte) (s : State) : (mergeCell chip p lx v s).cursorX = s.cursorX := rfl
@[simp] theorem mergeCell_cursorY (chip : ChipId) (p lx : Nat) (v : Byte) (s : State) : (mergeCell chip p lx v s).cursorY = s.cursorY := rfl
@[simp] theorem mergeCell_fontBase (chip : ChipId) (p lx : Nat) (v : Byte) (s : State) : (mergeCell chip p lx v s).fontBase = s.fontBase := rfl
@[simp] theorem mergeCell_snap (chip : ChipId) (p lx : Nat) (v : Byte) (s : State) : (mergeCell chip p lx v s).snap = s.snap := rfl
@[simp] theorem mergeCell_snapValid (chip : ChipId) (p lx : Nat) (v : Byte) (s : State) : (mergeCell chip p lx v s).snapValid = s.snapValid := rfl
@[simp] theorem mergeCell_badop (chip : ChipId) (p lx : Nat) (v : Byte) (s : State) : (mergeCell chip p lx v s).badop = s.badop := rfl
@[simp] theorem mergeCell_result (chip : ChipId) (p lx : Nat) (v : Byte) (s : State) : (mergeCell chip p lx v s).result = s.result := rfl
@[simp] theorem mergeCell_display (chip : ChipId) (p lx : Nat) (v : Byte) (s : State) : (mergeCell chip p lx v s).display = s.display.setCell chip p lx (s.display.cell chip p lx ||| v) := rfl
@[simp] theorem mergeCell_dlog (chip : ChipId) (p lx : Nat) (v : Byte) (s : State) : (mergeCell chip p lx v s).dlog = s.dlog ++ [.rd chip p lx (s.display.cell chip p lx)] ++ [.wr chip p lx (s.display.cell chip p lx ||| v)] := rfl
@[simp] theorem mergeCell_hostLog (chip : ChipId) (p lx : Nat) (v : Byte) (s : State) : (mergeCell chip p lx v s).hostLog = s.hostLog := rfl

@[simp] theorem advanceColumn_cfg (s : State) : (advanceColumn s).cfg = s.cfg := rfl
@[simp] theorem advanceColumn_inputs (s : State) : (advanceColumn s).inputs = s.inputs := rfl
@[simp] theorem advanceColumn_busIdle (s : State) : (advanceColumn s).busIdle = s.busIdle := rfl
@[simp] theorem advanceColumn_live (s : State) : (advanceColumn s).live = s.live := rfl
@[simp] theorem advanceColumn_valid (s : State) : (advanceColumn s).valid = s.valid := rfl
@[simp] theorem advanceColumn_active (s : State) : (advanceColumn s).active = s.active := rfl
@[simp] theorem advanceColumn_remaining (s : State) : (advanceColumn s).remaining = s.remaining := rfl
@[simp] theorem advanceColumn_busDisabled (s : State) : (advanceColumn s).busDisabled = s.busDisabled := rfl
@[simp] theorem advanceColumn_cursorX (s : State) : (advanceColumn s).cursorX = BitVec.ofNat 12 (s.cursorX.toNat + 1) := rfl
@[simp] theorem advanceColumn_cursorY (s : State) : (advanceColumn s).cursorY = s.cursorY := rfl
@[simp] theorem advanceColumn_fontBase (s : State) : (advanceColumn s).fontBase = s.fontBase := rfl
@[simp] theorem advanceColumn_snap (s : State) : (advanceColumn s).snap = s.snap := rfl
@[simp] theorem advanceColumn_snapValid (s : State) : (advanceColumn s).snapValid = s.snapValid := rfl
@[simp] theorem advanceColumn_badop (s : State) : (advanceColumn s).badop = s.badop := rfl
@[simp] theorem advanceColumn_result (s : State) : (advanceColumn s).result = s.result := rfl
@[simp] theorem advanceColumn_display (s : State) : (advanceColumn s).display = s.display := rfl
@[simp] theorem advanceColumn_dlog (s : State) : (advanceColumn s).dlog = s.dlog := rfl
@[simp] theorem advanceColumn_hostLog (s : State) : (advanceColumn s).hostLog = s.hostLog := rfl

@[simp] theorem clearFrameSet_cfg (s : State) : (clearFrameSet s).cfg = s.cfg := rfl
@[simp] theorem clearFrameSet_inputs (s : State) : (clearFrameSet s).inputs = s.inputs := rfl
@[simp] theorem clearFrameSet_busIdle (s : State) : (clearFrameSet s).busIdle = s.busIdle := rfl
@[simp] theorem clearFrameSet_live (s : State) : (clearFrameSet s).live = Buffers.zero := rfl
@[simp] theorem clearFrameSet_valid (s : State) : (clearFrameSet s).valid = ValidFlags.none := rfl
@[simp] theorem clearFrameSet_active (s : State) : (clearFrameSet s).active = s.active := rfl
@[simp] theorem clearFrameSet_remaining (s : State) : (clearFrameSet s).remaining = s.remaining := rfl
@[simp] theorem clearFrameSet_busDisabled (s : State) : (clearFrameSet s).busDisabled = s.busDisabled := rfl
@[simp] theorem clearFrameSet_cursorX (s : State) : (clearFrameSet s).cursorX = s.cursorX := rfl
@[simp] theorem clearFrameSet_cursorY (s : State) : (clearFrameSet s).cursorY = s.cursorY := rfl
@[simp] theorem clearFrameSet_fontBase (s : State) : (clearFrameSet s).fontBase = s.fontBase := rfl
@[simp] theorem clearFrameSet_snap (s : State) : (clearFrameSet s).snap = s.snap := rfl
@[simp] theorem clearFrameSet_snapValid (s : State) : (clearFrameSet s).snapValid = s.snapValid := rfl
@[simp] theorem clearFrameSet_badop (s : State) : (clearFrameSet s).badop = s.badop := rfl
@[simp] theorem clearFrameSet_result (s : State) : (clearFrameSet s).result = s.result := rfl
@[simp] theorem clearFrameSet_display (s : State) : (clearFrameSet s).display = s.display := rfl
@[simp] theorem clearFrameSet_dlog (s : State) : (clearFrameSet s).dlog = s.dlog := rfl
@[simp] theorem clearFrameSet_hostLog (s : State) : (clearFrameSet s).hostLog = s.hostLog := rfl

@[simp] theorem selectTarget_cfg (r : Option RegId) (n : BitVec 3) (s : State) : (selectTarget r n s).cfg = s.cfg := rfl
@[simp] theorem selectTarget_inputs (r : Option RegId) (n : BitVec 3) (s : State) : (selectTarget r n s).inputs = s.inputs := rfl
@[simp] theorem selectTarget_busIdle (r : Option RegId) (n : BitVec 3) (s : State) : (selectTarget r n s).busIdle = s.busIdle := rfl
@[simp] theorem selectTarget_live (r : Option RegId) (n : BitVec 3) (s : State) : (selectTarget r n s).live = s.live := rfl
@[simp] theorem selectTarget_valid (r : Option RegId) (n : BitVec 3) (s : State) : (selectTarget r n s).valid = s.valid := rfl
@[simp] theorem selectTarget_active (r : Option RegId) (n : BitVec 3) (s : State) : (selectTarget r n s).active = r := rfl
@[simp] theorem selectTarget_remaining (r : Option RegId) (n : BitVec 3) (s : State) : (selectTarget r n s).remaining = n := rfl
@[simp] theorem selectTarget_busDisabled (r : Option RegId) (n : BitVec 3) (s : State) : (selectTarget r n s).busDisabled = false := rfl
@[simp] theorem selectTarget_cursorX (r : Option RegId) (n : BitVec 3) (s : State) : (selectTarget r n s).cursorX = s.cursorX := rfl
@[simp] theorem selectTarget_cursorY (r : Option RegId) (n : BitVec 3) (s : State) : (selectTarget r n s).cursorY = s.cursorY := rfl
@[simp] theorem selectTarget_fontBase (r : Option RegId) (n : BitVec 3) (s : State) : (selectTarget r n s).fontBase = s.fontBase := rfl
@[simp] theorem selectTarget_snap (r : Option RegId) (n : BitVec 3) (s : State) : (selectTarget r n s).snap = s.snap := rfl
@[simp] theorem selectTarget_snapValid (r : Option RegId) (n : BitVec 3) (s : State) : (selectTarget r n s).snapValid = s.snapValid := rfl
@[simp] theorem selectTarget_badop (r : Option RegId) (n : BitVec 3) (s : State) : (selectTarget r n s).badop = s.badop := rfl
@[simp] theorem selectTarget_result (r : Option RegId) (n : BitVec 3) (s : State) : (selectTarget r n s).result = s.result := rfl
@[simp] theorem selectTarget_display (r : Option RegId) (n : BitVec 3) (s : State) : (selectTarget r n s).display = s.display := rfl
@[simp] theorem selectTarget_dlog (r : Option RegId) (n : BitVec 3) (s : State) : (selectTarget r n s).dlog = s.dlog := rfl
@[simp] theorem selectTarget_hostLog (r : Option RegId) (n : BitVec 3) (s : State) : (selectTarget r n s).hostLog = s.hostLog := rfl

@[simp] theorem storeBurstByte_cfg (r : RegId) (v : Byte) (s : State) : (storeBurstByte r v s).cfg = s.cfg := rfl
@[simp] theorem storeBurstByte_inputs (r : RegId) (v : Byte) (s : State) : (storeBurstByte r v s).inputs = s.inputs := rfl
@[simp] theorem storeBurstByte_busIdle (r : RegId) (v : Byte) (s : State) : (storeBurstByte r v s).busIdle = s.busIdle := rfl
@[simp] theorem storeBurstByte_live (r : RegId) (v : Byte) (s : State) : (storeBurstByte r v s).live = s.live.setByte r (s.remaining - 1).toNat v := rfl
@[simp] theorem storeBurstByte_valid (r : RegId) (v : Byte) (s : State) : (storeBurstByte r v s).valid = if s.remaining - 1 = 0 then s.valid.mark r else s.valid := rfl
@[simp] theorem storeBurstByte_active (r : RegId) (v : Byte) (s : State) : (storeBurstByte r v s).active = s.active := rfl
@[simp] theorem storeBurstByte_remaining (r : RegId) (v : Byte) (s : State) : (storeBurstByte r v s).remaining = s.remaining - 1 := rfl
@[simp] theorem storeBurstByte_busDisabled (r : RegId) (v : Byte) (s : State) : (storeBurstByte r v s).busDisabled = s.busDisabled := rfl
@[simp] theorem storeBurstByte_cursorX (r : RegId) (v : Byte) (s : State) : (storeBurstByte r v s).cursorX = s.cursorX := rfl
@[simp] theorem storeBurstByte_cursorY (r : RegId) (v : Byte) (s : State) : (storeBurstByte r v s).cursorY = s.cursorY := rfl
@[simp] theorem storeBurstByte_fontBase (r : RegId) (v : Byte) (s : State) : (storeBurstByte r v s).fontBase = s.fontBase := rfl
@[simp] theorem storeBurstByte_snap (r : RegId) (v : Byte) (s : State) : (storeBurstByte r v s).snap = s.snap := rfl
@[simp] theorem storeBurstByte_snapValid (r : RegId) (v : Byte) (s : State) : (storeBurstByte r v s).snapValid = s.snapValid := rfl
@[simp] theorem storeBurstByte_badop (r : RegId) (v : Byte) (s : State) : (storeBurstByte r v s).badop = s.badop := rfl
@[simp] theorem storeBurstByte_result (r : RegId) (v : Byte) (s : State) : (storeBurstByte r v s).result = s.result := rfl
@[simp] theorem storeBurstByte_display (r : RegId) (v : Byte) (s : State) : (storeBurstByte r v s).display = s.display := rfl
@[simp] theorem storeBurstByte_dlog (r : RegId) (v : Byte) (s : State) : (storeBurstByte r v s).dlog = s.dlog := rfl
@[simp] theorem storeBurstByte_hostLog (r : RegId) (v : Byte) (s : State) : (storeBurstByte r v s).hostLog = s.hostLog := rfl

@[simp] theorem blockReset_cfg (s : State) : (blockReset s).cfg = s.cfg := rfl
@[simp] theorem blockReset_inputs (s : State) : (blockReset s).inputs = s.inputs := rfl
@[simp] theorem blockReset_busIdle (s : State) : (blockReset s).busIdle = s.busIdle := rfl
@[simp] theorem blockReset_live (s : State) : (blockReset s).live = Buffers.zero := rfl
@[simp] theorem blockReset_valid (s : State) : (blockReset s).valid = ValidFlags.none := rfl
@[simp] theorem blockReset_active (s : State) : (blockReset s).active = none := rfl
@[simp] theorem blockReset_remaining (s : State) : (blockReset s).remaining = 0 := rfl
@[simp] theorem blockReset_busDisabled (s : State) : (blockReset s).busDisabled = false := rfl
@[simp] theorem blockReset_cursorX (s : State) : (blockReset s).cursorX = 0 := rfl
@[simp] theorem blockReset_cursorY (s : State) : (blockReset s).cursorY = 0 := rfl
@[simp] theorem blockReset_fontBase (s : State) : (blockReset s).fontBase = 0 := rfl
@[simp] theorem blockReset_snap (s : State) : (blockReset s).snap = Buffers.zero := rfl
@[simp] theorem blockReset_snapValid (s : State) : (blockReset s).snapValid = false := rfl
@[simp] theorem blockReset_badop (s : State) : (blockReset s).badop = false := rfl
@[simp] theorem blockReset_result (s : State) : (blockReset s).result = 0 := rfl
@[simp] theorem blockReset_display (s : State) : (blockReset s).display = s.display := rfl
@[simp] theorem blockReset_dlog (s : State) : (blockReset s).dlog = s.dlog := rfl
@[simp] theorem blockReset_hostLog (s : State) : (blockReset s).hostLog = s.hostLog := rfl

@[simp] theorem takeInput_cfg (rest : List Input) (s : State) : (takeInput rest s).cfg = s.cfg := rfl
@[simp] theorem takeInput_inputs (rest : List Input) (s : State) : (takeInput rest s).inputs = rest := rfl
@[simp] theorem takeInput_busIdle (rest : List Input) (s : State) : (takeInput rest s).busIdle = s.busIdle := rfl
@[simp] theorem takeInput_live (rest : List Input) (s : State) : (takeInput rest s).live = s.live := rfl
@[simp] theorem takeInput_valid (rest : List Input) (s : State) : (takeInput rest s).valid = s.valid := rfl
@[simp] theorem takeInput_active (rest : List Input) (s : State) : (takeInput rest s).active = s.active := rfl
@[simp] theorem takeInput_remaining (rest : List Input) (s : State) : (takeInput rest s).remaining = s.remaining := rfl
@[simp] theorem takeInput_busDisabled (rest : List Input) (s : State) : (takeInput rest s).busDisabled = s.busDisabled := rfl
@[simp] theorem takeInput_cursorX (rest : List Input) (s : State) : (takeInput rest s).cursorX = s.cursorX := rfl
@[simp] theorem takeInput_cursorY (rest : List Input) (s : State) : (takeInput rest s).cursorY = s.cursorY := rfl
@[simp] theorem takeInput_fontBase (rest : List Input) (s : State) : (takeInput rest s).fontBase = s.fontBase := rfl
@[simp] theorem takeInput_snap (rest : List Input) (s : State) : (takeInput rest s).snap = s.snap := rfl
@[simp] theorem takeInput_snapValid (rest : List Input) (s : State) : (takeInput rest s).snapValid = s.snapValid := rfl
@[simp] theorem takeInput_badop (rest : List Input) (s : State) : (takeInput rest s).badop = s.badop := rfl
@[simp] theorem takeInput_result (rest : List Input) (s : State) : (takeInput rest s).result = s.result := rfl
@[simp] theorem takeInput_display (rest : List Input) (s : State) : (takeInput rest s).display = s.display := rfl
@[simp] theorem takeInput_dlog (rest : List Input) (s : State) : (takeInput rest s).dlog = s.dlog := rfl
@[simp] theorem takeInput_hostLog (rest : List Input) (s : State) : (takeInput rest s).hostLog = s.hostLog := rfl

@[simp] theorem setBusIdle_cfg (level : Bool) (s : State) : (setBusIdle level s).cfg = s.cfg := rfl
@[simp] theorem setBusIdle_inputs (level : Bool) (s : State) : (setBusIdle level s).inputs = s.inputs := rfl
@[simp] theorem setBusIdle_busIdle (level : Bool) (s : State) : (setBusIdle level s).busIdle = level := rfl
@[simp] theorem setBusIdle_live (level : Bool) (s : State) : (setBusIdle level s).live = s.live := rfl
@[simp] theorem setBusIdle_valid (level : Bool) (s : State) : (setBusIdle level s).valid = s.valid := rfl
@[simp] theorem setBusIdle_active (level : Bool) (s : State) : (setBusIdle level s).active = s.active := rfl
@[simp] theorem setBusIdle_remaining (level : Bool) (s : State) : (setBusIdle level s).remaining = s.remaining := rfl
@[simp] theorem setBusIdle_busDisabled (level : Bool) (s : State) : (setBusIdle level s).busDisabled = s.busDisabled := rfl
@[simp] theorem setBusIdle_cursorX (level : Bool) (s : State) : (setBusIdle level s).cursorX = s.cursorX := rfl
@[simp] theorem setBusIdle_cursorY (level : Bool) (s : State) : (setBusIdle level s).cursorY = s.cursorY := rfl
@[simp] theorem setBusIdle_fontBase (level : Bool) (s : State) : (setBusIdle level s).fontBase = s.fontBase := rfl
@[simp] theorem setBusIdle_snap (level : Bool) (s : State) : (setBusIdle level s).snap = s.snap := rfl
@[simp] theorem setBusIdle_snapValid (level : Bool) (s : State) : (setBusIdle level s).snapValid = s.snapValid := rfl
@[simp] theorem setBusIdle_badop (level : Bool) (s : State) : (setBusIdle level s).badop = s.badop := rfl
@[simp] theorem setBusIdle_result (level : Bool) (s : State) : (setBusIdle level s).result = s.result := rfl
@[simp] theorem setBusIdle_display (level : Bool) (s : State) : (setBusIdle level s).display = s.display := rfl
@[simp] theorem setBusIdle_dlog (level : Bool) (s : State) : (setBusIdle level s).dlog = s.dlog := rfl
@[simp] theorem setBusIdle_hostLog (level : Bool) (s : State) : (setBusIdle level s).hostLog = s.hostLog := rfl

@[simp] theorem dispRead_fst (chip : ChipId) (p lx : Nat) (s : State) : (dispRead chip p lx s).1 = s.display.cell chip p lx := rfl

end Sys2Proof.Machine
end

