-- ==== Sys2Proof/Laws/Memory.lean ====
section
/-! SUPPORT. Sys2Proof/Laws/Memory.lean: reading after writing, and that every memory operation keeps the canonical form. -/

namespace Sys2Proof

@[simp] theorem Memory.read_nil (a : Nat) : Memory.read [] a = 0 := rfl

@[simp] theorem Memory.read_consCell (k : Nat) (v : Byte) (m : Memory) (a : Nat) :
    Memory.read ((k, v) :: m) a = if a = k then v else Memory.read m a := rfl

/-- A weaker lower bound keeps the canonical form. -/
theorem canonicalFrom_mono {lo lo' : Nat} (h : lo' ≤ lo) {m : Memory} (hm : canonicalFrom lo m = true) :
    canonicalFrom lo' m = true := by
  cases m with
  | nil => rfl
  | cons c m =>
    obtain ⟨k, v⟩ := c
    simp only [canonicalFrom, Bool.and_eq_true, decide_eq_true_eq] at hm ⊢
    exact ⟨⟨Nat.le_trans h hm.1.1, hm.1.2⟩, hm.2⟩

/-- Below its first address a canonical memory lists nothing. -/
theorem Memory.read_below {lo a : Nat} {m : Memory} (hm : canonicalFrom lo m = true) (h : a < lo) : m.read a = 0 := by
  induction m generalizing lo with
  | nil => rfl
  | cons c m ih =>
    obtain ⟨k, v⟩ := c
    simp only [canonicalFrom, Bool.and_eq_true, decide_eq_true_eq] at hm
    rw [Memory.read_consCell, if_neg (by omega)]
    exact ih hm.2 (by omega)

theorem Memory.read_cons_same (a : Nat) (v : Byte) {m : Memory} (hm : canonicalFrom (a + 1) m = true) :
    (Memory.cons a v m).read a = v := by
  unfold Memory.cons
  split
  · rename_i h
    rw [Memory.read_below hm (Nat.lt_succ_self a), h]; rfl
  · simp

theorem Memory.read_cons_other {a b : Nat} (v : Byte) (m : Memory) (h : b ≠ a) :
    (Memory.cons a v m).read b = m.read b := by
  unfold Memory.cons
  split
  · rfl
  · simp [h]

theorem Memory.cons_canonical {lo a : Nat} (v : Byte) {m : Memory} (h : lo ≤ a) (hm : canonicalFrom (a + 1) m = true) :
    canonicalFrom lo (Memory.cons a v m) = true := by
  unfold Memory.cons
  split
  · exact canonicalFrom_mono (by omega) hm
  · rename_i hv
    simp only [canonicalFrom, Bool.and_eq_true, decide_eq_true_eq]
    exact ⟨⟨h, hv⟩, hm⟩

/-- A read after a write at the same address gives the value written. -/
theorem Memory.read_write_same {m : Memory} (hm : m.wf = true) (a : Nat) (v : Byte) : (m.write a v).read a = v := by
  suffices h : ∀ lo, canonicalFrom lo m = true → (m.write a v).read a = v from h 0 hm
  clear hm
  intro lo hm
  induction m generalizing lo with
  | nil => exact Memory.read_cons_same a v rfl
  | cons c m ih =>
    obtain ⟨k, u⟩ := c
    have hm' := hm
    simp only [canonicalFrom, Bool.and_eq_true, decide_eq_true_eq] at hm
    unfold Memory.write
    split
    · exact Memory.read_cons_same a v (by
        simp only [canonicalFrom, Bool.and_eq_true, decide_eq_true_eq]
        exact ⟨⟨by omega, hm.1.2⟩, hm.2⟩)
    · split
      · rename_i h; subst h
        exact Memory.read_cons_same a v hm.2
      · rename_i h
        rw [Memory.read_consCell, if_neg h]
        exact ih _ hm.2

/-- A write leaves every other address alone. -/
theorem Memory.read_write_other (m : Memory) {a b : Nat} (v : Byte) (h : b ≠ a) : (m.write a v).read b = m.read b := by
  induction m with
  | nil => exact Memory.read_cons_other v [] h
  | cons c m ih =>
    obtain ⟨k, u⟩ := c
    unfold Memory.write
    split
    · exact Memory.read_cons_other v _ h
    · split
      · rename_i hk; subst hk
        rw [Memory.read_cons_other v _ h, Memory.read_consCell, if_neg h]
      · simp only [Memory.read_consCell, ih]

theorem Memory.write_canonical {lo : Nat} {m : Memory} (hm : canonicalFrom lo m = true) {a : Nat} (h : lo ≤ a)
    (v : Byte) : canonicalFrom lo (m.write a v) = true := by
  induction m generalizing lo with
  | nil => exact Memory.cons_canonical v h rfl
  | cons c m ih =>
    obtain ⟨k, u⟩ := c
    simp only [canonicalFrom, Bool.and_eq_true, decide_eq_true_eq] at hm
    unfold Memory.write
    split
    · refine Memory.cons_canonical v h ?_
      simp only [canonicalFrom, Bool.and_eq_true, decide_eq_true_eq]
      exact ⟨⟨by omega, hm.1.2⟩, hm.2⟩
    · split
      · rename_i hk; subst hk
        exact Memory.cons_canonical v h hm.2
      · simp only [canonicalFrom, Bool.and_eq_true, decide_eq_true_eq]
        exact ⟨hm.1, ih hm.2 (by omega)⟩

/-- A write keeps the canonical form. -/
theorem Memory.write_wf {m : Memory} (hm : m.wf = true) (a : Nat) (v : Byte) : (m.write a v).wf = true :=
  Memory.write_canonical hm (Nat.zero_le a) v

/-- A listed cell after a write is the written one or one listed before. -/
theorem Memory.mem_write {m : Memory} {a : Nat} {v : Byte} {cell : Host.Cell} (h : cell ∈ m.write a v) :
    cell.1 = a ∨ cell ∈ m := by
  have hcons : ∀ m' : Memory, cell ∈ Memory.cons a v m' → cell.1 = a ∨ cell ∈ m' := by
    intro m' h'
    unfold Memory.cons at h'
    split at h'
    · exact .inr h'
    · rcases List.mem_cons.1 h' with rfl | h''
      · exact .inl rfl
      · exact .inr h''
  induction m with
  | nil => exact hcons _ h
  | cons c m ih =>
    obtain ⟨k, u⟩ := c
    unfold Memory.write at h
    split at h
    · exact hcons _ h
    · split at h
      · rcases hcons _ h with h | h
        · exact .inl h
        · exact .inr (List.mem_cons_of_mem _ h)
      · rcases List.mem_cons.1 h with rfl | h
        · exact .inr List.mem_cons_self
        · exact (ih h).imp_right (List.mem_cons_of_mem _)

namespace Machine

/-- Two cells of one chip have one address only if they are one cell. -/
theorem cellAddress_inj {p lx p' lx' : Nat} (h : lx < 4096) (h' : lx' < 4096)
    (e : cellAddress p lx = cellAddress p' lx') : p = p' ∧ lx = lx' := by
  unfold cellAddress at e; omega

theorem Display.chip_setChip_same (d : Display) (chip : ChipId) (m : Memory) : (d.setChip chip m).chip chip = m := by
  cases chip <;> rfl

theorem Display.chip_setChip_other (d : Display) {chip chip' : ChipId} (m : Memory) (h : chip' ≠ chip) :
    (d.setChip chip m).chip chip' = d.chip chip' := by
  cases chip <;> cases chip' <;> first | rfl | exact absurd rfl h

theorem Display.wf_chip {d : Display} (h : d.wf = true) (chip : ChipId) : (d.chip chip).wf = true := by
  simp only [Display.wf, Bool.and_eq_true] at h
  cases chip
  · exact h.1.1
  · exact h.1.2
  · exact h.2

/-- A written cell reads as written. -/
theorem Display.cell_setCell_same {d : Display} (h : d.wf = true) (chip : ChipId) (p lx : Nat) (v : Byte) :
    (d.setCell chip p lx v).cell chip p lx = v := by
  unfold Display.setCell Display.cell
  rw [Display.chip_setChip_same]
  exact Memory.read_write_same (Display.wf_chip h chip) _ v

/-- Every other cell reads as before. -/
theorem Display.cell_setCell_other (d : Display) {chip chip' : ChipId} {p lx p' lx' : Nat} (v : Byte)
    (hl : lx < 4096) (hl' : lx' < 4096) (h : (chip', p', lx') ≠ (chip, p, lx)) :
    (d.setCell chip p lx v).cell chip' p' lx' = d.cell chip' p' lx' := by
  unfold Display.setCell Display.cell
  by_cases hc : chip' = chip
  · subst hc
    rw [Display.chip_setChip_same]
    refine Memory.read_write_other _ v fun e => h ?_
    obtain ⟨rfl, rfl⟩ := cellAddress_inj hl' hl e
    rfl
  · rw [Display.chip_setChip_other _ _ hc]

/-- A cell write keeps the canonical form. -/
theorem Display.setCell_wf {d : Display} (h : d.wf = true) (chip : ChipId) (p lx : Nat) (v : Byte) :
    (d.setCell chip p lx v).wf = true := by
  have hw : ∀ chip' : ChipId, ((d.chip chip').write (cellAddress p lx) v).wf = true := fun chip' =>
    Memory.write_wf (Display.wf_chip h chip') _ v
  simp only [Display.wf, Bool.and_eq_true] at h ⊢
  cases chip
  · exact ⟨⟨hw .chip1, h.1.2⟩, h.2⟩
  · exact ⟨⟨h.1.1, hw .chip2⟩, h.2⟩
  · exact ⟨⟨h.1.1, h.1.2⟩, hw .chip3⟩

/-- A write to a cell that exists lists no cell that does not. -/
theorem Display.setCell_cellsExist {c : Config} {d : Display} (h : d.cellsExist c = true) {chip : ChipId} {p lx : Nat}
    (hc : c.cellExists chip p lx = true) (hl : lx < 4096) (v : Byte) :
    (d.setCell chip p lx v).cellsExist c = true := by
  have hw : cellsExistIn c chip (d.chip chip) = true →
      cellsExistIn c chip ((d.chip chip).write (cellAddress p lx) v) = true := by
    intro hd
    simp only [cellsExistIn, List.all_eq_true] at hd ⊢
    intro cell hcell
    rcases Memory.mem_write hcell with e | hm
    · have : cell.1 / 4096 = p ∧ cell.1 % 4096 = lx := by rw [e]; unfold cellAddress; omega
      rw [this.1, this.2]; exact hc
    · exact hd _ hm
  simp only [Display.cellsExist, Bool.and_eq_true] at h ⊢
  cases chip
  · exact ⟨⟨hw h.1.1, h.1.2⟩, h.2⟩
  · exact ⟨⟨h.1.1, hw h.1.2⟩, h.2⟩
  · exact ⟨⟨h.1.1, h.1.2⟩, hw h.2⟩

/-- The reset state's display has the canonical form. -/
theorem reset_display_wf : State.reset.display.wf = true := rfl

end Machine

end Sys2Proof
end

