-- ==== Sys2Proof/Laws/Ops.lean ====
section
/-! SUPPORT. Sys2Proof/Laws/Ops.lean: one lemma for each shared operation on buffers, flags and the burst: what it can do. -/

namespace Sys2Proof

theorem RegId.len_le_six (r : RegId) : r.len ≤ 6 := by cases r <;> decide

theorem RegId.len_pos (r : RegId) : 0 < r.len := by cases r <;> decide

namespace Machine

/-- A byte written below the register's length reads as written. -/
theorem Buffers.byte_setByte_same (b : Buffers) {r : RegId} {k : Nat} (h : k < r.len) (v : Byte) :
    (b.setByte r k v).byte r k = v := by
  cases r <;> simp only [RegId.len] at h <;> simp [Buffers.byte, Buffers.setByte, h]

/-- Every other byte reads as before. -/
theorem Buffers.byte_setByte_other (b : Buffers) {r r' : RegId} {k k' : Nat} (v : Byte) (h : (r', k') ≠ (r, k)) :
    (b.setByte r k v).byte r' k' = b.byte r' k' := by
  cases r <;> cases r' <;> simp only [Buffers.byte, Buffers.setByte] <;>
    (have hk : k ≠ k' := fun e => h (e ▸ rfl); rw [Vector.getElem?_setIfInBounds_ne hk])

@[simp] theorem Buffers.zero_byte (r : RegId) (k : Nat) : Buffers.zero.byte r k = 0 := by
  have h6 : ∀ k, (#v[0, 0, 0, 0, 0, 0] : Vector Byte 6)[k]?.getD (0 : Byte) = 0
    | 0 | 1 | 2 | 3 | 4 | 5 => rfl
    | _ + 6 => by simp
  have h2 : ∀ k, (#v[0, 0] : Vector Byte 2)[k]?.getD (0 : Byte) = 0
    | 0 | 1 => rfl
    | _ + 2 => by simp
  cases r
  · exact h6 k
  · exact h6 k
  · exact h6 k
  · exact h2 k

@[simp] theorem ValidFlags.none_get (r : RegId) : ValidFlags.none.get r = false := by cases r <;> rfl

@[simp] theorem ValidFlags.mark_get_same (f : ValidFlags) (r : RegId) : (f.mark r).get r = true := by cases r <;> rfl

theorem ValidFlags.mark_get_other (f : ValidFlags) {r r' : RegId} (h : r' ≠ r) : (f.mark r).get r' = f.get r' := by
  cases r <;> cases r' <;> first | rfl | exact absurd rfl h

/-- READY is the conjunction of the flags of all four registers. -/
theorem ValidFlags.all_iff (f : ValidFlags) : f.all = true ↔ ∀ r, f.get r = true := by
  constructor
  · intro h r
    simp only [ValidFlags.all, Bool.and_eq_true] at h
    cases r
    · exact h.1.1.1
    · exact h.1.1.2
    · exact h.1.2
    · exact h.2
  · intro h
    simp only [ValidFlags.all, Bool.and_eq_true]
    exact ⟨⟨⟨h .A, h .B⟩, h .C⟩, h .ANN⟩

/-- R27 with a target: REMAINING is at most its length. -/
theorem State.burstOk_some {s : State} {r : RegId} (h : s.active = some r) :
    s.burstOk = true ↔ s.remaining.toNat ≤ r.len := by
  simp [State.burstOk, h]

/-- R27 without a target: no byte is expected. -/
theorem State.burstOk_none {s : State} (h : s.active = none) : s.burstOk = true ↔ s.remaining = 0 := by
  simp [State.burstOk, h]

/-- What BUS.DATA can do in a state that keeps R27: one of the three cases of R123. -/
theorem execBusData_cases {s : State} (h : s.burstOk = true) (v : Byte) :
    (s.busDisabled = true ∧ execBusData v s = .next s) ∨
    (s.busDisabled = false ∧ s.remaining = 0 ∧ execBusData v s = .next { s with busDisabled := true }) ∨
    (s.busDisabled = false ∧ s.remaining ≠ 0 ∧ ∃ r, s.active = some r ∧ s.remaining.toNat ≤ r.len ∧
      execBusData v s = .next (storeBurstByte r v s)) := by
  by_cases hd : s.busDisabled = true
  · exact .inl ⟨hd, by rw [execBusData, if_pos hd]⟩
  by_cases hr : s.remaining = 0
  · exact .inr (.inl ⟨by simpa using hd, hr, by rw [execBusData, if_neg hd, if_pos hr]⟩)
  cases ha : s.active with
  | none => exact absurd ((State.burstOk_none ha).1 h) hr
  | some r =>
    have hl := (State.burstOk_some ha).1 h
    refine .inr (.inr ⟨by simpa using hd, hr, r, rfl, hl, ?_⟩)
    simp only [execBusData, if_neg hd, if_neg hr, ha, if_pos hl]

/-- What BUS.DATA can answer as a next state, in any state at all. -/
theorem execBusData_next {s t : State} {v : Byte} (h : execBusData v s = .next t) :
    t = s ∨ t = { s with busDisabled := true } ∨
      ∃ r, s.active = some r ∧ s.busDisabled = false ∧ s.remaining ≠ 0 ∧ s.remaining.toNat ≤ r.len ∧
        t = storeBurstByte r v s := by
  unfold execBusData at h
  split at h
  · cases h; exact .inl rfl
  · split at h
    · cases h; exact .inr (.inl rfl)
    · split at h
      · cases h
      · split at h
        · cases h
          exact .inr (.inr ⟨_, ‹_›, by simpa using ‹¬s.busDisabled = true›, ‹_›, ‹_›, rfl⟩)
        · cases h

/-- A byte of the font ROM is read below its size, and only there. -/
theorem fontRead_eq (c : Config) (a : Nat) :
    fontRead c a = if a < c.fontRomSize then .ok (c.fontRom.read a) else .error (.fontReadOutOfRom a) := rfl

theorem fontRead_ok {c : Config} {a : Nat} (h : a < c.fontRomSize) : fontRead c a = .ok (c.fontRom.read a) := if_pos h

theorem fontRead_error {c : Config} {a : Nat} (h : c.fontRomSize ≤ a) :
    fontRead c a = .error (.fontReadOutOfRom a) := if_neg (Nat.not_lt.2 h)

end Machine

end Sys2Proof
end

