-- ==== Sys2Proof/Laws/Pixel.lean ====
section
/-! SUPPORT. Sys2Proof/Laws/Pixel.lean: chip resolution, and what the column writer and the glyph renderer can do: they touch
the cursor, the display and DLOG, and nothing else. -/

namespace Sys2Proof.Machine

/-- Every x up to DISPLAY_RIGHT has a chip. -/
theorem resolveChip_isSome {c : Config} {x : Nat} (h : x ≤ c.displayRight) :
    ∃ chip lx, resolveChip c x = some (chip, lx) := by
  unfold resolveChip
  by_cases h1 : x < c.chip2Start
  · exact ⟨_, _, if_pos h1⟩
  · by_cases h2 : x < c.chip3Start
    · exact ⟨.chip2, x - c.chip2Start, by simp [h1, h2]⟩
    · exact ⟨.chip3, x - c.chip3Start, by simp [h1, h2, h]⟩

/-- What a resolution says: the column is the start of the region plus the local column, which is inside the region. -/
theorem resolveChip_spec {c : Config} (hc : c.geometryWf = true) {x lx : Nat} {chip : ChipId}
    (h : resolveChip c x = some (chip, lx)) :
    x = c.chipStart chip + lx ∧ lx < c.chipWidth chip ∧ x ≤ c.displayRight := by
  simp only [Config.geometryWf, Bool.and_eq_true, decide_eq_true_eq] at hc
  unfold resolveChip at h
  split at h
  · cases h; simp only [Config.chipStart, Config.chipWidth, Config.displayRight]; omega
  · split at h
    · cases h; simp only [Config.chipStart, Config.chipWidth, Config.displayRight]; omega
    · split at h
      · cases h; simp only [Config.chipStart, Config.chipWidth, Config.displayRight] at *; omega
      · cases h

/-- A local column is no larger than its column. -/
theorem resolveChip_le {c : Config} {x lx : Nat} {chip : ChipId} (h : resolveChip c x = some (chip, lx)) : lx ≤ x := by
  unfold resolveChip at h
  split at h
  · cases h; exact Nat.le_refl _
  · split at h
    · cases h; exact Nat.sub_le _ _
    · split at h
      · cases h; exact Nat.sub_le _ _
      · cases h

/-- Two columns with one resolution are one column. -/
theorem resolveChip_inj {c : Config} {x y : Nat} {r : ChipId × Nat} (hx : resolveChip c x = some r)
    (hy : resolveChip c y = some r) : x = y := by
  unfold resolveChip at hx hy
  split at hx <;> split at hy <;> (try split at hx) <;> (try split at hy) <;> (try split at hx) <;> (try split at hy) <;>
    simp_all <;> rw [← hy] at hx <;> simp at hx <;> omega

theorem Config.cellExists_iff {c : Config} {chip : ChipId} {page lx : Nat} :
    c.cellExists chip page lx = true ↔ page < c.pages ∧ lx < c.chipWidth chip := by
  unfold Config.cellExists
  simp only [Bool.and_eq_true, decide_eq_true_eq]

/-- The cells of a column in bounds exist: its page, and the next one where its row is not below the bottom edge. -/
theorem cellExists_of_inBounds {c : Config} (hc : c.geometryWf = true) {x y lx : Nat} {chip : ChipId}
    (h : resolveChip c x = some (chip, lx)) (hy : y ≤ c.displayBottom) : c.cellExists chip (y / 8) lx = true := by
  obtain ⟨-, hl, -⟩ := resolveChip_spec hc h
  simp only [Config.geometryWf, Bool.and_eq_true, decide_eq_true_eq] at hc
  simp only [Config.displayBottom] at hy
  exact Config.cellExists_iff.2 ⟨by unfold Config.pages; omega, hl⟩

/-- What pixel operations do: the state changes in its cursor, display and DLOG alone; the new transactions replay from
the old display to the new one, with addresses in range; and the display keeps its forms. -/
structure PixelEffect (s t : State) : Prop where
  frame : t = { s with cursorX := t.cursorX, cursorY := t.cursorY, display := t.display, dlog := t.dlog }
  log : ∃ log, t.dlog = s.dlog ++ log ∧ replay log s.display = some t.display ∧
    (s.cfg.geometryWf = true → ∀ tr ∈ log, tr.inRange s.cfg = true)
  wf : s.display.wf = true → t.display.wf = true
  cells : s.cfg.geometryWf = true → s.display.cellsExist s.cfg = true → t.display.cellsExist s.cfg = true

theorem replay_append {l1 l2 : List Transaction} {d d1 : Display} (h : replay l1 d = some d1) :
    replay (l1 ++ l2) d = replay l2 d1 := by
  induction l1 generalizing d with
  | nil => cases h; rfl
  | cons tr l1 ih =>
    cases tr with
    | rd chip p lx v =>
      simp only [replay, List.cons_append] at h ⊢
      split at h
      · rw [if_pos ‹_›]; exact ih h
      · cases h
    | wr chip p lx v => exact ih h

theorem PixelEffect.cfg_eq {s t : State} (h : PixelEffect s t) : t.cfg = s.cfg := by rw [h.frame]

theorem PixelEffect.fontBase_eq {s t : State} (h : PixelEffect s t) : t.fontBase = s.fontBase := by rw [h.frame]

theorem PixelEffect.refl (s : State) : PixelEffect s s where
  frame := rfl
  log := ⟨[], by simp, rfl, by simp⟩
  wf := id
  cells := fun _ => id

theorem PixelEffect.trans {s t u : State} (h : PixelEffect s t) (k : PixelEffect t u) : PixelEffect s u := by
  have hcfg := h.cfg_eq
  obtain ⟨l1, hl1, hr1, hi1⟩ := h.log
  obtain ⟨l2, hl2, hr2, hi2⟩ := k.log
  rw [hcfg] at hi2
  refine ⟨by rw [k.frame, h.frame], ⟨l1 ++ l2, by rw [hl2, hl1, List.append_assoc], ?_, ?_⟩, fun w => k.wf (h.wf w), ?_⟩
  · rw [replay_append hr1, hr2]
  · intro hg tr htr
    rcases List.mem_append.1 htr with m | m
    · exact hi1 hg tr m
    · exact hi2 hg tr m
  · intro hg hd
    have := k.cells (hcfg ▸ hg)
    rw [hcfg] at this
    exact this (h.cells hg hd)

/-- The cursor alone moves. -/
theorem PixelEffect.cursor {s : State} (x y : Coord) : PixelEffect s { s with cursorX := x, cursorY := y } where
  frame := rfl
  log := ⟨[], by simp, rfl, by simp⟩
  wf := id
  cells := fun _ => id

theorem setCursor_effect (x y : Nat) (s : State) : PixelEffect s (setCursor x y s) := .cursor _ _

theorem advanceColumn_effect (s : State) : PixelEffect s (advanceColumn s) := .cursor _ _

theorem dispWrite_effect {chip : ChipId} {p lx : Nat} (v : Byte) (s : State) (hl : lx < 4096)
    (hc : s.cfg.geometryWf = true → s.cfg.cellExists chip p lx = true) : PixelEffect s (dispWrite chip p lx v s) where
  frame := rfl
  log := ⟨[.wr chip p lx v], rfl, rfl, fun hg tr htr => by
    rw [List.mem_singleton.1 htr]; exact hc hg⟩
  wf := fun h => Display.setCell_wf h _ _ _ _
  cells := fun hg h => Display.setCell_cellsExist h (hc hg) hl v

theorem mergeCell_effect {chip : ChipId} {p lx : Nat} (v : Byte) (s : State) (hl : lx < 4096)
    (hc : s.cfg.geometryWf = true → s.cfg.cellExists chip p lx = true) : PixelEffect s (mergeCell chip p lx v s) where
  frame := rfl
  log := by
    refine ⟨[.rd chip p lx (s.display.cell chip p lx), .wr chip p lx (s.display.cell chip p lx ||| v)], ?_, ?_, ?_⟩
    · simp
    · simp [replay]
    · intro hg tr htr
      simp only [List.mem_cons, List.not_mem_nil, or_false] at htr
      rcases htr with rfl | rfl
      · exact hc hg
      · exact hc hg
  wf := fun h => Display.setCell_wf h _ _ _ _
  cells := fun hg h => Display.setCell_cellsExist h (hc hg) hl _

/-- The column writer at the chip and local column of an x. -/
theorem writeColumnAt_effect {chip : ChipId} {x lx : Nat} (b : Byte) (s : State)
    (h : resolveChip s.cfg x = some (chip, lx)) (hx : x < 4096) (hy : s.cursorY.toNat ≤ s.cfg.displayBottom) :
    PixelEffect s (writeColumnAt chip lx b s) := by
  have hl : lx < 4096 := Nat.lt_of_le_of_lt (resolveChip_le h) hx
  have h1 : s.cfg.geometryWf = true → s.cfg.cellExists chip (s.cursorY.toNat / 8) lx = true :=
    fun hg => cellExists_of_inBounds hg h hy
  unfold writeColumnAt
  simp only
  split
  · exact (dispWrite_effect b s hl h1).trans (advanceColumn_effect _)
  · split
    · exact (mergeCell_effect _ s hl h1).trans (advanceColumn_effect _)
    · rename_i hb
      refine (mergeCell_effect _ s hl h1).trans ((mergeCell_effect _ _ hl fun hg => ?_).trans (advanceColumn_effect _))
      have := cellExists_of_inBounds hg h (y := s.cursorY.toNat + 8) (Nat.not_lt.1 hb)
      rwa [show (s.cursorY.toNat + 8) / 8 = s.cursorY.toNat / 8 + 1 by omega] at this

theorem Config.inBounds_iff {c : Config} {x y : Nat} :
    c.inBounds x y = true ↔ x ≤ c.displayRight ∧ y ≤ c.displayBottom := by
  simp [Config.inBounds]

/-- The column writer: dropped out of bounds, else at the chip and local column of the cursor. -/
theorem writeColumn_cases (b : Byte) (s : State) :
    (¬(s.cursorX.toNat ≤ s.cfg.displayRight ∧ s.cursorY.toNat ≤ s.cfg.displayBottom) ∧ writeColumn b s = s) ∨
    (s.cursorX.toNat ≤ s.cfg.displayRight ∧ s.cursorY.toNat ≤ s.cfg.displayBottom ∧
      ∃ chip lx, resolveChip s.cfg s.cursorX.toNat = some (chip, lx) ∧ writeColumn b s = writeColumnAt chip lx b s) := by
  by_cases h : s.cursorX.toNat ≤ s.cfg.displayRight ∧ s.cursorY.toNat ≤ s.cfg.displayBottom
  · obtain ⟨chip, lx, hr⟩ := resolveChip_isSome h.1
    refine .inr ⟨h.1, h.2, chip, lx, hr, ?_⟩
    unfold writeColumn
    rw [if_pos (Config.inBounds_iff.2 h), hr]
  · refine .inl ⟨h, ?_⟩
    unfold writeColumn
    rw [if_neg (fun e => h (Config.inBounds_iff.1 e))]

theorem writeColumn_effect (b : Byte) (s : State) : PixelEffect s (writeColumn b s) := by
  rcases writeColumn_cases b s with ⟨-, e⟩ | ⟨-, hy, chip, lx, hr, e⟩
  · rw [e]; exact .refl s
  · rw [e]; exact writeColumnAt_effect b s hr s.cursorX.isLt hy

/-- A column in bounds: x advances by 1 and y stays. -/
theorem writeColumnAt_cursor (chip : ChipId) (lx : Nat) (b : Byte) (s : State) :
    (writeColumnAt chip lx b s).cursorX = BitVec.ofNat 12 (s.cursorX.toNat + 1) ∧
    (writeColumnAt chip lx b s).cursorY = s.cursorY := by
  unfold writeColumnAt
  simp only
  split
  · simp
  · split <;> simp

/-- The column writer never moves y. -/
theorem writeColumn_cursorY (b : Byte) (s : State) : (writeColumn b s).cursorY = s.cursorY := by
  rcases writeColumn_cases b s with ⟨-, e⟩ | ⟨-, -, chip, lx, -, e⟩
  · rw [e]
  · rw [e]; exact (writeColumnAt_cursor chip lx b s).2

end Sys2Proof.Machine
end

