-- ==== Sys2Proof/Laws/Glyph.lean ====
section
/-! SUPPORT. Sys2Proof/Laws/Glyph.lean: what the font resolver returns and where it faults, and what the glyph renderer can
do. -/

namespace Sys2Proof.Machine

@[simp] theorem except_bind_ok {ε α β : Type} (a : α) (f : α → Except ε β) : (Except.ok a >>= f) = f a := rfl

@[simp] theorem except_bind_error {ε α β : Type} (e : ε) (f : α → Except ε β) : (Except.error e >>= f) = .error e := rfl

/-- A computation that only reads the font ROM: it answers, or it faults at an address beyond the ROM. -/
def RomOrFault {α : Type} (c : Config) (r : Except Fault α) : Prop :=
  (∃ a, r = .ok a) ∨ ∃ a, c.fontRomSize ≤ a ∧ r = .error (.fontReadOutOfRom a)

theorem fontRead_romOrFault (c : Config) (a : Nat) : RomOrFault c (fontRead c a) := by
  by_cases h : a < c.fontRomSize
  · exact .inl ⟨_, fontRead_ok h⟩
  · exact .inr ⟨a, Nat.not_lt.1 h, fontRead_error (Nat.not_lt.1 h)⟩

theorem RomOrFault.bind {α β : Type} {c : Config} {r : Except Fault α} {f : α → Except Fault β}
    (h : RomOrFault c r) (k : ∀ a, r = .ok a → RomOrFault c (f a)) : RomOrFault c (r >>= f) := by
  rcases h with ⟨a, rfl⟩ | ⟨a, ha, rfl⟩
  · exact k a rfl
  · exact .inr ⟨a, ha, rfl⟩

theorem RomOrFault.ok {α : Type} {c : Config} (a : α) : RomOrFault c (.ok a) := .inl ⟨a, rfl⟩

/-- The header of a font whose six header bytes are in the ROM. -/
def romHeader (c : Config) (base : Nat) : FontHeader where
  fixedWidth := romByte c (base + 2)
  height := romByte c (base + 3)
  first := romByte c (base + 4)
  last := romByte c (base + 5)

theorem readHeader_ok {c : Config} {base : Nat} (h : base + 5 < c.fontRomSize) :
    readHeader c base = .ok (romHeader c base) := by
  unfold readHeader
  rw [fontRead_ok (show base + 2 < _ by omega), fontRead_ok (show base + 3 < _ by omega),
    fontRead_ok (show base + 4 < _ by omega), fontRead_ok h]
  rfl

theorem readHeader_romOrFault (c : Config) (base : Nat) : RomOrFault c (readHeader c base) := by
  unfold readHeader
  exact (fontRead_romOrFault _ _).bind fun _ _ => (fontRead_romOrFault _ _).bind fun _ _ =>
    (fontRead_romOrFault _ _).bind fun _ _ => (fontRead_romOrFault _ _).bind fun _ _ => .ok _

theorem readHeader_error {c : Config} {base : Nat} (h : c.fontRomSize ≤ base + 5) :
    ∃ a, c.fontRomSize ≤ a ∧ readHeader c base = .error (.fontReadOutOfRom a) := by
  rcases readHeader_romOrFault c base with ⟨hd, e⟩ | e
  · exfalso
    unfold readHeader at e
    rcases fontRead_romOrFault c (base + 2) with ⟨_, e2⟩ | ⟨_, _, e2⟩ <;> rw [e2] at e
    · rcases fontRead_romOrFault c (base + 3) with ⟨_, e3⟩ | ⟨_, _, e3⟩ <;> rw [e3] at e
      · rcases fontRead_romOrFault c (base + 4) with ⟨_, e4⟩ | ⟨_, _, e4⟩ <;> rw [e4] at e
        · rw [fontRead_error h] at e; cases e
        · cases e
      · cases e
    · cases e
  · exact e

/-- The width sum of a table whose first `n` entries are in the ROM. -/
theorem widthSum_ok {c : Config} {table : Nat} {n : Nat} (h : table + n ≤ c.fontRomSize) :
    widthSum c table n = .ok (((List.range n).map (fun k => romByte c (table + k))).sum) := by
  induction n with
  | zero => rfl
  | succ n ih =>
    rw [widthSum, ih (by omega), except_bind_ok, fontRead_ok (show table + n < _ by omega), except_bind_ok,
      List.range_succ]
    simp [romByte]

theorem widthSum_romOrFault (c : Config) (table n : Nat) : RomOrFault c (widthSum c table n) := by
  induction n with
  | zero => exact .ok _
  | succ n ih => exact ih.bind fun _ _ => (fontRead_romOrFault _ _).bind fun _ _ => .ok _

theorem locateGlyph_romOrFault (c : Config) (base code : Nat) : RomOrFault c (locateGlyph c base code) := by
  refine (readHeader_romOrFault c base).bind fun h _ => ?_
  split
  · exact .ok _
  · split
    · exact .ok _
    · exact ((fontRead_romOrFault _ _).bind fun _ _ => (widthSum_romOrFault _ _ _).bind fun _ _ => .ok _).bind
        fun _ _ => .ok _

/-- Some columns of a page: a pixel effect that leaves y alone. -/
theorem streamColumns_effect {n a : Nat} {s t : State} (h : streamColumns a n s = .ok t) :
    PixelEffect s t ∧ t.cursorY = s.cursorY := by
  induction n generalizing a s with
  | zero => cases h; exact ⟨.refl _, rfl⟩
  | succ n ih =>
    unfold streamColumns at h
    rcases fontRead_romOrFault s.cfg a with ⟨b, e⟩ | ⟨_, _, e⟩
    · rw [e] at h
      obtain ⟨he, hy⟩ := ih h
      exact ⟨(writeColumn_effect b s).trans he, hy.trans (writeColumn_cursorY b s)⟩
    · rw [e] at h; cases h

/-- Some columns of a page complete exactly when their bytes are in the ROM. -/
theorem streamColumns_total {n a : Nat} {s : State} :
    ((∀ k, k < n → a + k < s.cfg.fontRomSize) → ∃ t, streamColumns a n s = .ok t) ∧
    (¬(∀ k, k < n → a + k < s.cfg.fontRomSize) →
      ∃ a', s.cfg.fontRomSize ≤ a' ∧ streamColumns a n s = .error (.fontReadOutOfRom a')) := by
  induction n generalizing a s with
  | zero => exact ⟨fun _ => ⟨s, rfl⟩, fun h => absurd (fun k hk => absurd hk (Nat.not_lt_zero k)) h⟩
  | succ n ih =>
    unfold streamColumns
    by_cases h0 : a < s.cfg.fontRomSize
    · rw [fontRead_ok h0, except_bind_ok]
      have hcfg := (writeColumn_effect (s.cfg.fontRom.read a) s).cfg_eq
      have := @ih (a + 1) (writeColumn (s.cfg.fontRom.read a) s)
      rw [hcfg] at this
      constructor
      · intro h
        exact this.1 fun k hk => by have := h (k + 1) (by omega); omega
      · intro h
        refine this.2 fun h' => h fun k hk => ?_
        rcases k with _ | k
        · exact h0
        · have := h' k (by omega); omega
    · rw [fontRead_error (Nat.not_lt.1 h0)]
      exact ⟨fun h => absurd (h 0 (Nat.succ_pos n)) h0, fun _ => ⟨a, Nat.not_lt.1 h0, rfl⟩⟩

/-- Pages of a glyph: a pixel effect. -/
theorem streamPages_effect {w x0 y0 n p a : Nat} {s t : State} (h : streamPages w x0 y0 p a n s = .ok t) :
    PixelEffect s t := by
  induction n generalizing p a s with
  | zero => unfold streamPages at h; cases h; exact .refl _
  | succ n ih =>
    cases n with
    | zero => unfold streamPages at h; exact (streamColumns_effect h).1
    | succ n =>
      unfold streamPages at h
      cases e : streamColumns a w s with
      | error f => rw [e] at h; cases h
      | ok s1 =>
        rw [e, except_bind_ok] at h
        have h1 := (streamColumns_effect e).1
        split at h
        · cases h; exact h1
        · exact h1.trans ((setCursor_effect _ _ _).trans (ih h))

/-- A drawn glyph: a pixel effect that ends with the advance of R203. -/
theorem drawGlyph_effect {g : Glyph} {s t : State} (h : drawGlyph g s = .ok t) :
    PixelEffect s t ∧ t.cursorX = BitVec.ofNat 12 (s.cursorX.toNat + g.width + s.cfg.glyphSpacing.toNat) ∧
      t.cursorY = s.cursorY := by
  unfold drawGlyph at h
  simp only at h
  cases e : streamPages g.width s.cursorX.toNat s.cursorY.toNat 0 (s.fontBase.toNat + g.offset) g.pages s with
  | error f => rw [e] at h; cases h
  | ok s1 =>
    rw [e, except_bind_ok] at h
    cases h
    exact ⟨(streamPages_effect e).trans (setCursor_effect _ _ _), rfl, by simp⟩

/-- What PUTC can do: nothing, or one located glyph drawn with the cursor in bounds. -/
theorem putChar_cases {code : Byte} {s t : State} (h : putChar code s = .ok t) :
    t = s ∨ (s.mayPut code ∧ ∃ g, locateGlyph s.cfg s.fontBase.toNat code.toNat = .ok (some g) ∧
      drawGlyph g s = .ok t) := by
  unfold putChar at h
  split at h
  · cases h; exact .inl rfl
  · rename_i hb
    have hb : s.cfg.inBounds s.cursorX.toNat s.cursorY.toNat = true := by simpa using hb
    split at h
    · cases h; exact .inl rfl
    · rename_i hm
      cases e : locateGlyph s.cfg s.fontBase.toNat code.toNat with
      | error f => rw [e] at h; cases h
      | ok g =>
        rw [e, except_bind_ok] at h
        cases g with
        | none => cases h; exact .inl rfl
        | some g =>
          obtain ⟨hx, hy⟩ := Config.inBounds_iff.1 hb
          exact .inr ⟨⟨hx, hy, Nat.not_lt.1 hm⟩, g, rfl, h⟩

/-- A PUTC that gets past the first two no-op cases goes on to the font. -/
theorem putChar_mayPut {code : Byte} {s : State} (h : s.mayPut code) :
    putChar code s = (locateGlyph s.cfg s.fontBase.toNat code.toNat >>= fun
      | none => .ok s
      | some g => drawGlyph g s) := by
  unfold putChar
  exact (if_neg (by simp [Config.inBounds_iff.2 ⟨h.1, h.2.1⟩])).trans (if_neg (Nat.not_lt.2 h.2.2))

theorem putChar_effect {code : Byte} {s t : State} (h : putChar code s = .ok t) :
    PixelEffect s t ∧ t.cursorY = s.cursorY := by
  rcases putChar_cases h with rfl | ⟨-, g, -, hd⟩
  · exact ⟨.refl _, rfl⟩
  · exact ⟨(drawGlyph_effect hd).1, (drawGlyph_effect hd).2.2⟩

theorem streamColumns_romOrFault (n a : Nat) (s : State) : RomOrFault s.cfg (streamColumns a n s) := by
  by_cases h : ∀ k, k < n → a + k < s.cfg.fontRomSize
  · exact .inl (streamColumns_total.1 h)
  · exact .inr (streamColumns_total.2 h)

theorem streamPages_romOrFault (w x0 y0 n p a : Nat) (s : State) : RomOrFault s.cfg (streamPages w x0 y0 p a n s) := by
  induction n generalizing p a s with
  | zero => unfold streamPages; exact .ok s
  | succ n ih =>
    cases n with
    | zero => unfold streamPages; exact streamColumns_romOrFault w a s
    | succ n =>
      unfold streamPages
      refine (streamColumns_romOrFault w a s).bind fun s1 e => ?_
      split
      · exact .ok s1
      · have := ih (p + 1) (a + w) (pageCursor x0 y0 (p + 1) s1)
        rwa [show (pageCursor x0 y0 (p + 1) s1).cfg = s.cfg from (streamColumns_effect e).1.cfg_eq] at this

theorem putChar_romOrFault (code : Byte) (s : State) : RomOrFault s.cfg (putChar code s) := by
  unfold putChar
  split
  · exact .ok s
  · split
    · exact .ok s
    · refine (locateGlyph_romOrFault _ _ _).bind fun g _ => ?_
      cases g with
      | none => exact .ok s
      | some g => exact (streamPages_romOrFault _ _ _ _ _ _ s).bind fun _ _ => .ok _

end Sys2Proof.Machine
end

