-- ==== Sys2Proof/Laws/Exec.lean ====
section
/-! SUPPORT. Sys2Proof/Laws/Exec.lean: what a bus event and a host operation can do, said once over `exec`; later proofs
cite these case lemmas and do not open the meanings. -/

namespace Sys2Proof.Machine

theorem exec_putc_next {code : Byte} {s t : State} (h : exec (.putc code) s = .next t) :
    ∃ u, putChar code s = .ok u ∧ t = withResult 0 u := by
  change execPutc code s = _ at h
  unfold execPutc at h
  split at h
  · cases h; exact ⟨_, ‹_›, rfl⟩
  · cases h

theorem exec_glyphInfo_next {code : Byte} {s t : State} (h : exec (.glyphInfo code) s = .next t) :
    ∃ g, locateGlyph s.cfg s.fontBase.toNat code.toNat = .ok g ∧ t = withResult (glyphInfoWord g) s := by
  change execGlyphInfo code s = _ at h
  unfold execGlyphInfo at h
  split at h
  · cases h; exact ⟨_, ‹_›, rfl⟩
  · cases h

theorem exec_glyphOff_next {code : Byte} {s t : State} (h : exec (.glyphOff code) s = .next t) :
    ∃ g, locateGlyph s.cfg s.fontBase.toNat code.toNat = .ok g ∧ t = withResult (glyphOffWord g) s := by
  change execGlyphOff code s = _ at h
  unfold execGlyphOff at h
  split at h
  · cases h; exact ⟨_, ‹_›, rfl⟩
  · cases h

/-- A meaning with a range check: badop outside the range, else the result word alone. -/
theorem rangeChecked_next {ok : Bool} {v : HostWord} {s t : State}
    (h : (if ok then Host.Outcome.next (withResult v s) else .next (badop s) : StepResult) = .next t) :
    (ok = false ∧ t = badop s) ∨ (ok = true ∧ t = withResult t.result s) := by
  cases ok
  · cases h; exact .inl ⟨rfl, rfl⟩
  · cases h; exact .inr ⟨rfl, rfl⟩

/-- What a host operation changes beside the result word: nothing, or the one thing that its name says. -/
inductive HostEffect (s : State) : Instr → State → Prop where
  | none (i : Instr) : HostEffect s i s
  | reset : HostEffect s .fsReset (clearFrameSet s)
  | capture (h : s.ready = true) :
      HostEffect s .fsCapture (clearFrameSet { s with snap := s.live, snapValid := true })
  | cursor (x y : Coord) : HostEffect s (.curSet x y) { s with cursorX := x, cursorY := y }
  | font (a : FontAddr) : HostEffect s (.fontSet a) { s with fontBase := a }
  | column (b : Byte) : HostEffect s (.colWr b) (writeColumn b s)
  | char (code : Byte) {u : State} (h : putChar code s = .ok u) : HostEffect s (.putc code) u

/-- What a host operation can answer as a next state: the badop of R96, or its effect with the result word set. -/
theorem exec_host_cases {i : Instr} {s t : State} (hi : i.isBus = false) (h : exec i s = .next t) :
    (i.misuse = true ∧ t = badop s) ∨
    (i.misuse = false ∧ ∃ u, HostEffect s i u ∧ t = withResult t.result u) := by
  have checked : ∀ {ok : Bool} {v : HostWord}, i.misuse = !ok →
      (if ok then Host.Outcome.next (withResult v s) else .next (badop s) : StepResult) = .next t →
      (i.misuse = true ∧ t = badop s) ∨
      (i.misuse = false ∧ ∃ u, HostEffect s i u ∧ t = withResult t.result u) := by
    intro ok v hm e
    rcases rangeChecked_next e with ⟨rfl, ht⟩ | ⟨rfl, ht⟩
    · exact .inl ⟨hm, ht⟩
    · exact .inr ⟨hm, s, .none i, ht⟩
  have range : ∀ a b : Nat, decide (a ≤ b) = !decide (b < a) := fun a b => by
    rw [← decide_not]; exact decide_eq_decide.2 Nat.not_lt.symm
  cases i with
  | busCmdA | busCmdB | busCmdC | busCmdAnn | busCmdIgn | busCmdUnrec | busData => cases hi
  | reserved => cases h; exact .inl ⟨rfl, rfl⟩
  | regRd r idx => exact checked (range _ _) h
  | snapRd r idx => exact checked (range _ _) h
  | digit pos => exact checked (range _ _) h
  | punct pos => exact checked (range _ _) h
  | ann pos => exact checked (range _ _) h
  | putc code => obtain ⟨u, hu, rfl⟩ := exec_putc_next h; exact .inr ⟨rfl, u, .char code hu, rfl⟩
  | glyphInfo code => obtain ⟨g, -, rfl⟩ := exec_glyphInfo_next h; exact .inr ⟨rfl, s, .none _, rfl⟩
  | glyphOff code => obtain ⟨g, -, rfl⟩ := exec_glyphOff_next h; exact .inr ⟨rfl, s, .none _, rfl⟩
  | fsCapture =>
    change execFsCapture s = _ at h
    unfold execFsCapture at h
    split at h <;> cases h
    · exact .inr ⟨rfl, _, .capture ‹_›, rfl⟩
    · exact .inr ⟨rfl, s, .none _, rfl⟩
  | fsReset => cases h; exact .inr ⟨rfl, _, .reset, rfl⟩
  | curSet x y => cases h; exact .inr ⟨rfl, _, .cursor x y, rfl⟩
  | fontSet a => cases h; exact .inr ⟨rfl, _, .font a, rfl⟩
  | colWr b => cases h; exact .inr ⟨rfl, _, .column b, rfl⟩
  | nop | status | fsReady | annMask | curRd | fontRd | chipRes => cases h; exact .inr ⟨rfl, s, .none _, rfl⟩

/-- What a bus event can answer as a next state: a command byte selects a register and its full length, or nothing; a
data byte does what `execBusData_next` says. -/
theorem exec_bus_cases {i : Instr} {s t : State} (hi : i.isBus = true) (h : exec i s = .next t) :
    t = selectTarget none 0 s ∨
    (∃ (r : RegId) (n : BitVec 3), n.toNat = r.len ∧ t = selectTarget (some r) n s) ∨
    (∃ v, i = .busData v ∧ execBusData v s = .next t) := by
  cases i with
  | busData v => exact .inr (.inr ⟨v, rfl, h⟩)
  | busCmdA => cases h; exact .inr (.inl ⟨.A, 6, rfl, rfl⟩)
  | busCmdB => cases h; exact .inr (.inl ⟨.B, 6, rfl, rfl⟩)
  | busCmdC => cases h; exact .inr (.inl ⟨.C, 6, rfl, rfl⟩)
  | busCmdAnn => cases h; exact .inr (.inl ⟨.ANN, 2, rfl, rfl⟩)
  | busCmdIgn | busCmdUnrec => cases h; exact .inl rfl
  | nop | status | fsReady | fsReset | fsCapture | regRd | snapRd | digit | punct | ann | annMask | curSet | curRd
  | colWr | putc | fontSet | fontRd | glyphInfo | glyphOff | chipRes | reserved => cases hi

/-- A host effect is a pixel effect, or it leaves the display and DLOG alone. -/
theorem HostEffect.pixel_or_same {s u : State} {i : Instr} (h : HostEffect s i u) :
    PixelEffect s u ∨ (u.display = s.display ∧ u.dlog = s.dlog) := by
  cases h with
  | column b => exact .inl (writeColumn_effect b s)
  | char code h => exact .inl (putChar_effect h).1
  | none => exact .inr ⟨rfl, rfl⟩
  | reset => exact .inr ⟨rfl, rfl⟩
  | capture => exact .inr ⟨rfl, rfl⟩
  | cursor => exact .inr ⟨rfl, rfl⟩
  | font => exact .inr ⟨rfl, rfl⟩

end Sys2Proof.Machine
end

