-- ==== Sys2Proof/Laws/Draw.lean ====
section
/-! SUPPORT. Sys2Proof/Laws/Draw.lean: the bytes that a column write and a run of columns leave in the display, the widths
of located glyphs, and exactly when a glyph's pages are all in the ROM. -/

namespace Sys2Proof.Machine

theorem Config.geometryWf_of_wf {c : Config} (h : c.wf = true) : c.geometryWf = true := by
  simp only [Config.wf, Bool.and_eq_true] at h
  exact h.1.2

/-- The edges of a display that meets R9 are below 2048. -/
theorem Config.edges_lt {c : Config} (h : c.geometryWf = true) : c.displayRight < 2048 ∧ c.displayBottom < 2048 := by
  simp only [Config.geometryWf, Bool.and_eq_true, decide_eq_true_eq] at h
  unfold Config.displayRight Config.displayBottom
  omega

/-- What a column write of `b` at row `y` of a display with bottom edge `bottom` makes of the byte `old` of a page under
it (R233, R234). -/
def mergedByte (bottom y : Nat) (b : Byte) (page : Nat) (old : Byte) : Byte :=
  if y % 8 = 0 then (if page = y / 8 then b else old)
  else if page = y / 8 then old ||| b <<< (y % 8)
  else if page = y / 8 + 1 ∧ y + 8 ≤ bottom then old ||| b >>> (8 - y % 8)
  else old

/-- Every byte of the display after a column write at a resolved cell column. -/
theorem writeColumnAt_cell {s : State} (b : Byte) {chip chip' : ChipId} {lx lx' page : Nat} (hw : s.display.wf = true)
    (hl : lx < 4096) (hl' : lx' < 4096) :
    (writeColumnAt chip lx b s).display.cell chip' page lx' =
      if chip' = chip ∧ lx' = lx then
        mergedByte s.cfg.displayBottom s.cursorY.toNat b page (s.display.cell chip' page lx')
      else s.display.cell chip' page lx' := by
  have hw1 := Display.setCell_wf hw chip (s.cursorY.toNat / 8) lx
    (s.display.cell chip (s.cursorY.toNat / 8) lx ||| b <<< (s.cursorY.toNat % 8))
  unfold writeColumnAt
  dsimp only
  by_cases hc : chip' = chip ∧ lx' = lx
  · obtain ⟨rfl, rfl⟩ := hc
    rw [if_pos (show chip' = chip' ∧ lx' = lx' from ⟨rfl, rfl⟩), mergedByte]
    by_cases h0 : s.cursorY.toNat % 8 = 0
    · rw [if_pos h0, if_pos h0]
      simp only [advanceColumn_display, dispWrite_display]
      by_cases hp : page = s.cursorY.toNat / 8
      · rw [if_pos hp, hp, Display.cell_setCell_same hw]
      · rw [if_neg hp, Display.cell_setCell_other _ _ hl hl (by simp [hp])]
    · rw [if_neg h0, if_neg h0]
      by_cases hb : s.cursorY.toNat + 8 > s.cfg.displayBottom
      · rw [if_pos hb]
        simp only [advanceColumn_display, mergeCell_display]
        by_cases hp : page = s.cursorY.toNat / 8
        · rw [if_pos hp, hp, Display.cell_setCell_same hw]
        · rw [if_neg hp, if_neg (by omega), Display.cell_setCell_other _ _ hl hl (by simp [hp])]
      · rw [if_neg hb]
        simp only [advanceColumn_display, mergeCell_display]
        by_cases hp : page = s.cursorY.toNat / 8
        · rw [if_pos hp, hp, Display.cell_setCell_other _ _ hl hl (by simp), Display.cell_setCell_same hw]
        · rw [if_neg hp]
          by_cases hq : page = s.cursorY.toNat / 8 + 1
          · rw [if_pos ⟨hq, by omega⟩, hq, Display.cell_setCell_same hw1,
              Display.cell_setCell_other _ _ hl hl (by simp)]
          · rw [if_neg (fun h => hq h.1), Display.cell_setCell_other _ _ hl hl (by simp [hq]),
              Display.cell_setCell_other _ _ hl hl (by simp [hp])]
  · have hne : ∀ p, (chip', page, lx') ≠ (chip, p, lx) := fun p e => by
      simp only [Prod.mk.injEq] at e; exact hc ⟨e.1, e.2.2⟩
    rw [if_neg hc]
    split
    · simp only [advanceColumn_display, dispWrite_display]
      exact Display.cell_setCell_other _ _ hl hl' (hne _)
    · split
      · simp only [advanceColumn_display, mergeCell_display]
        exact Display.cell_setCell_other _ _ hl hl' (hne _)
      · simp only [advanceColumn_display, mergeCell_display]
        rw [Display.cell_setCell_other _ _ hl hl' (hne _), Display.cell_setCell_other _ _ hl hl' (hne _)]

theorem shiftLeft_eq_mul (b : Byte) (n : Nat) : b <<< n = BitVec.ofNat 8 (b.toNat * 2 ^ n) := by
  apply BitVec.eq_of_toNat_eq
  simp [Nat.shiftLeft_eq]

theorem shiftRight_eq_div (b : Byte) (n : Nat) : b >>> n = BitVec.ofNat 8 (b.toNat / 2 ^ n) := by
  apply BitVec.eq_of_toNat_eq
  rw [BitVec.toNat_ushiftRight, BitVec.toNat_ofNat, Nat.shiftRight_eq_div_pow, Nat.mod_eq_of_lt]
  exact Nat.lt_of_le_of_lt (Nat.div_le_self _ _) b.isLt

/-- The transactions of a column write at a resolved cell column (R240). -/
theorem writeColumnAt_dlog (s : State) (b : Byte) {chip : ChipId} {lx : Nat} (hl : lx < 4096) :
    (writeColumnAt chip lx b s).dlog = s.dlog ++ columnTransactions s.cfg.displayBottom chip lx s.cursorY.toNat b
      (s.display.cell chip (s.cursorY.toNat / 8) lx) (s.display.cell chip (s.cursorY.toNat / 8 + 1) lx) := by
  unfold writeColumnAt columnTransactions
  simp only [shiftLeft_eq_mul, shiftRight_eq_div]
  split
  · rfl
  · split
    · simp only [advanceColumn_dlog, mergeCell_dlog, List.append_assoc]
      rfl
    · simp only [advanceColumn_dlog, mergeCell_dlog, mergeCell_display, List.append_assoc]
      rw [Display.cell_setCell_other _ _ hl hl (by simp)]
      rfl

/-- The column writer in bounds: x advances by 1, and every byte of the display. -/
theorem writeColumn_inBounds {s : State} (b : Byte) {chip : ChipId} {page lx : Nat} (hw : s.display.wf = true)
    (hx : s.cursorX.toNat ≤ s.cfg.displayRight) (hy : s.cursorY.toNat ≤ s.cfg.displayBottom) (hl : lx < 4096) :
    (writeColumn b s).cursorX = BitVec.ofNat 12 (s.cursorX.toNat + 1) ∧
    (writeColumn b s).display.cell chip page lx =
      if resolveChip s.cfg s.cursorX.toNat = some (chip, lx) then
        mergedByte s.cfg.displayBottom s.cursorY.toNat b page (s.display.cell chip page lx)
      else s.display.cell chip page lx := by
  rcases writeColumn_cases b s with ⟨h, -⟩ | ⟨-, -, chip', lx', hr, e⟩
  · exact absurd ⟨hx, hy⟩ h
  · rw [e, (writeColumnAt_cursor chip' lx' b s).1,
      writeColumnAt_cell b hw (Nat.lt_of_le_of_lt (resolveChip_le hr) s.cursorX.isLt) hl, hr]
    refine ⟨rfl, ?_⟩
    by_cases hc : chip = chip' ∧ lx = lx'
    · rw [if_pos hc, if_pos (by rw [hc.1, hc.2])]
    · rw [if_neg hc, if_neg (fun h => hc (by
        simp only [Option.some.injEq, Prod.mk.injEq] at h; exact ⟨h.1.symm, h.2.symm⟩))]

/-- The column writer to the right of the display: nothing. -/
theorem writeColumn_right {s : State} (b : Byte) (hx : s.cfg.displayRight < s.cursorX.toNat) : writeColumn b s = s := by
  rcases writeColumn_cases b s with ⟨-, e⟩ | ⟨h, -⟩
  · exact e
  · omega

/-- A run of columns: each column of the display under the run is merged with its byte, every other cell is unchanged. -/
theorem streamColumns_cells {n a : Nat} {s t : State} (hg : s.cfg.geometryWf = true) (hw : s.display.wf = true)
    (hy : s.cursorY.toNat ≤ s.cfg.displayBottom) (h : streamColumns a n s = .ok t) (chip : ChipId) (page : Nat)
    {lx : Nat} (hl : lx < 4096) :
    (∀ X, resolveChip s.cfg X = some (chip, lx) → s.cursorX.toNat ≤ X → X < s.cursorX.toNat + n →
      t.display.cell chip page lx = mergedByte s.cfg.displayBottom s.cursorY.toNat
        (s.cfg.fontRom.read (a + (X - s.cursorX.toNat))) page (s.display.cell chip page lx)) ∧
    ((∀ X, resolveChip s.cfg X = some (chip, lx) → ¬(s.cursorX.toNat ≤ X ∧ X < s.cursorX.toNat + n)) →
      t.display.cell chip page lx = s.display.cell chip page lx) := by
  induction n generalizing a s with
  | zero => cases h; exact ⟨fun X _ h1 h2 => by omega, fun _ => rfl⟩
  | succ n ih =>
    unfold streamColumns at h
    by_cases ha : a < s.cfg.fontRomSize
    · rw [fontRead_ok ha, except_bind_ok] at h
      by_cases hx : s.cursorX.toNat ≤ s.cfg.displayRight
      · obtain ⟨hcx, hcell⟩ := writeColumn_inBounds (s.cfg.fontRom.read a) (chip := chip) (page := page) hw hx hy hl
        have he := writeColumn_effect (s.cfg.fontRom.read a) s
        have hcy := writeColumn_cursorY (s.cfg.fontRom.read a) s
        have hR := Config.edges_lt hg
        have hcx' : (writeColumn (s.cfg.fontRom.read a) s).cursorX.toNat = s.cursorX.toNat + 1 := by
          rw [hcx, BitVec.toNat_ofNat, Nat.mod_eq_of_lt]; omega
        have := ih (by rw [he.cfg_eq]; exact hg) (he.wf hw) (by rw [he.cfg_eq, hcy]; exact hy) h
        rw [he.cfg_eq, hcy, hcx', hcell] at this
        obtain ⟨i1, i2⟩ := this
        constructor
        · intro X hX h1 h2
          rcases Nat.eq_or_lt_of_le h1 with e1 | e1
          · subst e1
            rw [if_pos hX] at i2
            rw [i2 fun X' hX' => by rw [resolveChip_inj hX' hX]; omega]
            simp
          · rw [i1 X hX (by omega) (by omega), if_neg fun hh => by have := resolveChip_inj hh hX; omega,
              show a + 1 + (X - (s.cursorX.toNat + 1)) = a + (X - s.cursorX.toNat) by omega]
        · intro hn
          rw [i2 fun X hX hh => hn X hX (by omega), if_neg fun hh => hn _ hh (by omega)]
      · rw [writeColumn_right _ (Nat.not_le.1 hx)] at h
        have := ih hg hw hy h
        refine ⟨fun X hX h1 h2 => ?_, fun hn => this.2 fun X hX => ?_⟩
        · have := (resolveChip_spec hg hX).2.2; omega
        · have := (resolveChip_spec hg hX).2.2; omega
    · rw [fontRead_error (Nat.not_lt.1 ha)] at h; cases h

/-- The transactions of column c of a run of columns from font address a: one column write on the display before the run. -/
def runTransactions (s : State) (a c : Nat) : List Transaction :=
  match resolveChip s.cfg (s.cursorX.toNat + c) with
  | none => []
  | some (chip, lx) => columnTransactions s.cfg.displayBottom chip lx s.cursorY.toNat (s.cfg.fontRom.read (a + c))
      (s.display.cell chip (s.cursorY.toNat / 8) lx) (s.display.cell chip (s.cursorY.toNat / 8 + 1) lx)

theorem runTransactions_some {s : State} {c lx : Nat} {chip : ChipId} (a : Nat)
    (h : resolveChip s.cfg (s.cursorX.toNat + c) = some (chip, lx)) :
    runTransactions s a c = columnTransactions s.cfg.displayBottom chip lx s.cursorY.toNat (s.cfg.fontRom.read (a + c))
      (s.display.cell chip (s.cursorY.toNat / 8) lx) (s.display.cell chip (s.cursorY.toNat / 8 + 1) lx) := by
  unfold runTransactions; rw [h]

theorem runTransactions_none {s : State} {c : Nat} (a : Nat) (h : resolveChip s.cfg (s.cursorX.toNat + c) = none) :
    runTransactions s a c = [] := by
  unfold runTransactions; rw [h]

/-- The columns of a run after its first: that column's write leaves theirs as they were, since no two columns share a
cell. -/
theorem runTransactions_tail {s : State} {a lx : Nat} {chip : ChipId} (hg : s.cfg.geometryWf = true)
    (hw : s.display.wf = true) (hy : s.cursorY.toNat ≤ s.cfg.displayBottom)
    (hr : resolveChip s.cfg s.cursorX.toNat = some (chip, lx)) (b : Byte) (c : Nat) :
    runTransactions (writeColumn b s) (a + 1) c = runTransactions s a (c + 1) := by
  obtain ⟨-, -, hx⟩ := resolveChip_spec hg hr
  have hR := Config.edges_lt hg
  have hcfg := (writeColumn_effect b s).cfg_eq
  have hcx : (writeColumn b s).cursorX.toNat = s.cursorX.toNat + 1 := by
    rw [(writeColumn_inBounds b (chip := chip) (page := 0) (lx := 0) hw hx hy (by decide)).1, BitVec.toNat_ofNat,
      Nat.mod_eq_of_lt]
    omega
  have hc : (writeColumn b s).cursorX.toNat + c = s.cursorX.toNat + (c + 1) := by omega
  cases h : resolveChip s.cfg (s.cursorX.toNat + (c + 1)) with
  | none => rw [runTransactions_none a h, runTransactions_none _ (by rw [hcfg, hc]; exact h)]
  | some r =>
    obtain ⟨chip', lx'⟩ := r
    have hl : lx' < 4096 := by have := resolveChip_le h; have := (resolveChip_spec hg h).2.2; omega
    have hne : ¬resolveChip s.cfg s.cursorX.toNat = some (chip', lx') := fun h' => by
      have := resolveChip_inj h h'; omega
    rw [runTransactions_some a h, runTransactions_some (a + 1) (by rw [hcfg, hc]; exact h), hcfg, writeColumn_cursorY,
      (writeColumn_inBounds b hw hx hy hl).2, (writeColumn_inBounds b hw hx hy hl).2, if_neg hne, if_neg hne,
      show a + 1 + c = a + (c + 1) by omega]

/-- The transactions of a run of columns, from the left to the right. -/
theorem streamColumns_dlog {n a : Nat} {s t : State} (hg : s.cfg.geometryWf = true) (hw : s.display.wf = true)
    (hy : s.cursorY.toNat ≤ s.cfg.displayBottom) (h : streamColumns a n s = .ok t) :
    t.dlog = s.dlog ++ (List.range n).flatMap (runTransactions s a) := by
  induction n generalizing a s with
  | zero => cases h; simp
  | succ n ih =>
    unfold streamColumns at h
    by_cases ha : a < s.cfg.fontRomSize
    · rw [fontRead_ok ha, except_bind_ok] at h
      rcases writeColumn_cases (s.cfg.fontRom.read a) s with ⟨hx, e⟩ | ⟨hx, -, chip, lx, hr, e⟩
      · have out : ∀ a, runTransactions s a = fun _ => [] := fun a => funext fun c => by
          cases hr : resolveChip s.cfg (s.cursorX.toNat + c) with
          | none => exact runTransactions_none a hr
          | some r => have := (resolveChip_spec hg hr).2.2; omega
        rw [e] at h
        rw [ih hg hw hy h, List.range_succ_eq_map, List.flatMap_cons, List.flatMap_map, out, out]
        rfl
      · have he := writeColumn_effect (s.cfg.fontRom.read a) s
        rw [ih (by rw [he.cfg_eq]; exact hg) (he.wf hw) (by rw [he.cfg_eq, writeColumn_cursorY]; exact hy) h,
          List.range_succ_eq_map, List.flatMap_cons, List.flatMap_map, runTransactions_some (c := 0) a hr,
          show runTransactions (writeColumn _ s) (a + 1) = _ from funext (runTransactions_tail hg hw hy hr _), e,
          writeColumnAt_dlog s _ (Nat.lt_of_le_of_lt (resolveChip_le hr) s.cursorX.isLt), List.append_assoc]
        rfl
    · rw [fontRead_error (Nat.not_lt.1 ha)] at h; cases h

/-- A located glyph is at most 255 columns wide. -/
theorem locateGlyph_width {c : Config} {base code : Nat} {g : Glyph} (h : locateGlyph c base code = .ok (some g)) :
    g.width ≤ 255 := by
  have byte : ∀ b : Byte, b.toNat ≤ 255 := fun b => Nat.le_of_lt_succ b.isLt
  unfold locateGlyph at h
  rcases Nat.lt_or_ge (base + 5) c.fontRomSize with hb | hb
  · rw [readHeader_ok hb, except_bind_ok] at h
    split at h
    · cases h
    · split at h
      · cases h; exact byte _
      · unfold variableGlyph at h
        rcases fontRead_romOrFault c (base + tableOffset + (code - (romHeader c base).first)) with ⟨b, e⟩ | ⟨_, _, e⟩
        · rw [e] at h
          rcases widthSum_romOrFault c (base + tableOffset) (code - (romHeader c base).first) with ⟨n, e'⟩ | ⟨_, _, e'⟩
          · rw [e'] at h; cases h; exact byte b
          · rw [e'] at h; cases h
        · rw [e] at h; cases h
  · obtain ⟨a, -, e⟩ := readHeader_error hb
    rw [e] at h; cases h

/-- The pages of a glyph complete exactly when the bytes of its streamed pages are in the ROM. -/
theorem streamPages_total {w x0 y0 n p a : Nat} {s : State} (hy : y0 + 8 * p ≤ s.cfg.displayBottom) :
    ((∀ k, k < min n ((s.cfg.displayBottom - (y0 + 8 * p)) / 8 + 1) * w → a + k < s.cfg.fontRomSize) →
      ∃ t, streamPages w x0 y0 p a n s = .ok t) ∧
    (¬(∀ k, k < min n ((s.cfg.displayBottom - (y0 + 8 * p)) / 8 + 1) * w → a + k < s.cfg.fontRomSize) →
      ∃ a', s.cfg.fontRomSize ≤ a' ∧ streamPages w x0 y0 p a n s = .error (.fontReadOutOfRom a')) := by
  induction n generalizing p a s with
  | zero =>
    unfold streamPages
    exact ⟨fun _ => ⟨s, rfl⟩, fun h => absurd (fun k hk => by simp at hk) h⟩
  | succ n ih =>
    cases n with
    | zero =>
      unfold streamPages
      rw [Nat.min_eq_left (by omega), Nat.zero_add, Nat.one_mul]
      exact streamColumns_total
    | succ n =>
      unfold streamPages
      have tot := @streamColumns_total w a s
      by_cases hin : ∀ k, k < w → a + k < s.cfg.fontRomSize
      · obtain ⟨s1, e⟩ := tot.1 hin
        have hcfg : (pageCursor x0 y0 (p + 1) s1).cfg = s.cfg := (streamColumns_effect e).1.cfg_eq
        rw [e, except_bind_ok]
        by_cases hb : y0 + 8 * (p + 1) > s.cfg.displayBottom
        · rw [if_pos hb, show (s.cfg.displayBottom - (y0 + 8 * p)) / 8 + 1 = 1 by omega, Nat.min_eq_right (by omega),
            Nat.one_mul]
          exact ⟨fun _ => ⟨_, rfl⟩, fun h => absurd hin h⟩
        · rw [if_neg hb]
          have := ih (s := pageCursor x0 y0 (p + 1) s1) (a := a + w) (p := p + 1) (by rw [hcfg]; omega)
          rw [hcfg] at this
          rw [show min (n + 1 + 1) ((s.cfg.displayBottom - (y0 + 8 * p)) / 8 + 1) =
            min (n + 1) ((s.cfg.displayBottom - (y0 + 8 * (p + 1))) / 8 + 1) + 1 by omega]
          generalize min (n + 1) ((s.cfg.displayBottom - (y0 + 8 * (p + 1))) / 8 + 1) = m at *
          have iff : (∀ k, k < (m + 1) * w → a + k < s.cfg.fontRomSize) ↔
              (∀ k, k < m * w → a + w + k < s.cfg.fontRomSize) := by
            rw [Nat.succ_mul]
            constructor
            · intro h k hk; have := h (w + k) (by omega); omega
            · intro h k hk
              by_cases hk' : k < w
              · exact hin k hk'
              · have := h (k - w) (by omega); omega
          rw [iff]; exact this
      · obtain ⟨a', h1, h2⟩ := tot.2 hin
        rw [h2]
        refine ⟨fun h => absurd (fun k hk => h k ?_) hin, fun _ => ⟨a', h1, rfl⟩⟩
        have : 1 ≤ min (n + 1 + 1) ((s.cfg.displayBottom - (y0 + 8 * p)) / 8 + 1) := by omega
        exact Nat.lt_of_lt_of_le hk (by simpa using Nat.mul_le_mul_right w this)

end Sys2Proof.Machine
end

