-- ==== Sys2Proof/Laws/PerInstr.lean ====
section
/-! SUPPORT. Sys2Proof/Laws/PerInstr.lean: statements about every operation as syntax, one lemma for each constructor of Instr. -/

namespace Sys2Proof.Laws.EncodingMatchesTable

/-- `mask` and `match` of an operation's row of spec/opcode_table.json. -/
inductive Row where
  | bus (mask value : BusWord)
  | host (mask value : HostWord)

/-- The row of each operation. RESERVED matches any opcode from 0x14 on; its value here is the opcode's own. -/
def row (c : Config) : Instr → Row
  | .busCmdA => .bus 0x1FF (0x100 ||| c.cmdA.setWidth 9)
  | .busCmdB => .bus 0x1FF (0x100 ||| c.cmdB.setWidth 9)
  | .busCmdC => .bus 0x1FF (0x100 ||| c.cmdC.setWidth 9)
  | .busCmdAnn => .bus 0x1FF (0x100 ||| c.cmdAnn.setWidth 9)
  | .busCmdIgn v => .bus 0x1FF (0x100 ||| v.setWidth 9)
  | .busCmdUnrec _ => .bus 0x100 0x100
  | .busData _ => .bus 0x100 0x000
  | .nop => .host 0xFF000000 0x00000000
  | .status => .host 0xFF000000 0x01000000
  | .fsReady => .host 0xFF000000 0x02000000
  | .fsReset => .host 0xFF000000 0x03000000
  | .fsCapture => .host 0xFF000000 0x04000000
  | .regRd _ _ => .host 0xFF000000 0x05000000
  | .snapRd _ _ => .host 0xFF000000 0x06000000
  | .digit _ => .host 0xFF000000 0x07000000
  | .punct _ => .host 0xFF000000 0x08000000
  | .ann _ => .host 0xFF000000 0x09000000
  | .annMask => .host 0xFF000000 0x0A000000
  | .curSet _ _ => .host 0xFF000000 0x0B000000
  | .curRd => .host 0xFF000000 0x0C000000
  | .colWr _ => .host 0xFF000000 0x0D000000
  | .putc _ => .host 0xFF000000 0x0E000000
  | .fontSet _ => .host 0xFF000000 0x0F000000
  | .fontRd => .host 0xFF000000 0x10000000
  | .glyphInfo _ => .host 0xFF000000 0x11000000
  | .glyphOff _ => .host 0xFF000000 0x12000000
  | .chipRes _ => .host 0xFF000000 0x13000000
  | .reserved opc => .host 0xFF000000 (opc.setWidth 32 <<< 24)

/-- The word is of the row's kind, and its masked bits are the row's value. -/
def Row.matches : Row → InputWord → Prop
  | .bus mask value, .bus w => w &&& mask = value
  | .host mask value, .host w => w &&& mask = value
  | .bus _ _, .host _ => False
  | .host _ _, .bus _ => False

/-- The word of an operation matches its row of the opcode table, whatever the operands and the command bytes. -/
def Statement (i : Instr) : Prop := ∀ c : Config, (row c i).matches (encode c i)

theorem command (v : Byte) : commandWord v &&& 0x1FF = 0x100 ||| v.setWidth 9 := by revert v; decide

theorem command_phase (v : Byte) : commandWord v &&& 0x100 = 0x100 := by revert v; decide

theorem data_phase (v : Byte) : dataWord v &&& 0x100 = 0x000 := by revert v; decide

/-- The opcode of a host word is the top byte, whatever the operand. -/
theorem opcode (opc : Byte) (opd : BitVec 24) : (hostWord opc opd &&& 0xFF000000 : HostWord) = opc.setWidth 32 <<< 24 := by
  apply BitVec.eq_of_getLsbD_eq
  intro k hk
  have hm : (0xFF000000 : HostWord).getLsbD k = decide (24 ≤ k) := by
    have : ∀ k : Fin 32, (0xFF000000 : HostWord).getLsbD k = decide (24 ≤ k.val) := by decide
    exact this ⟨k, hk⟩
  rw [BitVec.getLsbD_and, hm]
  unfold hostWord
  rw [BitVec.getLsbD_append, BitVec.getLsbD_shiftLeft, BitVec.getLsbD_setWidth]
  rcases Nat.lt_or_ge k 24 with h | h
  · simp [h]
  · simp [h, hk, Nat.not_lt.2 h]; omega

theorem busCmdA : Statement .busCmdA := fun _ => command _
theorem busCmdB : Statement .busCmdB := fun _ => command _
theorem busCmdC : Statement .busCmdC := fun _ => command _
theorem busCmdAnn : Statement .busCmdAnn := fun _ => command _
theorem busCmdIgn (v : Byte) : Statement (.busCmdIgn v) := fun _ => command v
theorem busCmdUnrec (v : Byte) : Statement (.busCmdUnrec v) := fun _ => command_phase v
theorem busData (v : Byte) : Statement (.busData v) := fun _ => data_phase v
theorem nop : Statement .nop := fun _ => opcode 0x00 _
theorem status : Statement .status := fun _ => opcode 0x01 _
theorem fsReady : Statement .fsReady := fun _ => opcode 0x02 _
theorem fsReset : Statement .fsReset := fun _ => opcode 0x03 _
theorem fsCapture : Statement .fsCapture := fun _ => opcode 0x04 _
theorem regRd (r : RegId) (idx : BitVec 3) : Statement (.regRd r idx) := fun _ => opcode 0x05 _
theorem snapRd (r : RegId) (idx : BitVec 3) : Statement (.snapRd r idx) := fun _ => opcode 0x06 _
theorem digit (pos : BitVec 4) : Statement (.digit pos) := fun _ => opcode 0x07 _
theorem punct (pos : BitVec 4) : Statement (.punct pos) := fun _ => opcode 0x08 _
theorem ann (pos : BitVec 4) : Statement (.ann pos) := fun _ => opcode 0x09 _
theorem annMask : Statement .annMask := fun _ => opcode 0x0A _
theorem curSet (x y : Coord) : Statement (.curSet x y) := fun _ => opcode 0x0B _
theorem curRd : Statement .curRd := fun _ => opcode 0x0C _
theorem colWr (b : Byte) : Statement (.colWr b) := fun _ => opcode 0x0D _
theorem putc (code : Byte) : Statement (.putc code) := fun _ => opcode 0x0E _
theorem fontSet (addr : FontAddr) : Statement (.fontSet addr) := fun _ => opcode 0x0F _
theorem fontRd : Statement .fontRd := fun _ => opcode 0x10 _
theorem glyphInfo (code : Byte) : Statement (.glyphInfo code) := fun _ => opcode 0x11 _
theorem glyphOff (code : Byte) : Statement (.glyphOff code) := fun _ => opcode 0x12 _
theorem chipRes (x : Coord) : Statement (.chipRes x) := fun _ => opcode 0x13 _
theorem reserved (opc : Byte) : Statement (.reserved opc) := fun _ => opcode opc _

end Sys2Proof.Laws.EncodingMatchesTable
end

