-- ==== Sys2Proof/Tests/Slice0.lean ====
section
/-! SUPPORT. Sys2Proof/Tests/Slice0.lean: tests with values from spec/95_test_vectors.md and the examples of the rules, and a
witness for each obligation that has hypotheses. The reference configuration is that of State.reset. -/

namespace Sys2Proof.Tests

open Sys2Proof Sys2Proof.Machine

/-! ### WellFormed refuses ill-formed terms -/

theorem test_wf_reference : Config.reference.wf = true := by decide +kernel

theorem test_wf_ignored_command :
    (Instr.busCmdIgn 0x04).wf Config.reference = false ∧ (Instr.busCmdIgn 0x0A).wf Config.reference = false ∧
    (Instr.busCmdIgn 0x03).wf Config.reference = true :=
  by decide

theorem test_wf_unrecognized_command :
    (Instr.busCmdUnrec 0x01).wf Config.reference = false ∧ (Instr.busCmdUnrec 0x0D).wf Config.reference = false ∧
    (Instr.busCmdUnrec 0x77).wf Config.reference = true :=
  by decide

theorem test_wf_reserved_opcode :
    (Instr.reserved 0x13).wf Config.reference = false ∧ (Instr.reserved 0x14).wf Config.reference = true := by decide

theorem test_wf_register_commands_distinct : { Config.reference with cmdB := 0x0A }.commandsWf = false := by decide

theorem test_wf_ignored_commands_distinct_from_registers :
    { Config.reference with cmdIgn1 := 0x0C }.commandsWf = false := by decide

theorem test_wf_pair_byte_permutation :
    { Config.reference with pairByte := #v[0, 1, 2, 3, 4, 4] }.digitMapWf = false := by decide

theorem test_wf_raw_combine_injective :
    { Config.reference with rawCombine := List.replicate 128 0 }.digitMapWf = false := by decide +kernel

theorem test_wf_raw_combine_whole : { Config.reference with rawCombine := [] }.digitMapWf = false := by decide

theorem test_wf_width_small : { Config.reference with displayWidth := 2 }.geometryWf = false := by decide

theorem test_wf_width_large : { Config.reference with displayWidth := 2049 }.geometryWf = false := by decide

theorem test_wf_height_small : { Config.reference with displayHeight := 0 }.geometryWf = false := by decide

theorem test_wf_height_large : { Config.reference with displayHeight := 2056 }.geometryWf = false := by decide

theorem test_wf_height_pages : { Config.reference with displayHeight := 65 }.geometryWf = false := by decide

theorem test_wf_chip2_positive : { Config.reference with chip2Start := 0 }.geometryWf = false := by decide

theorem test_wf_chip2_below_chip3 : { Config.reference with chip2Start := 128 }.geometryWf = false := by decide

theorem test_wf_chip3_below_width : { Config.reference with chip3Start := 192 }.geometryWf = false := by decide

theorem test_wf_font_rom_size : { Config.reference with fontRomSize := 0, fontRom := [] }.fontRomWf = false ∧
    { Config.reference with fontRomSize := 2 ^ 24 + 1 }.fontRomWf = false := by decide

theorem test_wf_font_rom_cells : { Config.reference with fontRom := [(5, 1), (5, 2)] }.fontRomWf = false ∧
    { Config.reference with fontRom := [(5, 0)] }.fontRomWf = false ∧
    { Config.reference with fontRom := [(0x400, 1)] }.fontRomWf = false := by decide

/-! ### Decoding: a word of each constructor, written out from R90 to R98 -/

theorem test_decode_busCmdA : decodeTableWord 16 0b1_0000_1010 = some .busCmdA := by decide

theorem test_decode_busCmdB : decodeTableWord 16 0b1_0000_1011 = some .busCmdB := by decide

theorem test_decode_busCmdC : decodeTableWord 16 0b1_0000_1100 = some .busCmdC := by decide

theorem test_decode_busCmdAnn : decodeTableWord 16 0b1_0000_1101 = some .busCmdAnn := by decide

theorem test_decode_busCmdIgn : decodeTableWord 16 0b1_0000_0010 = some (.busCmdIgn 0x02) := by decide

theorem test_decode_busCmdUnrec : decodeTableWord 16 0b1_1111_1111 = some (.busCmdUnrec 0xFF) := by decide

theorem test_decode_busData : decodeTableWord 16 0b0_0000_1010 = some (.busData 0x0A) := by decide

theorem test_decode_nop : decodeTableWord 32 0x00FFFFFF = some .nop := by decide

theorem test_decode_status : decodeTableWord 32 0x01000000 = some .status := by decide

theorem test_decode_fsReady : decodeTableWord 32 0x02000000 = some .fsReady := by decide

theorem test_decode_fsReset : decodeTableWord 32 0x03000000 = some .fsReset := by decide

theorem test_decode_fsCapture : decodeTableWord 32 0x04000000 = some .fsCapture := by decide

theorem test_decode_regRd : decodeTableWord 32 0x05000302 = some (.regRd .ANN 2) := by decide

theorem test_decode_snapRd : decodeTableWord 32 0x0600FDFD = some (.snapRd .B 5) := by decide

theorem test_decode_digit : decodeTableWord 32 0x07FFFFF3 = some (.digit 3) := by decide

theorem test_decode_punct : decodeTableWord 32 0x08000004 = some (.punct 4) := by decide

theorem test_decode_ann : decodeTableWord 32 0x0900000B = some (.ann 11) := by decide

theorem test_decode_annMask : decodeTableWord 32 0x0A000000 = some .annMask := by decide

theorem test_decode_curSet : decodeTableWord 32 0x0B00A03C = some (.curSet 10 60) := by decide

theorem test_decode_curRd : decodeTableWord 32 0x0C000000 = some .curRd := by decide

theorem test_decode_colWr : decodeTableWord 32 0x0D0000A5 = some (.colWr 0xA5) := by decide

theorem test_decode_putc : decodeTableWord 32 0x0E000141 = some (.putc 0x41) := by decide

theorem test_decode_fontSet : decodeTableWord 32 0x0F800100 = some (.fontSet 0x800100) := by decide

theorem test_decode_fontRd : decodeTableWord 32 0x10000000 = some .fontRd := by decide

theorem test_decode_glyphInfo : decodeTableWord 32 0x11000041 = some (.glyphInfo 0x41) := by decide

theorem test_decode_glyphOff : decodeTableWord 32 0x12000043 = some (.glyphOff 0x43) := by decide

theorem test_decode_chipRes : decodeTableWord 32 0x13ABC040 = some (.chipRes 0x040) := by decide

theorem test_decode_reserved : decodeTableWord 32 0xFF123456 = some (.reserved 0xFF) := by decide

theorem test_decode_too_wide : decodeTableWord 16 0x200 = none ∧ decodeTableWord 32 0x100000000 = none ∧
    decodeBits Config.reference 16 0x200 = .error .busWordTooWide ∧
    decodeBits Config.reference 32 0x100000000 = .error .hostWordTooWide := ⟨by decide, by decide, rfl, rfl⟩

/-! ### One step on a small state -/

/-- The state after one step that runs the operation of a word. -/
def after (s : State) (nbits w : Nat) : Option State :=
  match step (s.withFetchWord nbits w) with
  | .next t => some t
  | .fault _ => none
  | .refused _ => none

/-- The host result of that step. -/
def resultOf (s : State) (w : Nat) : Option HostWord := (after s 32 w).map (·.result)

/-- The fault of that step. -/
def faultOf (s : State) (w : Nat) : Option Fault :=
  match step (s.withFetchWord 32 w) with
  | .next _ => none
  | .fault f => some f
  | .refused _ => none

/-- The transactions and the cursor after that step. -/
def drawn (s : State) (w : Nat) : Option (List Transaction × Nat × Nat) :=
  (after s 32 w).map fun t => (t.dlog, t.cursorX.toNat, t.cursorY.toNat)

/-- A burst in progress, all flags set, and the frame bytes of 95_test_vectors.md Program 1. -/
def full : State :=
  { State.reset with
    live := { a := #v[0x51, 0xCA, 0x00, 0xE5, 0xBF, 0x10], b := #v[0x00, 0x23, 0x49, 0xE0, 0x31, 0x00]
              c := #v[0x01, 0x00, 0x01, 0x01, 0x00, 0x01], ann := #v[0xF0, 0x05] }
    valid := ⟨true, true, true, true⟩
    active := some .A }

/-- The same bytes in the snapshot bank. -/
def captured : State := { State.reset with snap := full.live, snapValid := true }

/-- A burst to A with four bytes to come, two of them stored. -/
def midBurst : State :=
  { State.reset with live := { Buffers.zero with a := #v[0, 0, 0, 0, 2, 1] }, active := some .A, remaining := 4 }

/-- Font and cursor. -/
def fontAt (base : FontAddr) (x y : Coord) : State :=
  { State.reset with fontBase := base, cursorX := x, cursorY := y }

/-- The cursor alone. -/
def cursorAt (x y : Coord) : State := { State.reset with cursorX := x, cursorY := y }

/-- One cell of chip 2 set before. -/
def chip2Cell (x y : Coord) (v : Byte) : State :=
  { cursorAt x y with display := Display.blank.setCell .chip2 1 0 v }

theorem test_busCmdA :
    (after State.reset 16 0x10A).map (fun t => (t.active, t.remaining, t.valid.a)) = some (some .A, 6, false) :=
  by decide

theorem test_busCmdB :
    (after full 16 0x10B).map (fun t => (t.active, t.remaining, t.valid.b)) = some (some .B, 6, true) := by decide

theorem test_busCmdC :
    (after { State.reset with busDisabled := true } 16 0x10C).map (fun t => (t.active, t.remaining, t.busDisabled)) =
      some (some .C, 6, false) := by decide

theorem test_busCmdAnn : (after midBurst 16 0x10D).map (fun t => (t.active, t.remaining, t.live.a)) =
      some (some .ANN, 2, #v[0, 0, 0, 0, 2, 1]) := by decide

theorem test_busCmdIgn :
    (after midBurst 16 0x101).map (fun t => (t.active, t.remaining, t.valid.a)) = some (none, 0, false) := by decide

theorem test_busCmdUnrec :
    (after { State.reset with busDisabled := true } 16 0x177).map (fun t => (t.active, t.remaining, t.busDisabled)) =
      some (none, 0, false) := by decide

theorem test_busData_stores_in_reverse : (after midBurst 16 0x003).map (fun t => (t.live.a, t.remaining, t.valid.a)) =
      some (#v[0, 0, 0, 3, 2, 1], 3, false) := by decide

theorem test_busData_desyncs :
    (after State.reset 16 0x042).map (fun t => (t.busDisabled, t.remaining, t.live == Buffers.zero)) =
      some (true, 0, true) := by decide

theorem test_nop : resultOf { State.reset with result := 7 } 0x00123456 = some 0 := by decide

theorem test_status_after_reset : resultOf State.reset 0x01000000 = some 0x00000020 := by decide

theorem test_status_in_a_burst : resultOf { midBurst with remaining := 6 } 0x01000000 = some 0x00006220 := by decide

theorem test_fsReady : resultOf full 0x02000000 = some 1 ∧ resultOf midBurst 0x02000000 = some 0 := by decide

theorem test_fsReset : (after midBurst 32 0x03000000).map (fun t => (t.live == Buffers.zero, t.active, t.remaining)) =
      some (true, some .A, 4) := by decide

theorem test_fsCapture :
    (after full 32 0x04000000).map (fun t =>
      (t.result, t.snap == full.live, t.live == Buffers.zero, t.snapValid, t.ready)) =
      some (1, true, true, true, false) := by decide

theorem test_fsCapture_not_ready :
    (after { full with valid :=
  ⟨false, true, true, true⟩ } 32 0x04000000).map (fun t => (t.result, t.live == full.live, t.snapValid)) =
      some (0, true, false) := by decide

theorem test_regRd : resultOf full 0x05000000 = some 0x51 ∧ resultOf full 0x05000005 = some 0x10 := by decide

theorem test_regRd_out_of_range :
    (after full 32 0x05000302).map (fun t => (t.result, t.badop)) = some (0, true) := by decide

theorem test_snapRd : resultOf captured 0x06000300 = some 0xF0 ∧ resultOf captured 0x06000101 = some 0x23 := by decide

theorem test_snapRd_out_of_range :
    (after captured 32 0x06000006).map (fun t => (t.result, t.badop)) = some (0, true) := by decide

theorem test_digit_both_halves : resultOf captured 0x07000000 = some 0x45 ∧ resultOf captured 0x07000001 = some 0x61 ∧
    resultOf captured 0x07000008 = some 0x3B ∧ resultOf captured 0x07000009 = some 0x5F := by decide

theorem test_digit_out_of_range :
    (after captured 32 0x0700000C).map (fun t => (t.result, t.badop)) = some (0, true) := by decide

theorem test_punct : resultOf captured 0x08000004 = some 1 ∧ resultOf captured 0x08000005 = some 2 ∧
    resultOf captured 0x08000006 = some 3 ∧ resultOf captured 0x08000007 = some 0 := by decide

theorem test_ann : resultOf captured 0x09000009 = some 1 ∧ resultOf captured 0x0900000A = some 0 ∧
    resultOf captured 0x0900000B = some 1 := by decide

theorem test_annMask : resultOf captured 0x0A000000 = some 0x005 := by decide

theorem test_curSet :
    (after State.reset 32 0x0B00A03C).map (fun t => (t.cursorX.toNat, t.cursorY.toNat)) = some (10, 60) := by decide

theorem test_curRd : resultOf (cursorAt 10 60) 0x0C000000 = some 0x0000A03C := by decide

theorem test_colWr_unaligned_merges : drawn (chip2Cell 64 10 0xA5) 0x0D0000FF =
      some ([.rd .chip2 1 0 0xA5, .wr .chip2 1 0 0xFD, .rd .chip2 2 0 0x00, .wr .chip2 2 0 0x03], 65, 10) := by decide

theorem test_colWr_bottom_edge :
    drawn (cursorAt 10 57) 0x0D0000FF = some ([.rd .chip1 7 10 0x00, .wr .chip1 7 10 0xFE], 11, 57) ∧
    drawn (cursorAt 10 55) 0x0D0000FF =
      some ([.rd .chip1 6 10 0x00, .wr .chip1 6 10 0x80, .rd .chip1 7 10 0x00, .wr .chip1 7 10 0x7F], 11, 55) :=
  by decide

theorem test_putc_aligned : drawn (fontAt 0x100 0 0) 0x0E000041 =
      some ([.wr .chip1 0 0 0x11, .wr .chip1 0 1 0x22, .wr .chip1 1 0 0x03, .wr .chip1 1 1 0x0C], 3, 0) := by decide

theorem test_putc_unaligned_pages :
    drawn (fontAt 0x100 20 20) 0x0E000043 =
      some ([.rd .chip1 2 20 0x00, .wr .chip1 2 20 0xF0, .rd .chip1 3 20 0x00, .wr .chip1 3 20 0x0F,
             .rd .chip1 2 21 0x00, .wr .chip1 2 21 0x10, .rd .chip1 3 21 0x00, .wr .chip1 3 21 0x08,
             .rd .chip1 3 20 0x0F, .wr .chip1 3 20 0xFF, .rd .chip1 4 20 0x00, .wr .chip1 4 20 0x00,
             .rd .chip1 3 21 0x08, .wr .chip1 3 21 0x88, .rd .chip1 4 21 0x00, .wr .chip1 4 21 0x00], 23, 20) :=
  by decide

theorem test_fontSet : (after State.reset 32 0x0F000200).map (·.fontBase) = some 0x200 := by decide

theorem test_fontRd : resultOf (fontAt 0x200 0 0) 0x10000000 = some 0x200 := by decide

theorem test_glyphInfo :
    resultOf (fontAt 0x100 0 0) 0x11000041 = some 0x80000202 ∧ resultOf (fontAt 0x100 0 0) 0x11000044 = some 0 ∧
    resultOf (fontAt 0x200 0 0) 0x11000030 = some 0x80000103 ∧ resultOf State.reset 0x11000000 = some 0x80000000 :=
  by decide

theorem test_glyphInfo_beyond_the_rom :
    faultOf (fontAt 0x3FB 0 0) 0x11000041 = some (.fontReadOutOfRom 0x400) := by decide

theorem test_glyphOff :
    resultOf (fontAt 0x100 0 0) 0x12000043 = some 0x8000000E ∧
    resultOf (fontAt 0x200 0 0) 0x12000031 = some 0x8000000C ∧
    resultOf (fontAt 0x200 0 0) 0x12000032 = some 0x8000000D :=
  by decide

theorem test_chipRes :
    resultOf State.reset 0x1300003F = some 0x8001003F ∧ resultOf State.reset 0x13ABC040 = some 0x80020000 ∧
    resultOf State.reset 0x130000BF = some 0x8003003F ∧ resultOf State.reset 0x130000C0 = some 0 := by decide

theorem test_reserved :
    (after State.reset 32 0x14000000).map (fun t => (t.result, t.badop)) = some (0, true) := by decide

/-! ### Witnesses: for each obligation with hypotheses, values that meet them -/

/-- A register's last byte is still to come. -/
def lastByte : State := { midBurst with remaining := 1 }

theorem witness_DecodeInvertsEncode :
    Config.reference.wf = true ∧ (Instr.busCmdIgn 0x01).wf Config.reference = true ∧
    (Instr.busCmdUnrec 0xFF).wf Config.reference = true ∧
    (Instr.reserved 0x14).wf Config.reference = true ∧ (Instr.curSet 4095 4095).wf Config.reference = true :=
  ⟨test_wf_reference, by decide, by decide, by decide, by decide⟩

theorem witness_BusWordsDecodeByTheCommandTable :
    Config.reference.wf = true ∧ 0x01 ∈ Config.reference.ignoredCommands ∧ 0x03 ∈ Config.reference.ignoredCommands ∧
    0x00 ∉ Config.reference.registerCommands ∧ 0x00 ∉ Config.reference.ignoredCommands ∧
    0xFF ∉ Config.reference.registerCommands ∧
    0xFF ∉ Config.reference.ignoredCommands := ⟨test_wf_reference, by decide⟩

theorem witness_HostWordsDecodeByTheOpcodeMap :
    (∀ k : Fin 21, wordField (BitVec.ofNat 32 (k.val * 2 ^ 24)) 24 8 = k.val) ∧ wordField 0xFF000000 24 8 = 0xFF ∧
    (∀ n : Fin 4, wordField (BitVec.ofNat 32 (0x05000007 + n.val * 256)) 8 2 = n.val) := by decide

theorem witness_StepRunsTheDecodedOperation :
    (∃ (s : State) (w : InputWord) (rest : List Input), s.inputs = .word w :: rest) ∧
    wordOfTableBits 16 0x1FF = .ok (.bus 0x1FF) ∧
    wordOfTableBits 32 0xFF123456 = .ok (.host 0xFF123456) := ⟨⟨{ State.reset with inputs :=
  [.word (.host 0)] }, .host 0, [], rfl⟩, rfl, rfl⟩

theorem witness_StepTakesEnvironmentEvents : State.reset.inputs = [] ∧
    { State.reset with inputs := [.busIdle false] }.inputs = .busIdle false :: [] ∧
    { State.reset with inputs := [.blockReset] }.inputs = .blockReset :: [] ∧
    { State.reset with inputs := [.controllerWrite .chip3 7 63 1] }.inputs = .controllerWrite .chip3 7 63 1 :: [] ∧
    (7 < State.reset.cfg.pages ∧ 63 < State.reset.cfg.chipWidth .chip3) ∧
    ¬(7 < State.reset.cfg.pages ∧ 64 < State.reset.cfg.chipWidth .chip3) ∧
    ¬(8 < State.reset.cfg.pages ∧ 0 < State.reset.cfg.chipWidth .chip1) := by decide

theorem witness_BlockResetSetsEveryRegister :
    ∃ (s : State) (rest : List Input), s.inputs = .blockReset :: rest ∧
    s.badop = true := ⟨{ full with inputs := [.blockReset], badop :=
  true }, [], rfl, rfl⟩

theorem witness_CommandByteSelectsItsRegister : (Instr.busCmdAnn, RegId.ANN, 2#3) ∈
      [(Instr.busCmdA, RegId.A, 6#3), (.busCmdB, .B, 6#3), (.busCmdC, .C, 6#3), (.busCmdAnn, .ANN, 2#3)] := by decide

theorem witness_OtherCommandByteSelectsNothing :
    Instr.busCmdIgn 0x01 = .busCmdIgn 0x01 ∨ Instr.busCmdIgn 0x01 = .busCmdUnrec 0x01 := by decide

theorem witness_DataByteStoresOrDesyncs :
    ({ State.reset with busDisabled := true }.burstOk = true) ∧ (State.reset.burstOk = true ∧
    State.reset.busDisabled = false ∧
      State.reset.remaining = 0) ∧
    (lastByte.burstOk = true ∧ lastByte.busDisabled = false ∧ lastByte.remaining ≠ 0) ∧
    (midBurst.burstOk = true ∧ midBurst.busDisabled = false ∧ midBurst.remaining ≠ 0) := by decide

theorem witness_DataByteOutsideABurstFaults :
    ({ State.reset with remaining := 1 }.burstOk = false) ∧
    ({ State.reset with active := some .ANN, remaining := 3 }.burstOk = false) ∧
    { State.reset with remaining := 1 }.busDisabled = false := by decide

theorem witness_BurstReassemblesInReverse :
    State.reset.cfg.wf = true ∧ ([0x08, 0x05] : List Byte).length = RegId.ANN.len ∧
    { State.reset with inputs := busInputs (frameWords Config.reference .ANN [0x08, 0x05]) ++ [] }.inputs =
      busInputs (frameWords State.reset.cfg .ANN [0x08, 0x05]) ++ [] ∧
    ∀ r ∈ [RegId.A, .B, .C], ([1, 2, 3, 4, 5, 6] : List Byte).length = r.len ∧
      { full with inputs := busInputs (frameWords Config.reference r [1, 2, 3, 4, 5, 6]) ++ [Input.blockReset] }.inputs =
        busInputs (frameWords full.cfg r [1, 2, 3, 4, 5, 6]) ++ [Input.blockReset] :=
  ⟨test_wf_reference, rfl, rfl, by decide⟩

theorem witness_BurstGoesOnAcrossFsReset :
    ∃ (s : State) (ds : List Byte), s.active = some .A ∧ s.remaining.toNat ≤ RegId.A.len ∧ s.remaining ≠ 0 ∧
      s.busDisabled = false ∧ ds.length = s.remaining.toNat ∧
      s.inputs = .word (encode s.cfg .fsReset) :: (busInputs (ds.map dataWord) ++ []) :=
  ⟨{ midBurst with inputs := .word (encode Config.reference .fsReset) :: (busInputs ([3, 4, 5, 6].map dataWord) ++ []) },
    [3, 4, 5, 6], by decide⟩

theorem witness_ResetThenNotReady :
    (∃ t, exec .fsReset full = .next t) ∧ full.burstOk = true ∧ (List.replicate 17 (dataWord 0)).length ≤ 17 :=
  ⟨⟨_, rfl⟩, by decide, by decide⟩

theorem witness_BusEventsChangeOnlyProducerState :
    (Instr.busData 3).isBus = true ∧ ∃ t, exec (.busData 3) midBurst = .next t := ⟨rfl, _, rfl⟩

theorem witness_ValidFlagsChangeInThreeWays :
    (∃ t, exec (.busData 6) lastByte = .next t ∧ t.valid.get .A ≠ lastByte.valid.get .A) ∧
    (∃ t, exec .fsReset full = .next t ∧ t.valid.get .ANN ≠ full.valid.get .ANN) ∧
    (∃ t, exec .fsCapture full = .next t ∧ t.valid.get .B ≠ full.valid.get .B) ∧
    ((∀ v, Instr.busCmdAnn ≠ .busData v) ∧ ∃ t, exec .busCmdAnn full = .next t) :=
  ⟨⟨_, rfl, by decide⟩, ⟨_, rfl, by decide⟩, ⟨_, rfl, by decide⟩, nofun, _, rfl⟩

theorem witness_HostOperationsOnlyClearTheFrameSet :
    Instr.fsCapture.isBus = false ∧ full.ready = true ∧ ∃ t, exec .fsCapture full = .next t := ⟨rfl, rfl, _, rfl⟩

theorem witness_FsCaptureCopiesAndClears : (full.valid.a && full.valid.b && full.valid.c && full.valid.ann) = true ∧
    (lastByte.valid.a && lastByte.valid.b && lastByte.valid.c && lastByte.valid.ann) = false := by decide

theorem witness_RegRdReadsALiveByte :
    (5#3).toNat < RegId.A.len ∧ RegId.A.len ≤ (6#3).toNat ∧ (1#3).toNat < RegId.ANN.len ∧
    RegId.ANN.len ≤ (2#3).toNat :=
  by decide

theorem witness_SnapRdReadsASnapshotByte :
    (5#3).toNat < RegId.C.len ∧ RegId.C.len ≤ (6#3).toNat ∧ (1#3).toNat < RegId.ANN.len ∧
    RegId.ANN.len ≤ (2#3).toNat :=
  by decide

theorem witness_MisuseOfTheHostPortSetsBadop :
    0x14 ≤ wordField 0x14000000 24 8 ∧ 0x14 ≤ wordField 0xFF123456 24 8 ∧ RegId.ANN.len ≤ (2#3).toNat ∧
    12 ≤ (12#4).toNat ∧ (Instr.digit 12).misuse = true ∧ (Instr.reserved 0x14).misuse = true := by decide

theorem witness_EveryHostOperationSetsTheResult :
    Instr.status.isBus = false ∧ ∃ t, exec .status full = .next t := ⟨rfl, _, rfl⟩

theorem witness_BadopIsSticky :
    (∃ t, exec (.punct 15) full = .next t) ∧
    ∃ s t : State, step s = .next t ∧ s.badop = true ∧
    t.badop = false := ⟨⟨_, rfl⟩, { full with badop := true, inputs :=
  [.blockReset] }, _, rfl, rfl, rfl⟩

theorem witness_OnlyFsCaptureWritesTheSnapshot :
    ∃ t, exec .fsCapture full = .next t ∧ (t.snap ≠ full.snap ∨ t.snapValid ≠ full.snapValid) :=
  ⟨_, rfl, .inr (by decide)⟩

theorem witness_DigitMapFollowsTheTable :
    (∀ n ∈ [0x00, 0x01, 0x1F, 0x20, 0x2B, 0x2C, 0x2D, 0x2E, 0x2F, 0x39, 0x3A, 0x3B, 0x3F, 0x40, 0x45, 0x46, 0x7F],
      (BitVec.ofNat 7 n).toNat = n) := by decide

theorem witness_DigitDecodesOnePosition : (11#4).toNat < 12 ∧ 12 ≤ (12#4).toNat ∧ 12 ≤ (15#4).toNat := by decide

theorem witness_PunctClassFollowsTheTable : (0x44 : Byte) ∉ [0x40, 0x04, 0x80, 0x08, 0xC0, 0x0C] := by decide

theorem witness_PunctDecodesOnePosition : (11#4).toNat < 12 ∧ 12 ≤ (12#4).toNat := by decide

theorem witness_AnnunciatorsReadTheMask : (0#4).toNat < 12 ∧ (11#4).toNat < 12 ∧ 12 ≤ (12#4).toNat := by decide

theorem witness_ChipResReportsTheResolution : State.reset.cfg.wf = true ∧ (63#12).toNat < State.reset.cfg.chip2Start ∧
    (State.reset.cfg.chip2Start ≤ (64#12).toNat ∧ (127#12).toNat < State.reset.cfg.chip3Start) ∧
    (State.reset.cfg.chip3Start ≤ (128#12).toNat ∧ (191#12).toNat < State.reset.cfg.displayWidth) ∧
    State.reset.cfg.displayWidth ≤ (192#12).toNat := ⟨test_wf_reference, by decide⟩

theorem witness_ChipResolutionPartitionsTheDisplay :
    Config.reference.wf = true ∧ 191 < Config.reference.displayWidth ∧ Config.reference.displayWidth ≤ 192 ∧
    resolveChip Config.reference 191 = some (.chip3, 63) := ⟨test_wf_reference, by decide⟩

theorem witness_ColumnWriteOutOfBoundsIsDropped : (cursorAt 192 0).cfg.displayRight < (cursorAt 192 0).cursorX.toNat ∧
    (cursorAt 0 64).cfg.displayBottom < (cursorAt 0 64).cursorY.toNat := by decide

/-- The cursor is in bounds. -/
def InBounds (s : State) : Prop := s.cursorX.toNat ≤ s.cfg.displayRight ∧ s.cursorY.toNat ≤ s.cfg.displayBottom

theorem witness_ColumnWriteSetsItsPixels :
    State.reset.display.wf = true ∧ InBounds (cursorAt 191 56) ∧ InBounds (cursorAt 191 55) ∧
    InBounds (cursorAt 191 57) :=
  ⟨rfl, by unfold InBounds; decide, by unfold InBounds; decide, by unfold InBounds; decide⟩

theorem witness_ColumnWriteTransactions :
    InBounds (cursorAt 191 63) ∧ resolveChip Config.reference 191 = some (.chip3, 63) ∧
    (∃ t, exec (.colWr 0xFF) (cursorAt 191 63) = .next t) ∧ ∃ t, exec (.colWr 0xFF) (cursorAt 192 0) = .next t :=
  ⟨by unfold InBounds; decide, by decide, ⟨_, rfl⟩, _, rfl⟩

theorem witness_LogReplaysToTheDisplay : ∃ t, exec (.colWr 0xFF) (cursorAt 62 4) = .next t := ⟨_, rfl⟩

theorem witness_OnlyPixelOperationsReachTheDisplay :
    State.reset.cfg.wf = true ∧ (∃ t, exec (.colWr 0xFF) (cursorAt 62 4) = .next t) ∧
    (∀ b, Instr.curRd ≠ .colWr b ∧ Instr.curRd ≠ .putc b) ∧ ∃ t, exec .curRd (cursorAt 62 4) = .next t :=
  ⟨test_wf_reference, ⟨_, rfl⟩, fun _ => ⟨nofun, nofun⟩, _, rfl⟩

theorem witness_FontBaseIsSetAndRead :
    ∃ t, exec (.fontSet 0xFFFFFF) State.reset = .next t ∧ t.fontBase ≠ State.reset.fontBase := ⟨_, rfl, by decide⟩

theorem witness_FixedWidthGlyphIsLocated :
    0x100 + 5 < Config.reference.fontRomSize ∧ inFontRange Config.reference 0x100 0x41 ∧
    inFontRange Config.reference 0x100 0x43 ∧
    romByte Config.reference (0x100 + 2) ≠ 0 :=
  ⟨by decide, by unfold inFontRange; decide, by unfold inFontRange; decide, by decide⟩

theorem witness_VariableWidthGlyphIsLocated :
    0x200 + 6 + 2 < Config.reference.fontRomSize ∧ inFontRange Config.reference 0x200 0x30 ∧
    inFontRange Config.reference 0x200 0x32 ∧
    romByte Config.reference (0x200 + 2) = 0 :=
  ⟨by decide, by unfold inFontRange; decide, by unfold inFontRange; decide, by decide⟩

theorem witness_CodeOutsideTheFontIsNotFound :
    0x100 + 5 < Config.reference.fontRomSize ∧ ¬inFontRange Config.reference 0x100 0x40 ∧
    ¬inFontRange Config.reference 0x100 0x44 :=
  ⟨by decide, by unfold inFontRange; decide, by unfold inFontRange; decide⟩

/-- A ROM cut inside the width table and the glyphs: font F2's header is at its end, or font F1 without glyph 'B'. -/
def cutRom (font : Memory) (size : Nat) : Config := { Config.reference with fontRom := font, fontRomSize := size }

/-- The state with that ROM and a font selected. -/
def cutFont (font : Memory) (size : Nat) (base : FontAddr) : State :=
  { fontAt base 0 0 with cfg := cutRom font size }

theorem witness_FontReadBeyondTheRomFaults :
    State.reset.cfg.fontRomSize ≤ 0x3FB + 5 ∧ (fontAt 0x3FB 0 0).mayPut 0x20 ∧
    (inFontRange (cutRom (Config.fontF2.take 4) 0x206) 0x200 0x30 ∧
      romByte (cutRom (Config.fontF2.take 4) 0x206) (0x200 + 2) = 0 ∧
      (cutRom (Config.fontF2.take 4) 0x206).fontRomSize ≤ 0x200 + 6 + (0x30 - 0x30)) :=
  ⟨by decide, by unfold State.mayPut; decide, by unfold inFontRange; decide, by decide, by decide⟩

theorem witness_PutcNoOpCases :
    (fontAt 0x100 192 0).cfg.displayRight < (fontAt 0x100 192 0).cursorX.toNat ∧
    (fontAt 0x100 0 64).cfg.displayBottom < (fontAt 0x100 0 64).cursorY.toNat ∧
    (0x1F#8).toNat < Config.reference.minPrintable.toNat ∧
    (0x100 + 5 < Config.reference.fontRomSize ∧ ¬inFontRange Config.reference 0x100 0x44) :=
  ⟨by decide, by decide, by decide, by decide, by unfold inFontRange; decide⟩

/-- Glyph 'B' of font F1 as located. -/
def glyphB : Glyph := { offset := 10, width := 2, pages := 2 }

theorem witness_PutcDrawsAndAdvances :
    (fontAt 0x100 191 63).cfg.wf = true ∧ (fontAt 0x100 191 63).mayPut 0x42 ∧
    locateGlyph Config.reference 0x100 0x42 = .ok (some glyphB) ∧ (fontAt 0x100 191 63).glyphInRom glyphB ∧
    (cutFont (Config.fontF1.take 9) 0x10A 0x100).cfg.wf = true ∧
    (cutFont (Config.fontF1.take 9) 0x10A 0x100).mayPut 0x42 ∧
    locateGlyph (cutRom (Config.fontF1.take 9) 0x10A) 0x100 0x42 = .ok (some glyphB) ∧
    ¬(cutFont (Config.fontF1.take 9) 0x10A 0x100).glyphInRom glyphB :=
  ⟨test_wf_reference, by unfold State.mayPut; decide, rfl, by unfold State.glyphInRom; decide, by decide +kernel,
    by unfold State.mayPut; decide, rfl, fun h => absurd (h 0 (by decide)) (by decide)⟩

theorem witness_PutcDrawsAnAlignedGlyph :
    (fontAt 0x100 190 56).cfg.wf = true ∧ (fontAt 0x100 190 56).display.wf = true ∧
    (fontAt 0x100 190 56).mayPut 0x42 ∧
    locateGlyph Config.reference 0x100 0x42 = .ok (some glyphB) ∧ (fontAt 0x100 190 56).cursorY.toNat % 8 = 0 ∧
    ∃ t, exec (.putc 0x42) (fontAt 0x100 190 56) = .next t :=
  ⟨test_wf_reference, rfl, by unfold State.mayPut; decide, rfl, by decide, _, rfl⟩

theorem witness_PutcMergesAnUnalignedGlyph :
    (fontAt 0x100 190 52).cfg.wf = true ∧ (fontAt 0x100 190 52).display.wf = true ∧
    (fontAt 0x100 190 52).mayPut 0x42 ∧
    locateGlyph Config.reference 0x100 0x42 = .ok (some glyphB) ∧ (fontAt 0x100 190 52).cursorY.toNat % 8 ≠ 0 ∧
    ∃ t, exec (.putc 0x42) (fontAt 0x100 190 52) = .next t :=
  ⟨test_wf_reference, rfl, by unfold State.mayPut; decide, rfl, by decide, _, rfl⟩

theorem witness_PutcTransactionCount :
    Config.reference.wf = true ∧ locateGlyph Config.reference 0x100 0x42 = .ok (some glyphB) ∧
    ∀ p ∈ [(191, 60), (191, 20), (190, 56), (190, 0)], (fontAt 0x100 p.1 p.2).mayPut 0x42 ∧
      ∃ t, exec (.putc 0x42) (fontAt 0x100 p.1 p.2) = .next t := by
  refine ⟨test_wf_reference, rfl, ?_⟩
  intro p hp
  simp only [List.mem_cons, List.not_mem_nil, or_false] at hp
  rcases hp with rfl | rfl | rfl | rfl <;> exact ⟨by unfold State.mayPut; decide, _, rfl⟩

theorem witness_PutcTransactionsInOrder :
    (fontAt 0x100 190 52).cfg.wf = true ∧ (fontAt 0x100 190 52).display.wf = true ∧
    (fontAt 0x100 190 52).mayPut 0x42 ∧
    locateGlyph Config.reference 0x100 0x42 = .ok (some glyphB) ∧
    ∃ t, exec (.putc 0x42) (fontAt 0x100 190 52) = .next t :=
  ⟨test_wf_reference, rfl, by unfold State.mayPut; decide, rfl, _, rfl⟩

/-- A replaying log that is not empty, before a step that logs a write. -/
theorem witness_EveryStepKeepsTheLogReplay :
    ∃ (start : Display) (s t : State), (∀ chip page lx v, s.inputs.head? ≠ some (.controllerWrite chip page lx v)) ∧
      replay s.dlog start = some s.display ∧ step s = .next t ∧ s.dlog ≠ [] ∧ t.dlog ≠ s.dlog :=
  ⟨Display.blank, { cursorAt 62 4 with
      dlog := [.wr .chip3 7 63 0xFF], display := Display.blank.setCell .chip3 7 63 0xFF
      inputs := [.word (.host 0x0D0000FF)] }, _, nofun, rfl, rfl, by decide, by decide⟩

theorem witness_PowerOnMeetsTheInvariant :
    Config.reference.wf = true ∧ (Display.blank.setCell .chip3 7 63 0xFF).wf = true ∧
    (Display.blank.setCell .chip3 7 63 0xFF).cellsExist Config.reference = true :=
  ⟨test_wf_reference, by decide, by decide⟩

/-- The invariant in a state that is not the reset state: a burst in progress, a set cell and a logged transaction. -/
theorem witness_EveryStepKeepsTheInvariant :
    ∃ s t : State, s.Inv ∧ step s = .next t ∧ s.dlog ≠ [] ∧ s.remaining ≠ 0 :=
  ⟨{ midBurst with
      dlog := [.wr .chip3 7 63 0xFF], display := Display.blank.setCell .chip3 7 63 0xFF
      inputs := [.word (.host 0x0D0000FF)] }, _,
    ⟨test_wf_reference, by decide, by decide, by decide, by decide, by decide, by
      intro tr htr
      rw [List.mem_singleton.1 htr]
      decide⟩, rfl, by decide, by decide⟩

theorem witness_CursorStaysInItsBounds :
    (fontAt 0x100 191 0).cfg.wf = true ∧ (∀ x y, Instr.putc 0x42 ≠ .curSet x y) ∧
    ∃ t, exec (.putc 0x42) (fontAt 0x100 191 0) = .next t ∧ t.cursorX ≠ (fontAt 0x100 191 0).cursorX :=
  ⟨test_wf_reference, nofun, _, rfl, by decide⟩

theorem witness_EveryOperationCompletes :
    midBurst.burstOk = true ∧ (Instr.busData 3).readsFont = false ∧ (Instr.putc 0x41).readsFont = true := by decide

theorem witness_ProducerCommutesWithConsumer :
    midBurst.burstOk = true ∧ (Instr.busData 3).isBus = true ∧ (Instr.putc 0x41).isBus = false ∧
    (Instr.putc 0x41).sharesWithProducer = false := by decide

theorem witness_ParametersNeverChange :
    (∃ t, exec (.putc 0x42) (fontAt 0x100 0 0) = .next t) ∧ ∃ t, step State.reset = .next t := ⟨⟨_, rfl⟩, _, rfl⟩

end Sys2Proof.Tests
end

section
/-! PROOFS of the family 10_state: the valid flags (R24) and BADOP (R34). The first part says what each kind of operation and
each kind of step does to these fields; the obligations are then read off from it. -/

namespace Sys2Proof.Machine

/-- Pixel operations leave BADOP alone. -/
theorem PixelEffect.badop_eq {s t : State} (h : PixelEffect s t) : t.badop = s.badop := by rw [h.frame]

/-- Pixel operations leave the live frame set alone. -/
theorem PixelEffect.frameSet_eq {s t : State} (h : PixelEffect s t) : t.live = s.live ∧ t.valid = s.valid := by
  rw [h.frame]; exact ⟨rfl, rfl⟩

/-- The effect of a host operation, apart from the record of a misuse, never touches BADOP. -/
theorem HostEffect.badop_eq {s u : State} {i : Instr} (h : HostEffect s i u) : u.badop = s.badop := by
  cases h with
  | column b => exact (writeColumn_effect b s).badop_eq
  | char code hput => exact (putChar_effect hput).1.badop_eq
  | none | reset | capture | cursor | font => rfl

/-- The effect of a host operation leaves the live frame set alone, or is a clearing one: FS.RESET, or FS.CAPTURE with
READY (R22, R131, R132). -/
theorem HostEffect.frameSet_cases {s u : State} {i : Instr} (h : HostEffect s i u) :
    (u.live = s.live ∧ u.valid = s.valid) ∨
    ((i = .fsReset ∨ (i = .fsCapture ∧ s.ready = true)) ∧ u.live = Buffers.zero ∧ u.valid = ValidFlags.none) := by
  cases h with
  | reset => exact .inr ⟨.inl rfl, rfl, rfl⟩
  | capture hready => exact .inr ⟨.inr ⟨rfl, hready⟩, rfl, rfl⟩
  | column b => exact .inl (writeColumn_effect b s).frameSet_eq
  | char code hput => exact .inl (putChar_effect hput).1.frameSet_eq
  | none | cursor | font => exact .inl ⟨rfl, rfl⟩

/-- What a host operation does to the live frame set. -/
theorem exec_host_frameSet {i : Instr} {s t : State} (hi : i.isBus = false) (h : exec i s = .next t) :
    (t.live = s.live ∧ t.valid = s.valid) ∨
    ((i = .fsReset ∨ (i = .fsCapture ∧ s.ready = true)) ∧ t.live = Buffers.zero ∧ t.valid = ValidFlags.none) := by
  rcases exec_host_cases hi h with ⟨-, rfl⟩ | ⟨-, u, hu, ht⟩
  · exact .inl ⟨rfl, rfl⟩
  · rw [ht]; exact hu.frameSet_cases

/-- No operation of the bus is a misuse of the host port. -/
theorem misuse_of_isBus {i : Instr} (hi : i.isBus = true) : i.misuse = false := by
  cases i with
  | busCmdA | busCmdB | busCmdC | busCmdAnn | busCmdIgn | busCmdUnrec | busData => rfl
  | nop | status | fsReady | fsReset | fsCapture | regRd | snapRd | digit | punct | ann | annMask | curSet | curRd
  | colWr | putc | fontSet | fontRd | glyphInfo | glyphOff | chipRes | reserved => cases hi

/-- A data byte leaves BADOP alone. -/
theorem execBusData_badop {v : Byte} {s t : State} (h : execBusData v s = .next t) : t.badop = s.badop := by
  rcases execBusData_next h with rfl | rfl | ⟨r, -, -, -, -, rfl⟩ <;> rfl

/-- BADOP after an operation: set by a misuse, else as before. -/
theorem exec_badop {i : Instr} {s t : State} (h : exec i s = .next t) : t.badop = (s.badop || i.misuse) := by
  cases hi : i.isBus with
  | true =>
    rw [misuse_of_isBus hi, Bool.or_false]
    rcases exec_bus_cases hi h with rfl | ⟨r, n, -, rfl⟩ | ⟨v, -, hdata⟩
    · rfl
    · rfl
    · exact execBusData_badop hdata
  | false =>
    rcases exec_host_cases hi h with ⟨hm, rfl⟩ | ⟨hm, u, hu, ht⟩
    · rw [badop_badop, hm, Bool.or_true]
    · rw [ht, withResult_badop, hu.badop_eq, hm, Bool.or_false]

/-- What a step can do: nothing with no event pending, else the operation of the word or the environment's event at the
head of the list. -/
theorem step_next_cases {s t : State} (h : step s = .next t) :
    (s.inputs = [] ∧ t = s) ∨
    (∃ w rest, s.inputs = .word w :: rest ∧ exec (decodeInput s w) (takeInput rest s) = .next t) ∨
    (∃ level rest, s.inputs = .busIdle level :: rest ∧ t = setBusIdle level (takeInput rest s)) ∨
    (∃ rest, s.inputs = .blockReset :: rest ∧ t = blockReset (takeInput rest s)) ∨
    (∃ chip page lx v rest, s.inputs = .controllerWrite chip page lx v :: rest ∧
      s.cfg.cellExists chip page lx = true ∧
      t = { takeInput rest s with display := s.display.setCell chip page lx v }) := by
  unfold step at h
  split at h
  next hin => cases h; exact .inl ⟨hin, rfl⟩
  next w rest hin => exact .inr (.inl ⟨w, rest, hin, h⟩)
  next level rest hin => cases h; exact .inr (.inr (.inl ⟨level, rest, hin, rfl⟩))
  next rest hin => cases h; exact .inr (.inr (.inr (.inl ⟨rest, hin, rfl⟩)))
  next chip page lx v rest hin =>
    unfold controllerSet at h
    split at h
    next hcell => cases h; exact .inr (.inr (.inr (.inr ⟨chip, page, lx, v, rest, hin, hcell, rfl⟩)))
    next => cases h

/-- A step that takes no block reset keeps a BADOP that is set. -/
theorem step_keeps_badop {s t : State} (h : step s = .next t) (hs : s.badop = true)
    (hreset : s.inputs.head? ≠ some .blockReset) : t.badop = true := by
  rcases step_next_cases h with ⟨-, rfl⟩ | ⟨w, rest, -, hexec⟩ | ⟨level, rest, -, rfl⟩ | ⟨rest, hin, -⟩ |
    ⟨chip, page, lx, v, rest, -, -, rfl⟩
  · exact hs
  · rw [exec_badop hexec, takeInput_badop, hs, Bool.true_or]
  · exact hs
  · exact absurd (by rw [hin]; rfl) hreset
  · exact hs

/-- REMAINING counts down to 0 from 1 alone. -/
theorem remaining_eq_one_of_sub_one {n : BitVec 3} (h : n - 1 = 0) : n = 1 := by bv_omega

/-- A data byte that changes a valid flag sets it, and is the last byte of a burst to its register. -/
theorem execBusData_valid_changed {v : Byte} {s t : State} {r : RegId} (h : execBusData v s = .next t)
    (hne : t.valid.get r ≠ s.valid.get r) :
    t.valid.get r = true ∧ s.active = some r ∧ s.remaining = 1 ∧ t.remaining = 0 ∧ s.busDisabled = false := by
  rcases execBusData_next h with rfl | rfl | ⟨r', hactive, hbus, -, -, rfl⟩
  · exact absurd rfl hne
  · exact absurd rfl hne
  · rw [storeBurstByte_valid] at hne ⊢
    split at hne
    next hlast =>
      obtain rfl : r = r' := Decidable.byContradiction fun hr => hne (s.valid.mark_get_other hr)
      rw [if_pos hlast]
      exact ⟨s.valid.mark_get_same r, hactive, remaining_eq_one_of_sub_one hlast, hlast, hbus⟩
    next => exact absurd rfl hne

/-- A command byte leaves the live frame set alone (R121, R122). -/
theorem exec_command_frameSet {i : Instr} {s t : State} (hi : i.isBus = true) (hdata : ∀ v, i ≠ .busData v)
    (h : exec i s = .next t) : t.valid = s.valid ∧ t.live = s.live := by
  rcases exec_bus_cases hi h with rfl | ⟨r, n, -, rfl⟩ | ⟨v, hv, -⟩
  · exact ⟨rfl, rfl⟩
  · exact ⟨rfl, rfl⟩
  · exact absurd hv (hdata v)

/-- Settles O17: a bus event that changes a flag is a data byte, and a host operation that does clears the frame set. -/
theorem validFlagsChangeInThreeWays : Obligations.ValidFlagsChangeInThreeWays := by
  refine ⟨fun i s t r h hne => ?_, fun i s t => exec_command_frameSet⟩
  cases hi : i.isBus with
  | true =>
    by_cases hdata : ∃ v, i = .busData v
    · obtain ⟨v, rfl⟩ := hdata
      obtain ⟨hset, hlast⟩ := execBusData_valid_changed h hne
      exact .inl ⟨hset, ⟨v, rfl⟩, hlast⟩
    · exact absurd (by rw [(exec_command_frameSet hi (not_exists.1 hdata) h).1]) hne
  | false =>
    rcases exec_host_frameSet hi h with ⟨-, hvalid⟩ | ⟨hclear, -, hvalid⟩
    · exact absurd (by rw [hvalid]) hne
    · have hget : t.valid.get r = false := by rw [hvalid, ValidFlags.none_get]
      rcases hclear with hreset | hcapture
      · exact .inr (.inl ⟨hget, hreset⟩)
      · exact .inr (.inr ⟨hget, hcapture⟩)

/-- Settles O28: no operation clears BADOP, so a step that does takes a block reset. -/
theorem badopIsSticky : Obligations.BadopIsSticky := by
  refine ⟨fun i s t => exec_badop, fun s t h hs ht => ?_⟩
  refine Decidable.byContradiction fun hreset => ?_
  have hkept : t.badop = true := step_keeps_badop h hs hreset
  exact Bool.false_ne_true (ht.symm.trans hkept)

end Sys2Proof.Machine
end

section
/-! PROOFS of the family 20_memory: which operations reach the display, and that the addresses they log are in range
(R67). -/

namespace Sys2Proof.Machine

/-- The effect of a host operation leaves the display and DLOG alone, or is the pixel effect of COL.WR or PUTC. -/
theorem HostEffect.display_cases {s u : State} {i : Instr} (h : HostEffect s i u) :
    (u.display = s.display ∧ u.dlog = s.dlog) ∨ ((∃ b, i = .colWr b ∨ i = .putc b) ∧ PixelEffect s u) := by
  cases h with
  | column b => exact .inr ⟨⟨b, .inl rfl⟩, writeColumn_effect b s⟩
  | char code hput => exact .inr ⟨⟨code, .inr rfl⟩, (putChar_effect hput).1⟩
  | none | reset | capture | cursor | font => exact .inl ⟨rfl, rfl⟩

/-- A bus event leaves the display and DLOG alone. -/
theorem exec_bus_display {i : Instr} {s t : State} (hi : i.isBus = true) (h : exec i s = .next t) :
    t.display = s.display ∧ t.dlog = s.dlog := by
  rcases exec_bus_cases hi h with rfl | ⟨r, n, -, rfl⟩ | ⟨v, -, hdata⟩
  · exact ⟨rfl, rfl⟩
  · exact ⟨rfl, rfl⟩
  · rcases execBusData_next hdata with rfl | rfl | ⟨r, -, -, -, -, rfl⟩ <;> exact ⟨rfl, rfl⟩

/-- What an operation can do to the display and DLOG: nothing, or the pixel effect of COL.WR or PUTC with the result word
set after it. -/
theorem exec_display_cases {i : Instr} {s t : State} (h : exec i s = .next t) :
    (t.display = s.display ∧ t.dlog = s.dlog) ∨
    ((∃ b, i = .colWr b ∨ i = .putc b) ∧ ∃ u, PixelEffect s u ∧ t = withResult t.result u) := by
  cases hi : i.isBus with
  | true => exact .inl (exec_bus_display hi h)
  | false =>
    rcases exec_host_cases hi h with ⟨-, rfl⟩ | ⟨-, u, hu, ht⟩
    · exact .inl ⟨rfl, rfl⟩
    · rcases hu.display_cases with hsame | ⟨hpixel, heffect⟩
      · rw [ht]; exact .inl hsame
      · exact .inr ⟨hpixel, u, heffect, ht⟩

/-- Settles O42: the two operations with a pixel effect are COL.WR and PUTC, and a pixel effect logs addresses in range. -/
theorem onlyPixelOperationsReachTheDisplay : Obligations.OnlyPixelOperationsReachTheDisplay := by
  intro i s t h
  rcases exec_display_cases h with ⟨hdisplay, hdlog⟩ | ⟨⟨b, hpixel⟩, u, heffect, ht⟩
  · refine ⟨fun _ => ⟨hdisplay, hdlog⟩, fun _ => ⟨[], ?_, List.forall_mem_nil _⟩⟩
    rw [hdlog, List.append_nil]
  · refine ⟨fun hother => absurd hpixel (not_or.2 (hother b)), fun hwf => ?_⟩
    obtain ⟨log, hlog, -, hrange⟩ := heffect.log
    refine ⟨log, ?_, hrange (Config.geometryWf_of_wf hwf)⟩
    rw [ht, withResult_dlog, hlog]

end Sys2Proof.Machine
end

section
/-! PROOFS of the family 30_encoding, the bus port: the two phases of a bus event word (R90) and the command table
(R91, R92). -/

namespace Sys2Proof

@[simp] theorem busByte_append (ph : BitVec 1) (v : Byte) : busByte (ph ++ v) = v := BitVec.extractLsb'_append_eq_right

@[simp] theorem busPhase_append (ph : BitVec 1) (v : Byte) : busPhase (ph ++ v) = ph.getLsbD 0 := by
  unfold busPhase
  rw [BitVec.getLsbD_append]
  rfl

/-- A command-phase word is decoded by the command table (R91). -/
theorem decodeBus_commandWord (c : Config) (v : Byte) : decodeBus c (commandWord v) = decodeCommand c v := by
  simp [decodeBus, commandWord]

/-- A data-phase word is a data byte (R91). -/
theorem decodeBus_dataWord (c : Config) (v : Byte) : decodeBus c (dataWord v) = .busData v := by
  simp [decodeBus, dataWord]

/-- A bus event word is its phase bit above its byte. -/
theorem busWord_eq_append (w : BusWord) : w = w.extractLsb' 8 1 ++ busByte w := by
  have hjoin : w.extractLsb' 8 1 ++ w.extractLsb' 0 8 = w.extractLsb' 0 9 :=
    BitVec.extractLsb'_append_extractLsb'_eq_extractLsb' rfl
  rw [busByte, hjoin, BitVec.extractLsb'_eq_self]

/-- Every bus event word is a command-phase word or a data-phase word (R90). -/
theorem busWord_cases (w : BusWord) : ∃ v, w = commandWord v ∨ w = dataWord v := by
  refine ⟨busByte w, ?_⟩
  have hw := busWord_eq_append w
  rcases BitVec.eq_zero_or_eq_one (w.extractLsb' 8 1) with hph | hph <;> rw [hph] at hw
  · exact .inr hw
  · exact .inl hw

theorem Config.mem_registerCommands {c : Config} {v : Byte} :
    v ∈ c.registerCommands ↔ v = c.cmdA ∨ v = c.cmdB ∨ v = c.cmdC ∨ v = c.cmdAnn := by
  simp [Config.registerCommands]

theorem Config.mem_ignoredCommands {c : Config} {v : Byte} :
    v ∈ c.ignoredCommands ↔ v = c.cmdIgn0 ∨ v = c.cmdIgn1 ∨ v = c.cmdIgn2 := by
  simp [Config.ignoredCommands]

/-- A register's command byte selects a register that has that command byte; which one, when two share it, is the first
in the table. -/
theorem decodeCommand_of_register {c : Config} {v : Byte} (h : v ∈ c.registerCommands) :
    (v = c.cmdA ∧ decodeCommand c v = .busCmdA) ∨ (v = c.cmdB ∧ decodeCommand c v = .busCmdB) ∨
    (v = c.cmdC ∧ decodeCommand c v = .busCmdC) ∨ (v = c.cmdAnn ∧ decodeCommand c v = .busCmdAnn) := by
  rw [Config.mem_registerCommands] at h
  unfold decodeCommand
  by_cases ha : v = c.cmdA
  · exact .inl ⟨ha, if_pos ha⟩
  by_cases hb : v = c.cmdB
  · exact .inr (.inl ⟨hb, by rw [if_neg ha, if_pos hb]⟩)
  by_cases hc : v = c.cmdC
  · exact .inr (.inr (.inl ⟨hc, by rw [if_neg ha, if_neg hb, if_pos hc]⟩))
  have hann : v = c.cmdAnn := by simpa [ha, hb, hc] using h
  exact .inr (.inr (.inr ⟨hann, by rw [if_neg ha, if_neg hb, if_neg hc, if_pos hann]⟩))

/-- A byte that is no register's selects by the list of the ignored bytes. -/
theorem decodeCommand_of_not_register {c : Config} {v : Byte} (h : v ∉ c.registerCommands) :
    decodeCommand c v = if v ∈ c.ignoredCommands then .busCmdIgn v else .busCmdUnrec v := by
  rw [Config.mem_registerCommands] at h
  obtain ⟨ha, hb, hc, hann⟩ : v ≠ c.cmdA ∧ v ≠ c.cmdB ∧ v ≠ c.cmdC ∧ v ≠ c.cmdAnn := by simpa using h
  simp only [decodeCommand, if_neg ha, if_neg hb, if_neg hc, if_neg hann, Config.mem_ignoredCommands]

/-- The operation of a command byte is a well-formed bus operation, and its word is the byte's. -/
theorem decodeCommand_spec (c : Config) (v : Byte) :
    encode c (decodeCommand c v) = .bus (commandWord v) ∧ (decodeCommand c v).isBus = true ∧
      (decodeCommand c v).wf c = true := by
  by_cases hr : v ∈ c.registerCommands
  · rcases decodeCommand_of_register hr with ⟨rfl, h⟩ | ⟨rfl, h⟩ | ⟨rfl, h⟩ | ⟨rfl, h⟩ <;> rw [h] <;>
      exact ⟨rfl, rfl, rfl⟩
  · rw [decodeCommand_of_not_register hr]
    by_cases hi : v ∈ c.ignoredCommands
    · rw [if_pos hi]; exact ⟨rfl, rfl, by simp [Instr.wf, hr, hi]⟩
    · rw [if_neg hi]; exact ⟨rfl, rfl, by simp [Instr.wf, hr, hi]⟩

/-- Settles O3: a word is a command-phase word, whose operation the command table gives, or a data-phase word. -/
theorem everyBusWordIsOneOperation : Obligations.EveryBusWordIsOneOperation := by
  intro c w
  obtain ⟨v, rfl | rfl⟩ := busWord_cases w
  · rw [decodeBus_commandWord]; exact decodeCommand_spec c v
  · rw [decodeBus_dataWord]; exact ⟨rfl, rfl, rfl⟩

theorem pairwiseDistinct_iff_nodup {α : Type} [DecidableEq α] (l : List α) : pairwiseDistinct l = true ↔ l.Nodup := by
  induction l with
  | nil => simp [pairwiseDistinct]
  | cons x xs ih => simp [pairwiseDistinct, ih]

/-- D7: the four register command bytes differ, and no ignored byte is one of them. -/
theorem Config.commands_of_wf {c : Config} (h : c.wf = true) :
    c.registerCommands.Nodup ∧ ∀ v ∈ c.ignoredCommands, v ∉ c.registerCommands := by
  simp only [Config.wf, Config.commandsWf, Bool.and_eq_true, pairwiseDistinct_iff_nodup, List.all_eq_true] at h
  obtain ⟨⟨⟨⟨hregister, hignored⟩, -⟩, -⟩, -⟩ := h
  exact ⟨hregister, fun v hv => by simpa using hignored v hv⟩

/-- With four different command bytes, each selects its own register. -/
theorem decodeCommand_registers {c : Config} (h : c.registerCommands.Nodup) :
    decodeCommand c c.cmdA = .busCmdA ∧ decodeCommand c c.cmdB = .busCmdB ∧ decodeCommand c c.cmdC = .busCmdC ∧
      decodeCommand c c.cmdAnn = .busCmdAnn := by
  simp only [Config.registerCommands, List.nodup_cons, List.mem_cons, not_or] at h
  obtain ⟨⟨hab, hac, haann, -⟩, ⟨hbc, hbann, -⟩, ⟨hcann, -⟩, -⟩ := h
  simp [decodeCommand, Ne.symm hab, Ne.symm hac, Ne.symm haann, Ne.symm hbc, Ne.symm hbann, Ne.symm hcann]

/-- Settles O4: under R9 the rows of the command table exclude each other, so each byte meets its own row first. -/
theorem busWordsDecodeByTheCommandTable : Obligations.BusWordsDecodeByTheCommandTable := by
  intro c hwf v
  obtain ⟨hregister, hignored⟩ := Config.commands_of_wf hwf
  obtain ⟨ha, hb, hc, hann⟩ := decodeCommand_registers hregister
  have command (v : Byte) : decodeBus c (1#1 ++ v) = decodeCommand c v := decodeBus_commandWord c v
  refine ⟨?_, ?_, ?_, ?_, fun hi => ?_, fun hr hi => ?_, decodeBus_dataWord c v⟩
  · rintro rfl; rw [command, ha]
  · rintro rfl; rw [command, hb]
  · rintro rfl; rw [command, hc]
  · rintro rfl; rw [command, hann]
  · rw [command, decodeCommand_of_not_register (hignored v hi), if_pos hi]
  · rw [command, decodeCommand_of_not_register hr, if_neg hi]

end Sys2Proof
end

section
/-! PROOFS of the family 30_encoding, the host port: misuse and the operand bits that a format does not name (R96), and
the bits of the result word (R94). -/

namespace Sys2Proof

/-- A field of a host word is the number that `wordField` reads. -/
theorem toNat_extractLsb'_eq_wordField (w : HostWord) (lo n : Nat) :
    (w.extractLsb' lo n).toNat = wordField w lo n := by
  rw [BitVec.extractLsb'_toNat, Nat.shiftRight_eq_div_pow, wordField]

theorem toNat_hostOpc (w : HostWord) : (hostOpc w).toNat = wordField w 24 8 := toNat_extractLsb'_eq_wordField w 24 8

/-- An opcode from 0x14 on is reserved (R96). -/
theorem decodeHost_reserved {w : HostWord} (h : 0x14 ≤ wordField w 24 8) : decodeHost w = .reserved (hostOpc w) := by
  rw [← toNat_hostOpc] at h
  unfold decodeHost
  split
  case h_21 => rfl
  all_goals omega

/-- A field survives a mask that covers it. -/
theorem extractLsb'_and_of_covered {w mask : HostWord} {lo n : Nat} (h : mask.extractLsb' lo n = BitVec.allOnes n) :
    (w &&& mask).extractLsb' lo n = w.extractLsb' lo n := by
  rw [BitVec.extractLsb'_and, h, BitVec.and_allOnes]

/-- Every format names the opcode. -/
theorem hostOpc_and_namedBits (w : HostWord) : hostOpc (w &&& namedBits w) = hostOpc w := by
  refine extractLsb'_and_of_covered ?_
  unfold namedBits
  dsimp only
  repeat' split
  all_goals rfl

/-- Format FR names REG and IDX. -/
theorem operandFR_and_namedBits {w : HostWord} (h : (hostOpc w).toNat = 0x05 ∨ (hostOpc w).toNat = 0x06) :
    operandReg (w &&& namedBits w) = operandReg w ∧ operandIdx (w &&& namedBits w) = operandIdx w := by
  have hnamed : namedBits w = 0xFF000307 := by rcases h with h | h <;> simp [namedBits, ← toNat_hostOpc, h]
  rw [hnamed]
  exact ⟨congrArg RegId.ofFrId (extractLsb'_and_of_covered rfl), extractLsb'_and_of_covered rfl⟩

/-- Format FP names POS. -/
theorem operandPos_and_namedBits {w : HostWord}
    (h : (hostOpc w).toNat = 0x07 ∨ (hostOpc w).toNat = 0x08 ∨ (hostOpc w).toNat = 0x09) :
    operandPos (w &&& namedBits w) = operandPos w := by
  have hnamed : namedBits w = 0xFF00000F := by rcases h with h | h | h <;> simp [namedBits, ← toNat_hostOpc, h]
  rw [hnamed]
  exact extractLsb'_and_of_covered rfl

/-- Format FB names its byte. -/
theorem operandByte_and_namedBits {w : HostWord}
    (h : (hostOpc w).toNat = 0x0D ∨ (hostOpc w).toNat = 0x0E ∨ (hostOpc w).toNat = 0x11 ∨
      (hostOpc w).toNat = 0x12) :
    operandByte (w &&& namedBits w) = operandByte w := by
  have hnamed : namedBits w = 0xFF0000FF := by rcases h with h | h | h | h <;> simp [namedBits, ← toNat_hostOpc, h]
  rw [hnamed]
  exact extractLsb'_and_of_covered rfl

/-- Format FX names X. -/
theorem operandLowCoord_and_namedBits {w : HostWord} (h : (hostOpc w).toNat = 0x13) :
    operandLowCoord (w &&& namedBits w) = operandLowCoord w := by
  have hnamed : namedBits w = 0xFF000FFF := by simp [namedBits, ← toNat_hostOpc, h]
  rw [hnamed]
  exact extractLsb'_and_of_covered rfl

/-- Formats FXY and FA name every bit of the word. -/
theorem and_namedBits_of_full {w : HostWord} (h : (hostOpc w).toNat = 0x0B ∨ (hostOpc w).toNat = 0x0F) :
    w &&& namedBits w = w := by
  have hnamed : namedBits w = BitVec.allOnes 32 := by rcases h with h | h <;> simp [namedBits, ← toNat_hostOpc, h]
  rw [hnamed, BitVec.and_allOnes]

/-- Clearing the bits that a word's format does not name changes nothing that its operation is decoded from (R96). -/
theorem decodeHost_and_namedBits (w : HostWord) : decodeHost (w &&& namedBits w) = decodeHost w := by
  unfold decodeHost
  rw [hostOpc_and_namedBits]
  split
  case h_6 h => obtain ⟨hreg, hidx⟩ := operandFR_and_namedBits (.inl h); rw [hreg, hidx]
  case h_7 h => obtain ⟨hreg, hidx⟩ := operandFR_and_namedBits (.inr h); rw [hreg, hidx]
  case h_8 h => rw [operandPos_and_namedBits (.inl h)]
  case h_9 h => rw [operandPos_and_namedBits (.inr (.inl h))]
  case h_10 h => rw [operandPos_and_namedBits (.inr (.inr h))]
  case h_12 h => rw [and_namedBits_of_full (.inl h)]
  case h_14 h => rw [operandByte_and_namedBits (.inl h)]
  case h_15 h => rw [operandByte_and_namedBits (.inr (.inl h))]
  case h_16 h => rw [and_namedBits_of_full (.inr h)]
  case h_18 h => rw [operandByte_and_namedBits (.inr (.inr (.inl h)))]
  case h_19 h => rw [operandByte_and_namedBits (.inr (.inr (.inr h)))]
  case h_20 h => rw [operandLowCoord_and_namedBits h]
  all_goals rfl

namespace Machine

theorem not_idxInRange {r : RegId} {idx : BitVec 3} (h : r.len ≤ idx.toNat) : ¬idxInRange r idx = true :=
  fun hin => Nat.not_lt.2 h (of_decide_eq_true hin)

theorem not_posInRange {pos : BitVec 4} (h : 12 ≤ pos.toNat) : ¬posInRange pos = true :=
  fun hin => Nat.not_lt.2 h (of_decide_eq_true hin)

/-- A misuse of the host port is recorded and does nothing else (R96). -/
theorem exec_misuse {i : Instr} (s : State) (h : i.misuse = true) : exec i s = .next (badop s) := by
  cases i with
  | reserved opc => rfl
  | regRd r idx => exact if_neg (not_idxInRange (of_decide_eq_true h))
  | snapRd r idx => exact if_neg (not_idxInRange (of_decide_eq_true h))
  | digit pos => exact if_neg (not_posInRange (of_decide_eq_true h))
  | punct pos => exact if_neg (not_posInRange (of_decide_eq_true h))
  | ann pos => exact if_neg (not_posInRange (of_decide_eq_true h))
  | busCmdA | busCmdB | busCmdC | busCmdAnn | busCmdIgn | busCmdUnrec | busData | nop | status | fsReady | fsReset
  | fsCapture | annMask | curSet | curRd | colWr | putc | fontSet | fontRd | glyphInfo | glyphOff | chipRes => cases h

/-- Settles O26: the misuses are those R96 lists, each ends in `badop`, and unnamed bits are not decoded. -/
theorem misuseOfTheHostPortSetsBadop : Obligations.MisuseOfTheHostPortSetsBadop := by
  refine ⟨fun w h => ?_, fun r idx h => ?_, fun pos h => ?_, fun i s => exec_misuse s, decodeHost_and_namedBits⟩
  · rw [decodeHost_reserved h]; rfl
  · exact ⟨decide_eq_true h, decide_eq_true h⟩
  · exact ⟨decide_eq_true h, decide_eq_true h, decide_eq_true h⟩

/-! ### The result word -/

theorem PixelEffect.hostLog_eq {s t : State} (h : PixelEffect s t) : t.hostLog = s.hostLog := by rw [h.frame]

/-- The effect of a host operation leaves the record of results to `withResult`. -/
theorem HostEffect.hostLog_eq {s u : State} {i : Instr} (h : HostEffect s i u) : u.hostLog = s.hostLog := by
  cases h with
  | column b => exact (writeColumn_effect b s).hostLog_eq
  | char code hput => exact (putChar_effect hput).1.hostLog_eq
  | none | reset | capture | cursor | font => rfl

/-- A host operation records its result word, once (R94, D40). -/
theorem exec_host_hostLog {i : Instr} {s t : State} (hi : i.isBus = false) (h : exec i s = .next t) :
    t.hostLog = s.hostLog ++ [t.result] := by
  rcases exec_host_cases hi h with ⟨-, rfl⟩ | ⟨-, u, hu, ht⟩
  · rfl
  · rw [ht, withResult_hostLog, hu.hostLog_eq, withResult_result]

/-- A zero-extended value has no bit above its own. -/
theorem setWidth_and_allOnes {n : Nat} (v : BitVec n) :
    (v.setWidth 32 &&& (BitVec.allOnes n).setWidth 32 : HostWord) = v.setWidth 32 := by
  rw [← BitVec.setWidth_and, BitVec.and_allOnes]

/-! Each result word is a row of fields. The mask, written as the same row, has all ones at each field that can be other
than 0, so the two are compared field by field. -/

/-- The STATUS word uses bits 14:0 (R35). -/
theorem statusWord_bits (s : State) : s.statusWord &&& 0x00007FFF = s.statusWord := by
  change (_ : BitVec (17 + 3 + 3 + 1 + 1 + 1 + 1 + 1 + 1 + 1 + 1 + 1)) &&&
    0#17 ++ BitVec.allOnes 3 ++ BitVec.allOnes 3 ++ BitVec.allOnes 1 ++ BitVec.allOnes 1 ++ BitVec.allOnes 1 ++
    BitVec.allOnes 1 ++ BitVec.allOnes 1 ++ BitVec.allOnes 1 ++ BitVec.allOnes 1 ++ BitVec.allOnes 1 ++
    BitVec.allOnes 1 = _
  unfold State.statusWord
  simp only [BitVec.and_append, BitVec.and_allOnes, BitVec.and_self]

/-- The result of CUR.RD uses bits 23:0 (R239). -/
theorem cursorWord_bits (x y : Coord) : (0#8 ++ x ++ y : HostWord) &&& 0x00FFFFFF = 0#8 ++ x ++ y := by
  change _ &&& 0#8 ++ BitVec.allOnes 12 ++ BitVec.allOnes 12 = _
  simp only [BitVec.and_append, BitVec.and_allOnes, BitVec.and_self]

/-- The result of CHIP.RES uses bits 31, 17:16 and 11:0 (R237). -/
theorem chipResWord_bits (r : Option (ChipId × Nat)) : chipResWord r &&& 0x80030FFF = chipResWord r := by
  cases r with
  | none => exact BitVec.zero_and
  | some r =>
    obtain ⟨chip, lx⟩ := r
    change 1#1 ++ 0#13 ++ BitVec.ofNat 2 chip.number ++ 0#4 ++ BitVec.ofNat 12 lx &&&
      1#1 ++ 0#13 ++ BitVec.allOnes 2 ++ 0#4 ++ BitVec.allOnes 12 = _
    simp only [BitVec.and_append, BitVec.and_allOnes, BitVec.and_self]
    rfl

/-- The result of GLYPH.INFO uses bits 31 and 13:0 (R197). -/
theorem glyphInfoWord_bits (g : Option Glyph) : glyphInfoWord g &&& 0x80003FFF = glyphInfoWord g := by
  cases g with
  | none => exact BitVec.zero_and
  | some g =>
    change 1#1 ++ 0#17 ++ BitVec.ofNat 6 g.pages ++ BitVec.ofNat 8 g.width &&&
      1#1 ++ 0#17 ++ BitVec.allOnes 6 ++ BitVec.allOnes 8 = _
    simp only [BitVec.and_append, BitVec.and_allOnes, BitVec.and_self]
    rfl

/-- The result of GLYPH.OFF uses bits 31 and 23:0 (R198). -/
theorem glyphOffWord_bits (g : Option Glyph) : glyphOffWord g &&& 0x80FFFFFF = glyphOffWord g := by
  cases g with
  | none => exact BitVec.zero_and
  | some g =>
    change 1#1 ++ 0#7 ++ BitVec.ofNat 24 g.offset &&& 1#1 ++ 0#7 ++ BitVec.allOnes 24 = _
    simp only [BitVec.and_append, BitVec.and_allOnes, BitVec.and_self]
    rfl

/-- A meaning with a range check answers a zero-extended value of `n` bits, or the 0 of a misuse. -/
theorem rangeChecked_resultBits {n : Nat} {ok : Bool} {v : BitVec n} {s t : State}
    (h : (if ok then Host.Outcome.next (withResult (v.setWidth 32) s) else .next (badop s) : StepResult) = .next t) :
    t.result &&& (BitVec.allOnes n).setWidth 32 = t.result := by
  cases ok
  · cases h; exact BitVec.zero_and
  · cases h; exact setWidth_and_allOnes v

/-- The result word has no bit that the operation's rule does not name (R94). -/
theorem exec_host_resultBits {i : Instr} {s t : State} (hi : i.isBus = false) (h : exec i s = .next t) :
    t.result &&& i.resultBits = t.result := by
  cases i with
  | busCmdA | busCmdB | busCmdC | busCmdAnn | busCmdIgn | busCmdUnrec | busData => cases hi
  | nop | fsReset | curSet | colWr | fontSet | reserved => cases h; exact BitVec.zero_and
  | putc code => obtain ⟨u, -, rfl⟩ := exec_putc_next h; exact BitVec.zero_and
  | status => cases h; exact statusWord_bits s
  | fsReady => cases h; exact setWidth_and_allOnes (flagBit s.ready)
  | fsCapture =>
    change execFsCapture s = _ at h
    unfold execFsCapture at h
    split at h <;> cases h
    · exact setWidth_and_allOnes 1#1
    · exact BitVec.zero_and
  | regRd r idx => exact rangeChecked_resultBits h
  | snapRd r idx => exact rangeChecked_resultBits h
  | digit pos => exact rangeChecked_resultBits h
  | punct pos => exact rangeChecked_resultBits h
  | ann pos => exact rangeChecked_resultBits h
  | annMask => cases h; exact setWidth_and_allOnes (annMask s.snap)
  | curRd => cases h; exact cursorWord_bits s.cursorX s.cursorY
  | fontRd => cases h; exact setWidth_and_allOnes s.fontBase
  | glyphInfo code => obtain ⟨g, -, rfl⟩ := exec_glyphInfo_next h; exact glyphInfoWord_bits g
  | glyphOff code => obtain ⟨g, -, rfl⟩ := exec_glyphOff_next h; exact glyphOffWord_bits g
  | chipRes x => cases h; exact chipResWord_bits (resolveChip s.cfg x.toNat)

/-- Settles O27: the record of results grows by the result word, which the rule of each operation bounds. -/
theorem everyHostOperationSetsTheResult : Obligations.EveryHostOperationSetsTheResult :=
  fun _ _ _ hi h => ⟨exec_host_hostLog hi h, exec_host_resultBits hi h⟩

end Machine
end Sys2Proof
end

section
/-! PROOFS of the family 40_frame_decoder, the bus events: a command byte (R121, R122), a data byte (R123 to R125), and the
burst that a run of data bytes stores (R133). -/

namespace Sys2Proof.Machine

/-- Settles O9: the rows of R121, one by one. -/
theorem commandByteSelectsItsRegister : Obligations.CommandByteSelectsItsRegister := by
  intro s i r n h
  simp only [List.mem_cons, List.not_mem_nil, or_false, Prod.mk.injEq] at h
  rcases h with ⟨rfl, rfl, rfl⟩ | ⟨rfl, rfl, rfl⟩ | ⟨rfl, rfl, rfl⟩ | ⟨rfl, rfl, rfl⟩ <;> rfl

/-- Settles O10: both meanings are `selectTarget none 0`. -/
theorem otherCommandByteSelectsNothing : Obligations.OtherCommandByteSelectsNothing := by
  intro s v i h
  rcases h with rfl | rfl <;> rfl

/-! ### One data byte -/

/-- REMAINING counts down by 1 while bytes are expected. -/
theorem toNat_remaining_sub_one {n : BitVec 3} (h : n ≠ 0) : (n - 1).toNat = n.toNat - 1 := by bv_omega

/-- The count after a stored byte. -/
theorem storeBurstByte_toNat_remaining {s : State} (r : RegId) (v : Byte) (h : s.remaining ≠ 0) :
    (storeBurstByte r v s).remaining.toNat = s.remaining.toNat - 1 := toNat_remaining_sub_one h

/-- The byte goes to slot REMAINING − 1 of its register (R124). -/
theorem storeBurstByte_byte_same {s : State} {r : RegId} (v : Byte) (h0 : s.remaining ≠ 0)
    (hlen : s.remaining.toNat ≤ r.len) : (storeBurstByte r v s).live.byte r (s.remaining.toNat - 1) = v := by
  have hpos := RegId.len_pos r
  rw [storeBurstByte_live, toNat_remaining_sub_one h0, Buffers.byte_setByte_same _ (by omega)]

/-- Every other slot keeps its byte. -/
theorem storeBurstByte_byte_other {s : State} {r r' : RegId} {k : Nat} (v : Byte) (h0 : s.remaining ≠ 0)
    (h : (r', k) ≠ (r, s.remaining.toNat - 1)) : (storeBurstByte r v s).live.byte r' k = s.live.byte r' k := by
  rw [storeBurstByte_live, toNat_remaining_sub_one h0, Buffers.byte_setByte_other _ _ h]

/-- The flag of the register is set by the last byte. -/
theorem storeBurstByte_valid_same (s : State) (r : RegId) (v : Byte) :
    (storeBurstByte r v s).valid.get r = (s.valid.get r || decide (s.remaining = 1)) := by
  by_cases hlast : s.remaining = 1
  · simp [hlast]
  · have hmore : s.remaining - 1 ≠ 0 := fun h => hlast (remaining_eq_one_of_sub_one h)
    rw [storeBurstByte_valid, if_neg hmore, decide_eq_false hlast, Bool.or_false]

/-- No other register's flag changes. -/
theorem storeBurstByte_valid_other (s : State) {r r' : RegId} (v : Byte) (h : r' ≠ r) :
    (storeBurstByte r v s).valid.get r' = s.valid.get r' := by
  rw [storeBurstByte_valid]
  split
  · exact ValidFlags.mark_get_other _ h
  · rfl

/-- Settles O11: the three cases of a data byte, and the store case slot by slot. -/
theorem dataByteStoresOrDesyncs : Obligations.DataByteStoresOrDesyncs := by
  intro s v hs
  rcases execBusData_cases hs v with ⟨hd, he⟩ | ⟨hd, h0, he⟩ | ⟨hd, h0, r, hactive, hlen, he⟩
  · exact ⟨fun _ => he, by simp [hd], by simp [hd]⟩
  · exact ⟨by simp [hd], fun _ _ => he, fun _ hne => absurd h0 hne⟩
  · refine ⟨by simp [hd], fun _ h => absurd h h0, fun _ _ => ⟨r, storeBurstByte r v s, hactive, he, ?_⟩⟩
    exact ⟨storeBurstByte_byte_same v h0 hlen, fun r' k _ => storeBurstByte_byte_other v h0,
      storeBurstByte_toNat_remaining r v h0, storeBurstByte_valid_same s r v,
      fun r' => storeBurstByte_valid_other s v, rfl⟩

/-! ### A run of data bytes -/

/-- The stores of several data bytes of one burst, in arrival order. -/
def storeBurst (r : RegId) : List Byte → State → State
  | [], s => s
  | v :: ds, s => storeBurst r ds (storeBurstByte r v s)

@[simp] theorem storeBurst_nil (r : RegId) (s : State) : storeBurst r [] s = s := rfl

theorem storeBurst_cons (r : RegId) (v : Byte) (ds : List Byte) (s : State) :
    storeBurst r (v :: ds) s = storeBurst r ds (storeBurstByte r v s) := rfl

/-- A burst writes the live frame set and REMAINING, and nothing else. -/
theorem storeBurst_frame (r : RegId) (ds : List Byte) (s : State) :
    storeBurst r ds s = { s with
      live := (storeBurst r ds s).live
      valid := (storeBurst r ds s).valid
      remaining := (storeBurst r ds s).remaining } := by
  induction ds generalizing s with
  | nil => rfl
  | cons v ds ih => rw [storeBurst_cons, ih]; rfl

@[simp] theorem storeBurst_active (r : RegId) (ds : List Byte) (s : State) : (storeBurst r ds s).active = s.active := by
  rw [storeBurst_frame]

@[simp] theorem storeBurst_busDisabled (r : RegId) (ds : List Byte) (s : State) :
    (storeBurst r ds s).busDisabled = s.busDisabled := by
  rw [storeBurst_frame]

/-- The pending events play no part in a burst's stores. -/
theorem storeBurst_takeInput (r : RegId) (ds : List Byte) (rest : List Input) (s : State) :
    storeBurst r ds (takeInput rest s) = takeInput rest (storeBurst r ds s) := by
  induction ds generalizing s with
  | nil => rfl
  | cons v ds ih => exact ih (storeBurstByte r v s)

/-- A data byte is expected as long as fewer bytes have come than REMAINING says. -/
theorem remaining_ne_zero_of_lt {s : State} {n : Nat} (h : n < s.remaining.toNat) : s.remaining ≠ 0 := by
  intro h0
  simp [h0] at h

/-- REMAINING counts the bytes of a burst down. -/
theorem storeBurst_toNat_remaining (r : RegId) {ds : List Byte} {s : State} (h : ds.length ≤ s.remaining.toNat) :
    (storeBurst r ds s).remaining.toNat = s.remaining.toNat - ds.length := by
  induction ds generalizing s with
  | nil => rfl
  | cons v ds ih =>
    rw [List.length_cons] at h ⊢
    have hrem := storeBurstByte_toNat_remaining r v (remaining_ne_zero_of_lt h)
    rw [storeBurst_cons, ih (by omega), hrem]
    omega

/-- Before its last byte a burst sets no flag (R133). -/
theorem storeBurst_valid_of_lt (r : RegId) {ds : List Byte} {s : State} (h : ds.length < s.remaining.toNat) :
    (storeBurst r ds s).valid = s.valid := by
  induction ds generalizing s with
  | nil => rfl
  | cons v ds ih =>
    rw [List.length_cons] at h
    have hrem := storeBurstByte_toNat_remaining r v (remaining_ne_zero_of_lt (Nat.lt_of_succ_lt h))
    have hmore : s.remaining - 1 ≠ 0 := remaining_ne_zero_of_lt (s := storeBurstByte r v s) (n := ds.length) (by omega)
    rw [storeBurst_cons, ih (by omega), storeBurstByte_valid, if_neg hmore]

/-- No other register's flag changes in a burst. -/
theorem storeBurst_valid_other {r r' : RegId} (ds : List Byte) (s : State) (h : r' ≠ r) :
    (storeBurst r ds s).valid.get r' = s.valid.get r' := by
  induction ds generalizing s with
  | nil => rfl
  | cons v ds ih => rw [storeBurst_cons, ih, storeBurstByte_valid_other s v h]

/-- A whole burst sets the register's flag. -/
theorem storeBurst_valid_same (r : RegId) {ds : List Byte} {s : State} (h : ds.length = s.remaining.toNat)
    (h0 : s.remaining ≠ 0) : (storeBurst r ds s).valid.get r = true := by
  induction ds generalizing s with
  | nil => exact absurd (BitVec.eq_of_toNat_eq h.symm) h0
  | cons v ds ih =>
    rw [List.length_cons] at h
    have hrem := storeBurstByte_toNat_remaining r v h0
    rw [storeBurst_cons]
    by_cases hlast : s.remaining = 1
    · have hnil : ds = [] := List.eq_nil_of_length_eq_zero (by simpa [hlast] using h)
      rw [hnil, storeBurst_nil, storeBurstByte_valid_same, decide_eq_true hlast, Bool.or_true]
    · exact ih (by omega) fun h => hlast (remaining_eq_one_of_sub_one h)

/-- A burst leaves the other registers' bytes, and the slots from REMAINING on. -/
theorem storeBurst_byte_other {r r' : RegId} {k : Nat} {ds : List Byte} {s : State} (h : ds.length ≤ s.remaining.toNat)
    (hk : r' ≠ r ∨ s.remaining.toNat ≤ k) : (storeBurst r ds s).live.byte r' k = s.live.byte r' k := by
  induction ds generalizing s with
  | nil => rfl
  | cons v ds ih =>
    rw [List.length_cons] at h
    have h0 : s.remaining ≠ 0 := remaining_ne_zero_of_lt h
    have hrem := storeBurstByte_toNat_remaining r v h0
    have hslot : (r', k) ≠ (r, s.remaining.toNat - 1) := by
      rintro ⟨⟩
      rcases hk with hr | hk
      · exact hr rfl
      · omega
    rw [storeBurst_cons, ih (by omega) (hk.imp_right (by omega)), storeBurstByte_byte_other v h0 hslot]

/-- A whole burst leaves the slots below REMAINING with its bytes in reverse (R124). -/
theorem storeBurst_byte_same {r : RegId} {k : Nat} {ds : List Byte} {s : State} (h : ds.length = s.remaining.toNat)
    (hlen : s.remaining.toNat ≤ r.len) (hk : k < ds.length) :
    (storeBurst r ds s).live.byte r k = ds.getD (ds.length - 1 - k) 0 := by
  induction ds generalizing s with
  | nil => cases hk
  | cons v ds ih =>
    rw [List.length_cons] at h hk ⊢
    have h0 : s.remaining ≠ 0 := remaining_ne_zero_of_lt (n := ds.length) (by omega)
    have hrem := storeBurstByte_toNat_remaining r v h0
    rw [storeBurst_cons]
    by_cases hfirst : k = ds.length
    · subst hfirst
      have hslot : ds.length = s.remaining.toNat - 1 := by omega
      rw [storeBurst_byte_other (by omega) (.inr (by omega)), Nat.add_sub_cancel, Nat.sub_self, List.getD_cons_zero]
      rw [hslot, storeBurstByte_byte_same v h0 hlen]
    · have hindex : ds.length + 1 - 1 - k = ds.length - 1 - k + 1 := by omega
      rw [ih (by omega) (by omega) (by omega), hindex, List.getD_cons_succ]

/-! ### The steps of a frame -/

theorem runSteps_succ_of_step {s t : State} (n : Nat) (h : step s = .next t) : runSteps (n + 1) s = runSteps n t := by
  rw [runSteps, h]

/-- A step with a bus event word pending runs the word's operation. -/
theorem step_busWord {s : State} {w : BusWord} {rest : List Input} (h : s.inputs = .word (.bus w) :: rest) :
    step s = exec (decodeBus s.cfg w) (takeInput rest s) := by
  unfold step
  rw [h]
  rfl

theorem busInputs_cons (w : BusWord) (ws : List BusWord) : busInputs (w :: ws) = .word (.bus w) :: busInputs ws := rfl

theorem busInputs_append (ws ws' : List BusWord) : busInputs (ws ++ ws') = busInputs ws ++ busInputs ws' :=
  List.map_append

/-- A data byte of a burst is stored (R124). -/
theorem execBusData_of_active {s : State} {r : RegId} (v : Byte) (hd : s.busDisabled = false) (h0 : s.remaining ≠ 0)
    (hactive : s.active = some r) (hlen : s.remaining.toNat ≤ r.len) :
    execBusData v s = .next (storeBurstByte r v s) := by
  simp only [execBusData, hd, Bool.false_eq_true, if_false, if_neg h0, hactive, if_pos hlen]

/-- A step with a data word of a burst pending stores its byte. -/
theorem step_dataWord {s : State} {r : RegId} {v : Byte} {rest : List Input}
    (hin : s.inputs = .word (.bus (dataWord v)) :: rest) (hactive : s.active = some r) (hd : s.busDisabled = false)
    (h0 : s.remaining ≠ 0) (hlen : s.remaining.toNat ≤ r.len) :
    step s = .next (takeInput rest (storeBurstByte r v s)) := by
  rw [step_busWord hin, decodeBus_dataWord]
  exact execBusData_of_active v hd h0 hactive hlen

/-- Data words of a burst, all of it or its first part, are stored in as many steps. -/
theorem runSteps_burst {s : State} {r : RegId} {ds : List Byte} {rest : List Input}
    (hin : s.inputs = busInputs (ds.map dataWord) ++ rest) (hactive : s.active = some r) (hd : s.busDisabled = false)
    (hds : ds.length ≤ s.remaining.toNat) (hlen : s.remaining.toNat ≤ r.len) :
    runSteps ds.length s = .next (takeInput rest (storeBurst r ds s)) := by
  induction ds generalizing s with
  | nil =>
    have hrest : takeInput rest s = s := by
      change s.inputs = rest at hin
      rw [← hin]; rfl
    rw [storeBurst_nil, hrest]; rfl
  | cons v ds ih =>
    rw [List.length_cons] at hds
    have h0 : s.remaining ≠ 0 := remaining_ne_zero_of_lt hds
    have hrem := storeBurstByte_toNat_remaining r v h0
    have htail := ih (s := takeInput _ (storeBurstByte r v s)) (takeInput_inputs _ _) hactive hd
      (hrem ▸ Nat.le_sub_one_of_lt hds) (hrem ▸ Nat.le_trans (Nat.sub_le _ _) hlen)
    rw [storeBurst_takeInput] at htail
    rw [List.length_cons, runSteps_succ_of_step _ (step_dataWord hin hactive hd h0 hlen)]
    exact htail

/-- The count that a register's command byte loads. -/
theorem RegId.toNat_ofNat_len (r : RegId) : (BitVec.ofNat 3 r.len).toNat = r.len := by cases r <;> rfl

/-- Under R9 the first word of a frame selects the frame's register. -/
theorem step_frameWords {s : State} {r : RegId} {ds : List Byte} {rest : List Input} (hwf : s.cfg.wf = true)
    (hin : s.inputs = busInputs (frameWords s.cfg r ds) ++ rest) :
    step s = .next (selectTarget (some r) (BitVec.ofNat 3 r.len)
      (takeInput (busInputs (ds.map dataWord) ++ rest) s)) := by
  obtain ⟨ha, hb, hc, hann⟩ := decodeCommand_registers (Config.commands_of_wf hwf).1
  cases r with
  | A => rw [step_busWord hin, decodeBus_commandWord, ha]; rfl
  | B => rw [step_busWord hin, decodeBus_commandWord, hb]; rfl
  | C => rw [step_busWord hin, decodeBus_commandWord, hc]; rfl
  | ANN => rw [step_busWord hin, decodeBus_commandWord, hann]; rfl

/-- The state after a frame, or its first part. -/
def afterFrame (r : RegId) (ds : List Byte) (s : State) : State :=
  storeBurst r ds (selectTarget (some r) (BitVec.ofNat 3 r.len) s)

/-- A frame, or its first part, takes one step for each word. -/
theorem runSteps_frame {s : State} {r : RegId} {ds : List Byte} {rest : List Input} (hwf : s.cfg.wf = true)
    (hin : s.inputs = busInputs (frameWords s.cfg r ds) ++ rest) (hlen : ds.length ≤ r.len) :
    runSteps (ds.length + 1) s = .next (takeInput rest (afterFrame r ds s)) := by
  have hcount := RegId.toNat_ofNat_len r
  rw [runSteps_succ_of_step _ (step_frameWords hwf hin),
    runSteps_burst rfl rfl rfl (hcount.symm ▸ hlen) (Nat.le_of_eq hcount)]
  rw [afterFrame, ← storeBurst_takeInput, ← storeBurst_takeInput]
  rfl

/-- The frame of the first `n` data bytes stands at the head of the whole frame's words. -/
theorem frameWords_append (c : Config) (r : RegId) (ds es : List Byte) :
    frameWords c r (ds ++ es) = frameWords c r ds ++ es.map dataWord := by
  simp [frameWords]

/-- After fewer steps than a whole frame takes, no flag has changed. -/
theorem runSteps_part_of_frame {s : State} {r : RegId} {ds : List Byte} {rest : List Input} {n : Nat}
    (hwf : s.cfg.wf = true) (hds : ds.length = r.len) (hin : s.inputs = busInputs (frameWords s.cfg r ds) ++ rest)
    (hn : n ≤ r.len) : ∃ t, runSteps n s = .next t ∧ t.valid = s.valid := by
  cases n with
  | zero => exact ⟨s, rfl, rfl⟩
  | succ m =>
    have hm : (ds.take m).length = m := by rw [List.length_take]; omega
    rw [← List.take_append_drop m ds, frameWords_append, busInputs_append, List.append_assoc] at hin
    have hrun := runSteps_frame hwf hin (by omega)
    rw [hm] at hrun
    refine ⟨_, hrun, storeBurst_valid_of_lt r ?_⟩
    rw [hm, selectTarget_remaining, RegId.toNat_ofNat_len]
    omega

/-- Settles O13: the words of a frame select the register and store its bytes, the last of which sets the flag. -/
theorem burstReassemblesInReverse : Obligations.BurstReassemblesInReverse := by
  intro s r ds rest hwf hds hin
  refine ⟨fun n => runSteps_part_of_frame hwf hds hin, takeInput rest (afterFrame r ds s), ?_, ?_⟩
  · rw [← hds]; exact runSteps_frame hwf hin (Nat.le_of_eq hds)
  have hcount : ds.length = (BitVec.ofNat 3 r.len).toNat := by rw [RegId.toNat_ofNat_len, hds]
  have hlen := Nat.le_of_eq (RegId.toNat_ofNat_len r)
  have hwhole := Nat.le_of_eq hcount
  have h0 : BitVec.ofNat 3 r.len ≠ 0 := by cases r <;> decide
  refine ⟨fun k hk => ?_, storeBurst_valid_same r hcount h0, fun r' hr => ⟨?_, fun k _ => ?_⟩, ?_, ?_, ?_, rfl⟩
  · rw [← hds] at hk ⊢; exact storeBurst_byte_same hcount hlen hk
  · exact storeBurst_valid_other ds _ hr
  · exact storeBurst_byte_other hwhole (.inl hr)
  · exact storeBurst_active r ds _
  · have hleft := storeBurst_toNat_remaining r (s := selectTarget (some r) (BitVec.ofNat 3 r.len) s) hwhole
    rw [selectTarget_remaining, hcount, Nat.sub_self] at hleft
    exact BitVec.eq_of_toNat_eq hleft
  · exact storeBurst_busDisabled r ds _

end Sys2Proof.Machine
end

section
/-! PROOFS of the family 40_frame_decoder, the time to READY (R134). The measure `eventsToReady` bounds from below the bus
events that a state needs before READY can be 1: no bus event lowers it by more than 1, and FS.RESET leaves it at 18 or
more. -/

namespace Sys2Proof.Machine

/-! ### A bus event in a state that keeps R27 -/

/-- A bus event always completes where R27 holds. -/
theorem exec_bus_completes {i : Instr} {s : State} (hi : i.isBus = true) (hs : s.burstOk = true) :
    ∃ t, exec i s = .next t := by
  cases i with
  | busCmdA | busCmdB | busCmdC | busCmdAnn | busCmdIgn | busCmdUnrec => exact ⟨_, rfl⟩
  | busData v =>
    rcases execBusData_cases hs v with ⟨-, he⟩ | ⟨-, -, he⟩ | ⟨-, -, r, -, -, he⟩
    · exact ⟨_, he⟩
    · exact ⟨_, he⟩
    · exact ⟨_, he⟩
  | nop | status | fsReady | fsReset | fsCapture | regRd | snapRd | digit | punct | ann | annMask | curSet | curRd
  | colWr | putc | fontSet | fontRd | glyphInfo | glyphOff | chipRes | reserved => cases hi

/-- Every bus event keeps R27. -/
theorem exec_bus_burstOk {i : Instr} {s t : State} (hi : i.isBus = true) (hs : s.burstOk = true)
    (h : exec i s = .next t) : t.burstOk = true := by
  rcases exec_bus_cases hi h with rfl | ⟨r, n, hn, rfl⟩ | ⟨v, -, hdata⟩
  · rfl
  · exact (State.burstOk_some rfl).2 (Nat.le_of_eq hn)
  · rcases execBusData_next hdata with rfl | rfl | ⟨r, hactive, -, h0, hlen, rfl⟩
    · exact hs
    · exact hs
    · refine (State.burstOk_some (s := storeBurstByte r v s) hactive).2 ?_
      rw [storeBurstByte_toNat_remaining r v h0]
      omega

/-- A bus event leaves the list of pending events alone. -/
theorem exec_bus_inputs {i : Instr} {s t : State} (hi : i.isBus = true) (h : exec i s = .next t) :
    t.inputs = s.inputs := by
  rcases exec_bus_cases hi h with rfl | ⟨r, n, -, rfl⟩ | ⟨v, -, hdata⟩
  · rfl
  · rfl
  · rcases execBusData_next hdata with rfl | rfl | ⟨r, -, -, -, -, rfl⟩ <;> rfl

/-! ### The measure -/

/-- How many bus events a register's flag still needs, at the least: the rest of a burst in progress, or a command byte
and a whole burst. -/
def State.eventsToValid (s : State) (r : RegId) : Nat :=
  if s.valid.get r = true then 0
  else if s.active = some r ∧ s.remaining ≠ 0 then s.remaining.toNat
  else r.len + 1

/-- How many bus events READY still needs, at the least. -/
def State.eventsToReady (s : State) : Nat :=
  s.eventsToValid .A + s.eventsToValid .B + s.eventsToValid .C + s.eventsToValid .ANN

theorem State.eventsToValid_of_valid {s : State} {r : RegId} (h : s.valid.get r = true) : s.eventsToValid r = 0 :=
  if_pos h

theorem State.eventsToValid_of_burst {s : State} {r : RegId} (hv : s.valid.get r = false) (ha : s.active = some r)
    (h0 : s.remaining ≠ 0) : s.eventsToValid r = s.remaining.toNat := by
  rw [State.eventsToValid, if_neg (by simp [hv]), if_pos ⟨ha, h0⟩]

theorem State.eventsToValid_of_no_burst {s : State} {r : RegId} (hv : s.valid.get r = false)
    (h : s.active = some r → s.remaining = 0) : s.eventsToValid r = r.len + 1 := by
  rw [State.eventsToValid, if_neg (by simp [hv]), if_neg fun hb => hb.2 (h hb.1)]

/-- Under R27 no register needs more than a command byte and a whole burst. -/
theorem State.eventsToValid_le {s : State} (hs : s.burstOk = true) (r : RegId) : s.eventsToValid r ≤ r.len + 1 := by
  unfold State.eventsToValid
  split
  · exact Nat.zero_le _
  · split
    next hb => exact Nat.le_succ_of_le ((State.burstOk_some hb.1).1 hs)
    next => exact Nat.le_refl _

/-- Only the flag, ACTIVE and REMAINING count. -/
theorem State.eventsToValid_congr {s t : State} {r : RegId} (hv : t.valid.get r = s.valid.get r)
    (ha : t.active = s.active) (hr : t.remaining = s.remaining) : t.eventsToValid r = s.eventsToValid r := by
  unfold State.eventsToValid
  rw [hv, ha, hr]

/-- A register that is not the target needs no fewer events than before, whichever target and count were set. -/
theorem State.eventsToValid_le_of_not_active {s t : State} {r : RegId} (hs : s.burstOk = true)
    (hv : t.valid.get r = s.valid.get r) (ha : t.active ≠ some r) : s.eventsToValid r ≤ t.eventsToValid r := by
  cases hget : s.valid.get r with
  | true => rw [State.eventsToValid_of_valid hget]; exact Nat.zero_le _
  | false =>
    rw [State.eventsToValid_of_no_burst (hv.trans hget) fun h => absurd h ha]
    exact State.eventsToValid_le hs r

/-- A command byte starts its register's burst and brings no register further than that. -/
theorem eventsToValid_selectTarget {s : State} {r : RegId} {n : BitVec 3} (hs : s.burstOk = true) (hn : n.toNat = r.len) :
    s.eventsToValid r ≤ (selectTarget (some r) n s).eventsToValid r + 1 := by
  have hlen := RegId.len_pos r
  have h0 : n ≠ 0 := fun h => by simp [h] at hn; omega
  cases hget : s.valid.get r with
  | true => rw [State.eventsToValid_of_valid hget]; exact Nat.zero_le _
  | false =>
    have hafter : (selectTarget (some r) n s).eventsToValid r = n.toNat := State.eventsToValid_of_burst hget rfl h0
    rw [hafter, hn]
    exact State.eventsToValid_le hs r

/-- A stored byte brings its register one event further. -/
theorem eventsToValid_storeBurstByte {s : State} {r : RegId} (v : Byte) (hactive : s.active = some r)
    (h0 : s.remaining ≠ 0) : s.eventsToValid r ≤ (storeBurstByte r v s).eventsToValid r + 1 := by
  cases hget : s.valid.get r with
  | true => rw [State.eventsToValid_of_valid hget]; exact Nat.zero_le _
  | false =>
    rw [State.eventsToValid_of_burst hget hactive h0]
    by_cases hlast : s.remaining = 1
    · rw [hlast]; exact Nat.le_add_left 1 _
    · have hmore : (storeBurstByte r v s).remaining ≠ 0 := fun h => hlast (remaining_eq_one_of_sub_one h)
      have hvalid : (storeBurstByte r v s).valid.get r = false := by
        rw [storeBurstByte_valid_same, hget, decide_eq_false hlast]; rfl
      rw [State.eventsToValid_of_burst hvalid hactive hmore, storeBurstByte_toNat_remaining r v h0]
      omega

/-- A bus event brings at most one register one event further. -/
theorem exec_bus_eventsToValid {i : Instr} {s t : State} (hi : i.isBus = true) (hs : s.burstOk = true)
    (h : exec i s = .next t) :
    ∃ r, s.eventsToValid r ≤ t.eventsToValid r + 1 ∧ ∀ r', r' ≠ r → s.eventsToValid r' ≤ t.eventsToValid r' := by
  rcases exec_bus_cases hi h with rfl | ⟨r, n, hn, rfl⟩ | ⟨v, -, hdata⟩
  · have hle (r : RegId) : s.eventsToValid r ≤ (selectTarget none 0 s).eventsToValid r :=
      State.eventsToValid_le_of_not_active hs rfl nofun
    exact ⟨.A, Nat.le_succ_of_le (hle .A), fun r _ => hle r⟩
  · refine ⟨r, eventsToValid_selectTarget hs hn, fun r' hr => State.eventsToValid_le_of_not_active hs rfl ?_⟩
    exact fun h => hr (Option.some.inj h).symm
  · rcases execBusData_next hdata with rfl | rfl | ⟨r, hactive, -, h0, -, rfl⟩
    · exact ⟨.A, Nat.le_succ _, fun _ _ => Nat.le_refl _⟩
    · have hle (r : RegId) : s.eventsToValid r ≤ ({ s with busDisabled := true } : State).eventsToValid r :=
        Nat.le_of_eq (State.eventsToValid_congr rfl rfl rfl)
      exact ⟨.A, Nat.le_succ_of_le (hle .A), fun r _ => hle r⟩
    · refine ⟨r, eventsToValid_storeBurstByte v hactive h0, fun r' hr => ?_⟩
      refine State.eventsToValid_le_of_not_active hs (storeBurstByte_valid_other s v hr) ?_
      exact fun h => hr (Option.some.inj (hactive.symm.trans h)).symm

/-- A bus event brings READY at most one event nearer. -/
theorem exec_bus_eventsToReady {i : Instr} {s t : State} (hi : i.isBus = true) (hs : s.burstOk = true)
    (h : exec i s = .next t) : s.eventsToReady ≤ t.eventsToReady + 1 := by
  obtain ⟨r, hr, hother⟩ := exec_bus_eventsToValid hi hs h
  unfold State.eventsToReady
  cases r with
  | A => have hb := hother .B nofun; have hc := hother .C nofun; have hann := hother .ANN nofun; omega
  | B => have ha := hother .A nofun; have hc := hother .C nofun; have hann := hother .ANN nofun; omega
  | C => have ha := hother .A nofun; have hb := hother .B nofun; have hann := hother .ANN nofun; omega
  | ANN => have ha := hother .A nofun; have hb := hother .B nofun; have hc := hother .C nofun; omega

/-- A run of bus events completes, and brings READY at most that many events nearer. -/
theorem runSteps_busInputs {ws : List BusWord} {s : State} (hs : s.burstOk = true) (hin : s.inputs = busInputs ws) :
    ∃ t, runSteps ws.length s = .next t ∧ s.eventsToReady ≤ t.eventsToReady + ws.length := by
  induction ws generalizing s with
  | nil => exact ⟨s, rfl, Nat.le_refl _⟩
  | cons w ws ih =>
    have hi : (decodeBus s.cfg w).isBus = true := (everyBusWordIsOneOperation s.cfg w).2.1
    have htake : (takeInput (busInputs ws) s).burstOk = true := hs
    obtain ⟨u, hu⟩ := exec_bus_completes hi htake
    obtain ⟨t, hrun, hle⟩ := ih (exec_bus_burstOk hi htake hu) (exec_bus_inputs hi hu)
    refine ⟨t, (runSteps_succ_of_step _ ((step_busWord hin).trans hu)).trans hrun, ?_⟩
    have hstep : s.eventsToReady ≤ u.eventsToReady + 1 :=
      exec_bus_eventsToReady (s := takeInput (busInputs ws) s) hi htake hu
    rw [List.length_cons]
    omega

/-! ### After FS.RESET -/

/-- Where READY still needs an event it is 0. -/
theorem ready_eq_false_of_eventsToReady {s : State} (h : 0 < s.eventsToReady) : s.ready = false := by
  rw [Bool.eq_false_iff]
  intro hready
  have hzero (r : RegId) : s.eventsToValid r = 0 :=
    State.eventsToValid_of_valid ((ValidFlags.all_iff _).1 hready r)
  simp [State.eventsToReady, hzero] at h

/-- With every flag clear, the register of a burst in progress needs an event or more, and each other one the whole 1 +
LEN. -/
theorem le_eventsToValid {s : State} {r : RegId} (hv : s.valid.get r = false) :
    (if s.active = some r then 1 else r.len + 1) ≤ s.eventsToValid r := by
  by_cases h0 : s.remaining = 0
  · rw [State.eventsToValid_of_no_burst hv fun _ => h0]
    split
    · exact Nat.le_add_left 1 _
    · exact Nat.le_refl _
  · by_cases ha : s.active = some r
    · rw [if_pos ha, State.eventsToValid_of_burst hv ha h0]
      exact Nat.pos_of_ne_zero fun h => h0 (BitVec.eq_of_toNat_eq h)
    · rw [if_neg ha]
      exact Nat.le_of_eq (State.eventsToValid_of_no_burst hv fun h => absurd h ha).symm

/-- With every flag clear, READY is 18 events away or more: the shortest way is the last byte of a burst in progress to a
long register, and the other three frames. -/
theorem le_eventsToReady {s : State} (h : s.valid = ValidFlags.none) : 18 ≤ s.eventsToReady := by
  have hle (r : RegId) : (if s.active = some r then 1 else r.len + 1) ≤ s.eventsToValid r :=
    le_eventsToValid (by rw [h, ValidFlags.none_get])
  have ha := hle .A
  have hb := hle .B
  have hc := hle .C
  have hann := hle .ANN
  unfold State.eventsToReady
  cases hactive : s.active with
  | none => simp [hactive, RegId.len] at ha hb hc hann; omega
  | some r => cases r <;> simp [hactive, RegId.len] at ha hb hc hann <;> omega

/-- FS.READY answers 0 while READY is 0. -/
theorem exec_fsReady_of_not_ready {s : State} (h : s.ready = false) :
    ∃ u, exec .fsReady s = .next u ∧ u.result = 0 := by
  refine ⟨_, rfl, ?_⟩
  rw [withResult_result, h]
  rfl

/-- A state with the last byte of a burst to A still to come. -/
def lastByteOfA : State := { State.reset with active := some .A, remaining := 1 }

/-- The 18 words of R134: that byte, and the frames of the three other registers. -/
def shortestToReady : List BusWord :=
  dataWord 1 :: (frameWords Config.reference .B [1, 2, 3, 4, 5, 6] ++ frameWords Config.reference .C [1, 2, 3, 4, 5, 6] ++
    frameWords Config.reference .ANN [1, 2])

/-- The state before FS.RESET and the 18 words after it that end in READY = 1. -/
theorem shortestToReady_ready :
    ∃ t u v, exec .fsReset lastByteOfA = .next t ∧
      runSteps 18 { t with inputs := busInputs shortestToReady } = .next u ∧ exec .fsReady u = .next v ∧ v.result = 1 :=
  ⟨_, _, _, rfl, rfl, rfl, rfl⟩

/-- Settles O15: FS.RESET leaves READY at least 18 bus events away, and 18 are enough for `lastByteOfA`. -/
theorem resetThenNotReady : Obligations.ResetThenNotReady := by
  refine ⟨fun s t h => ?_, fun s t ws hs h hws => ?_, ?_⟩
  · cases h
    exact exec_fsReady_of_not_ready rfl
  · cases h
    obtain ⟨u, hrun, hle⟩ := runSteps_busInputs
      (s := { withResult 0 (clearFrameSet s) with inputs := busInputs ws }) hs rfl
    have hfar : 18 ≤ State.eventsToReady { withResult 0 (clearFrameSet s) with inputs := busInputs ws } :=
      le_eventsToReady rfl
    obtain ⟨v, hv, hresult⟩ := exec_fsReady_of_not_ready (ready_eq_false_of_eventsToReady (s := u) (by omega))
    exact ⟨u, v, hrun, hv, hresult⟩
  · obtain ⟨t, u, v, hreset, hrun, hready, hresult⟩ := shortestToReady_ready
    exact ⟨lastByteOfA, t, u, v, shortestToReady, rfl, hreset, rfl, hrun, hready, hresult⟩

end Sys2Proof.Machine
end

section
/-! PROOFS of the family 40_frame_decoder, the host operations on the frame set (R126 to R132). -/

namespace Sys2Proof.Machine

/-- Settles O19: NOP is `withResult 0`. -/
theorem nopOnlySetsAZeroResult : Obligations.NopOnlySetsAZeroResult := fun _ => rfl

/-- The result word alone changes under `withResult`. -/
theorem onlyResult_withResult (v : HostWord) (s : State) : OnlyResult s (withResult v s) := rfl

/-! ### The STATUS word -/

/-- The flags of the STATUS word, bit by bit (R35). -/
theorem statusWord_flags (s : State) :
    s.statusWord.getLsbD 0 = s.valid.a ∧ s.statusWord.getLsbD 1 = s.valid.b ∧ s.statusWord.getLsbD 2 = s.valid.c ∧
    s.statusWord.getLsbD 3 = s.valid.ann ∧ s.statusWord.getLsbD 4 = s.ready ∧ s.statusWord.getLsbD 5 = s.busIdle ∧
    s.statusWord.getLsbD 6 = s.busDisabled ∧ s.statusWord.getLsbD 7 = s.snapValid ∧
    s.statusWord.getLsbD 8 = s.badop := by
  simp only [State.statusWord, flagBit, BitVec.getLsbD_append]
  simp

/-- Above its nine flags the STATUS word holds ACTIVE, then REMAINING, then zeros. -/
theorem statusWord_above_flags (s : State) (lo len : Nat) :
    s.statusWord.extractLsb' (lo + 9) len = (0#17 ++ s.remaining ++ activeCode s.active).extractLsb' lo len := by
  unfold State.statusWord
  iterate 9 rw [BitVec.extractLsb'_append_eq_of_le (by omega)]
  rfl

/-- ACTIVE stands in bits 11:9 (R35). -/
theorem statusWord_active (s : State) : s.statusWord.extractLsb' 9 3 = activeCode s.active :=
  (statusWord_above_flags s 0 3).trans BitVec.extractLsb'_append_eq_right

/-- REMAINING stands in bits 14:12 (R35). -/
theorem statusWord_remaining (s : State) : s.statusWord.extractLsb' 12 3 = s.remaining := by
  rw [statusWord_above_flags s 3 3, BitVec.extractLsb'_append_eq_of_le (Nat.le_refl 3)]
  exact BitVec.extractLsb'_append_eq_right

/-- Bits 31:15 are 0 (R35). -/
theorem statusWord_high (s : State) : s.statusWord.extractLsb' 15 17 = 0 := by
  rw [statusWord_above_flags s 6 17, BitVec.extractLsb'_append_eq_of_le (by decide)]
  exact BitVec.extractLsb'_append_eq_left

/-- Settles O20: the fields of the STATUS word. -/
theorem statusReportsEveryField : Obligations.StatusReportsEveryField := by
  intro s
  obtain ⟨ha, hb, hc, hann, hready, hidle, hdisabled, hsnap, hbadop⟩ := statusWord_flags s
  refine ⟨withResult s.statusWord s, rfl, onlyResult_withResult _ s, ha, hb, hc, hann, hready, hidle, hdisabled, hsnap,
    hbadop, ?_, ?_, ?_⟩
  · rw [withResult_result, ← toNat_extractLsb'_eq_wordField, statusWord_active]
    rcases s.active with _ | r
    · rfl
    · cases r <;> rfl
  · rw [withResult_result, ← toNat_extractLsb'_eq_wordField, statusWord_remaining]
  · rw [withResult_result, ← toNat_extractLsb'_eq_wordField, statusWord_high]; rfl

/-! ### FS.READY, FS.RESET and FS.CAPTURE -/

/-- READY by its four flags (R23). -/
theorem ready_iff (s : State) :
    s.ready = true ↔ s.valid.a = true ∧ s.valid.b = true ∧ s.valid.c = true ∧ s.valid.ann = true := by
  simp [State.ready, ValidFlags.all, and_assoc]

/-- Settles O21: the result is READY, zero-extended. -/
theorem fsReadyTestsAllFourFlags : Obligations.FsReadyTestsAllFourFlags := by
  intro s
  refine ⟨_, rfl, onlyResult_withResult _ s, ?_⟩
  rw [withResult_result]
  by_cases h : s.ready = true
  · rw [if_pos ((ready_iff s).1 h), h]; rfl
  · rw [if_neg fun hall => h ((ready_iff s).2 hall), Bool.eq_false_iff.2 h]; rfl

/-- Settles O22: FS.RESET is `clearFrameSet` with the result 0. -/
theorem fsResetClearsTheFrameSet : Obligations.FsResetClearsTheFrameSet := fun s =>
  ⟨withResult 0 (clearFrameSet s), rfl, rfl, rfl, fun r => ⟨ValidFlags.none_get r, fun k _ => Buffers.zero_byte r k⟩, rfl⟩

theorem exec_fsCapture_of_ready {s : State} (h : s.ready = true) :
    exec .fsCapture s = .next (withResult 1 (clearFrameSet { s with snap := s.live, snapValid := true })) := if_pos h

theorem exec_fsCapture_of_not_ready {s : State} (h : s.ready = false) :
    exec .fsCapture s = .next (withResult 0 s) := if_neg (by simp [h])

/-- Settles O23: with READY the bank takes the live bytes before they are cleared, without it only the result is set. -/
theorem fsCaptureCopiesAndClears : Obligations.FsCaptureCopiesAndClears := by
  refine fun s => ⟨fun h => ⟨_, exec_fsCapture_of_ready h, rfl, rfl, fun r => ?_, rfl⟩, exec_fsCapture_of_not_ready⟩
  exact ⟨ValidFlags.none_get r, fun k _ => ⟨rfl, Buffers.zero_byte r k⟩⟩

/-! ### REG.RD and SNAP.RD -/

/-- A byte as a host word is the byte's number. -/
theorem toNat_setWidth_byte (v : Byte) : (v.setWidth 32).toNat = v.toNat :=
  BitVec.toNat_setWidth_of_le (by decide)

theorem exec_regRd_of_lt {r : RegId} {idx : BitVec 3} (s : State) (h : idx.toNat < r.len) :
    exec (.regRd r idx) s = .next (withResult ((s.live.byte r idx.toNat).setWidth 32) s) := if_pos (decide_eq_true h)

theorem exec_snapRd_of_lt {r : RegId} {idx : BitVec 3} (s : State) (h : idx.toNat < r.len) :
    exec (.snapRd r idx) s = .next (withResult ((s.snap.byte r idx.toNat).setWidth 32) s) := if_pos (decide_eq_true h)

/-- Settles O24: in range a live byte is the result, out of range the read is a misuse. -/
theorem regRdReadsALiveByte : Obligations.RegRdReadsALiveByte := fun s r idx =>
  ⟨fun h => ⟨_, exec_regRd_of_lt s h, onlyResult_withResult _ s, toNat_setWidth_byte (s.live.byte r idx.toNat)⟩,
    fun h => exec_misuse s (decide_eq_true h)⟩

/-- Settles O25: in range a snapshot byte is the result, out of range the read is a misuse. -/
theorem snapRdReadsASnapshotByte : Obligations.SnapRdReadsASnapshotByte := fun s r idx =>
  ⟨fun h => ⟨_, exec_snapRd_of_lt s h, onlyResult_withResult _ s, toNat_setWidth_byte (s.snap.byte r idx.toNat)⟩,
    fun h => exec_misuse s (decide_eq_true h)⟩

end Sys2Proof.Machine
end

section
/-! PROOFS of the family 41_field_decoders: the digit, punctuation and annunciator decoders (R160 to R173). -/

namespace Sys2Proof

/-! ### The byte and the nibble that feed a position -/

/-- `PAIR_BYTE` read from its vector and from its list is the same index (R160). -/
theorem Config.pairIndex_eq_positionIndex (c : Config) (pos : Nat) : c.pairIndex pos = positionIndex c pos := by
  simp [Config.pairIndex, positionIndex, List.getD_eq_getElem?_getD]

theorem toNat_nib_hi (v : Byte) : (nib v .hi).toNat = v.toNat / 16 := by
  have hv := v.isLt
  rw [nib, BitVec.extractLsb'_toNat, Nat.shiftRight_eq_div_pow]
  omega

theorem toNat_nib_lo (v : Byte) : (nib v .lo).toNat = v.toNat % 16 := BitVec.extractLsb'_toNat 0 4 v

/-- The half of a position is HI when the position's parity says EVEN_NIBBLE and that is HI, or neither (R160). -/
theorem Config.half_eq (c : Config) (pos : Nat) :
    c.half pos = if (pos % 2 = 0) = (c.evenNibble = .hi) then .hi else .lo := by
  unfold Config.half
  cases c.evenNibble with
  | hi => simp [Nibble.other]
  | lo => by_cases hpos : pos % 2 = 0 <;> simp [Nibble.other, hpos]

/-- The nibble of a position as a number (R160). -/
theorem toNat_nib_half (c : Config) (pos : Nat) (v : Byte) :
    (nib v (c.half pos)).toNat = positionNibble c pos v := by
  rw [Config.half_eq, positionNibble]
  split
  · exact toNat_nib_hi v
  · exact toNat_nib_lo v

namespace Machine

theorem exec_digit_of_lt {pos : BitVec 4} (s : State) (h : pos.toNat < 12) :
    exec (.digit pos) s = .next (withResult ((digitAt s.cfg pos.toNat s.snap).setWidth 32) s) :=
  if_pos (decide_eq_true h)

theorem exec_punct_of_lt {pos : BitVec 4} (s : State) (h : pos.toNat < 12) :
    exec (.punct pos) s = .next (withResult ((punctClass (punctByte s.cfg pos.toNat s.snap)).setWidth 32) s) :=
  if_pos (decide_eq_true h)

theorem exec_ann_of_lt {pos : BitVec 4} (s : State) (h : pos.toNat < 12) :
    exec (.ann pos) s = .next (withResult ((flagBit (annBit s.snap pos.toNat)).setWidth 32) s) :=
  if_pos (decide_eq_true h)

/-! ### Digits -/

/-- Settles O30: each row is the branch of `digitMap` that its codes reach. -/
theorem digitMapFollowsTheTable : Obligations.DigitMapFollowsTheTable := by
  intro raw n
  refine ⟨fun h => if_pos h, fun hlo hhi => ?_, fun h => ?_, fun h => ?_, fun h => ?_, fun hlo hhi => ?_,
    fun hlo hhi => ?_, fun h => ?_⟩ <;> unfold digitMap
  · rw [if_neg (by omega), if_pos hhi, BitVec.toNat_ofNat]; omega
  · iterate 2 rw [if_neg (by omega)]
    exact if_pos h
  · iterate 3 rw [if_neg (by omega)]
    exact if_pos h
  · iterate 4 rw [if_neg (by omega)]
    exact if_pos h
  · iterate 5 rw [if_neg (by omega)]
    rw [if_pos ⟨hlo, hhi⟩, BitVec.toNat_ofNat]; omega
  · iterate 6 rw [if_neg (by omega)]
    rw [if_pos ⟨hlo, hhi⟩, BitVec.toNat_ofNat]; omega
  · iterate 7 rw [if_neg (by omega)]

/-- No row of the digit table holds 0 (R166). -/
theorem digitMap_ne_zero (raw : BitVec 7) : digitMap raw ≠ 0 := by
  simp only [digitMap]
  repeat' split
  all_goals bv_omega

/-- The raw code of a position in the fields' numbers (R161, R162). -/
theorem rawCode_eq (c : Config) (pos : Nat) (b : Buffers) :
    rawCode c pos b = c.rawCombine.getD
      (positionNibble c pos (b.byte .C (positionIndex c pos)) / 2 ^ c.cBit.val % 2 * 64 +
        positionNibble c pos (b.byte .B (positionIndex c pos)) / 2 ^ c.bDigitLsb.val % 4 * 16 +
        positionNibble c pos (b.byte .A (positionIndex c pos))) 0 := by
  simp only [rawCode, Config.combine, Config.fieldA, Config.fieldB, Config.fieldC, BitVec.toNat_ofNat, toNat_nib_half,
    Config.pairIndex_eq_positionIndex, Nat.reducePow]

/-- Settles O31: in range the mapped raw code is the result, out of range the operation is a misuse. -/
theorem digitDecodesOnePosition : Obligations.DigitDecodesOnePosition := by
  refine fun s pos => ⟨fun h => ?_, fun h => exec_misuse s (decide_eq_true h)⟩
  have hresult := toNat_setWidth_byte (digitAt s.cfg pos.toNat s.snap)
  refine ⟨_, exec_digit_of_lt s h, onlyResult_withResult _ s, fun hzero => ?_, ?_⟩
  · rw [withResult_result] at hzero
    rw [hzero] at hresult
    exact digitMap_ne_zero _ (BitVec.eq_of_toNat_eq hresult.symm)
  · rw [withResult_result, hresult, digitAt, rawCode_eq]

/-! ### Punctuation -/

/-- Settles O32: the rows are the branches of `punctClass`. -/
theorem punctClassFollowsTheTable : Obligations.PunctClassFollowsTheTable := by
  refine fun m => ⟨fun h => if_pos h, ?_, ?_, fun h => ?_⟩
  · rintro (rfl | rfl) <;> rfl
  · rintro (rfl | rfl) <;> rfl
  · simp only [List.mem_cons, List.not_mem_nil, or_false, not_or] at h
    obtain ⟨h40, h04, h80, h08, hC0, h0C⟩ := h
    unfold punctClass
    rw [if_neg (not_or.2 ⟨h40, h04⟩), if_neg (not_or.2 ⟨h80, h08⟩), if_neg (not_or.2 ⟨hC0, h0C⟩)]

/-- The HI mask keeps bits 7:6 (R167). -/
theorem and_mask_hi (v : Byte) : v &&& 0xC0 = v.extractLsb' 6 2 ++ 0#6 := by
  have hsplit : v.extractLsb' 6 2 ++ v.extractLsb' 0 6 = v :=
    (BitVec.extractLsb'_append_extractLsb'_eq_extractLsb' rfl).trans BitVec.extractLsb'_eq_self
  calc v &&& 0xC0 = (v.extractLsb' 6 2 ++ v.extractLsb' 0 6) &&& (BitVec.allOnes 2 ++ 0#6) := by rw [hsplit]; rfl
    _ = v.extractLsb' 6 2 ++ 0#6 := by rw [BitVec.and_append, BitVec.and_allOnes, BitVec.and_zero]

/-- The LO mask keeps bits 3:2 (R167). -/
theorem and_mask_lo (v : Byte) : v &&& 0x0C = 0#4 ++ v.extractLsb' 2 2 ++ 0#2 := by
  have hsplit : v.extractLsb' 4 4 ++ v.extractLsb' 2 2 ++ v.extractLsb' 0 2 = v := by
    rw [BitVec.extractLsb'_append_extractLsb'_eq_extractLsb' (show 4 = 2 + 2 from rfl)]
    exact (BitVec.extractLsb'_append_extractLsb'_eq_extractLsb' rfl).trans BitVec.extractLsb'_eq_self
  calc v &&& 0x0C = (v.extractLsb' 4 4 ++ v.extractLsb' 2 2 ++ v.extractLsb' 0 2) &&&
        (0#4 ++ BitVec.allOnes 2 ++ 0#2) := by rw [hsplit]; rfl
    _ = 0#4 ++ v.extractLsb' 2 2 ++ 0#2 := by
      rw [BitVec.and_append, BitVec.and_append, BitVec.and_zero, BitVec.and_allOnes, BitVec.and_zero]

/-- The classes are numbered by the two bits that the HI mask keeps (R168). -/
theorem punctClass_hi : ∀ f : BitVec 2, punctClass (f ++ 0#6) = f := by decide

/-- The classes are numbered by the two bits that the LO mask keeps (R168). -/
theorem punctClass_lo : ∀ f : BitVec 2, punctClass (0#4 ++ f ++ 0#2) = f := by decide

/-- The class of a masked byte is the top two bits of the nibble, whichever half feeds the position (R167, R168). -/
theorem toNat_punctClass_and_punctMask (c : Config) (pos : Nat) (v : Byte) :
    (punctClass (v &&& c.punctMask pos)).toNat = (nib v (c.half pos)).toNat / 4 := by
  have hv := v.isLt
  unfold Config.punctMask
  cases c.half pos with
  | hi =>
    rw [and_mask_hi, punctClass_hi, BitVec.extractLsb'_toNat, Nat.shiftRight_eq_div_pow, toNat_nib_hi]
    omega
  | lo =>
    rw [and_mask_lo, punctClass_lo, BitVec.extractLsb'_toNat, Nat.shiftRight_eq_div_pow, toNat_nib_lo]
    omega

/-- Settles O33: in range the class is the result, out of range the operation is a misuse. -/
theorem punctDecodesOnePosition : Obligations.PunctDecodesOnePosition := by
  refine fun s pos => ⟨fun h => ?_, fun h => exec_misuse s (decide_eq_true h)⟩
  refine ⟨_, exec_punct_of_lt s h, onlyResult_withResult _ s, ?_⟩
  rw [withResult_result, BitVec.toNat_setWidth_of_le (by decide), punctByte, toNat_punctClass_and_punctMask,
    toNat_nib_half, Config.pairIndex_eq_positionIndex]

/-! ### Annunciators -/

/-- The mask as a number, ANN.buf[0] being its high byte (R170). -/
theorem toNat_annMask (b : Buffers) :
    (annMask b).toNat = ((b.byte .ANN 0).toNat * 256 + (b.byte .ANN 1).toNat) % 4096 := by
  rw [annMask, BitVec.toNat_setWidth, BitVec.toNat_append, ← Nat.shiftLeft_add_eq_or_of_lt (b.byte .ANN 1).isLt,
    Nat.shiftLeft_eq]

/-- The bit of a position as a number (R171). -/
theorem toNat_flagBit_annBit (b : Buffers) (pos : Nat) :
    (flagBit (annBit b pos)).toNat = (annMask b).toNat / 2 ^ (11 - pos) % 2 := by
  rw [flagBit, BitVec.toNat_ofBool, annBit, BitVec.getLsbD, Nat.toNat_testBit]

/-- Settles O34: ANN.MASK answers the mask, and ANN in range one bit of it; out of range ANN is a misuse. -/
theorem annunciatorsReadTheMask : Obligations.AnnunciatorsReadTheMask := by
  refine fun s => ⟨⟨_, rfl, onlyResult_withResult _ s, ?_⟩, fun pos => ⟨fun h => ?_, fun h => ?_⟩⟩
  · rw [withResult_result, BitVec.toNat_setWidth_of_le (by decide), toNat_annMask]
  · refine ⟨_, exec_ann_of_lt s h, onlyResult_withResult _ s, ?_⟩
    rw [withResult_result, BitVec.toNat_setWidth_of_le (by decide), toNat_flagBit_annBit, toNat_annMask]
  · exact exec_misuse s (decide_eq_true h)

end Machine
end Sys2Proof
end

section
/-! PROOFS of the family 42_glyph_renderer, the font: FONT_BASE (R195, R196), where a glyph of the active font stands (R191
to R194), and the results of GLYPH.INFO and GLYPH.OFF (R197, R198). -/

namespace Sys2Proof.Machine

/-! ### FONT_BASE -/

/-- The effect of a host operation leaves FONT_BASE alone, or is that of FONT.SET. -/
theorem HostEffect.fontBase_cases {s u : State} {i : Instr} (h : HostEffect s i u) :
    u.fontBase = s.fontBase ∨ ∃ a, i = .fontSet a := by
  cases h with
  | font a => exact .inr ⟨a, rfl⟩
  | column b => exact .inl (writeColumn_effect b s).fontBase_eq
  | char code hput => exact .inl (putChar_effect hput).1.fontBase_eq
  | none | reset | capture | cursor => exact .inl rfl

/-- A bus event leaves FONT_BASE alone. -/
theorem exec_bus_fontBase {i : Instr} {s t : State} (hi : i.isBus = true) (h : exec i s = .next t) :
    t.fontBase = s.fontBase := by
  rcases exec_bus_cases hi h with rfl | ⟨r, n, -, rfl⟩ | ⟨v, -, hdata⟩
  · rfl
  · rfl
  · rcases execBusData_next hdata with rfl | rfl | ⟨r, -, -, -, -, rfl⟩ <;> rfl

/-- Settles O43: FONT.SET is the one operation whose effect writes FONT_BASE, and FONT.RD answers it zero-extended. -/
theorem fontBaseIsSetAndRead : Obligations.FontBaseIsSetAndRead := by
  refine ⟨fun i s t h hne => ?_, fun s => ⟨fun _ => rfl, _, rfl, onlyResult_withResult _ s, ?_⟩⟩
  · cases hi : i.isBus with
    | true => exact absurd (exec_bus_fontBase hi h) hne
    | false =>
      rcases exec_host_cases hi h with ⟨-, rfl⟩ | ⟨-, u, hu, ht⟩
      · exact absurd rfl hne
      · rw [ht] at hne
        exact hu.fontBase_cases.resolve_left hne
  · exact BitVec.toNat_setWidth_of_le (by decide)

/-! ### Where a glyph stands -/

theorem romByte_lt (c : Config) (a : Nat) : romByte c a < 256 := (c.fontRom.read a).isLt

/-- A font has at most 32 pages, so that GLYPH.INFO's 6-bit field holds their number (R63, R197). -/
theorem romPages_le (c : Config) (base : Nat) : romPages c base ≤ 32 := by
  have := romByte_lt c (base + 3)
  unfold romPages
  omega

theorem locateGlyph_of_not_inFontRange {c : Config} {base : Nat} {code : Byte} (h : base + 5 < c.fontRomSize)
    (hr : ¬inFontRange c base code) : locateGlyph c base code.toNat = .ok none := by
  unfold locateGlyph
  rw [readHeader_ok h, except_bind_ok, if_pos]
  simp only [inFontRange, romHeader] at hr ⊢
  omega

/-- In the font's range a glyph is located by its kind: R193 for a fixed-width font, R194 for a variable-width one. -/
theorem locateGlyph_of_inFontRange {c : Config} {base : Nat} {code : Byte} (h : base + 5 < c.fontRomSize)
    (hr : inFontRange c base code) :
    locateGlyph c base code.toNat =
      if romByte c (base + 2) ≠ 0 then
        .ok (some (fixedGlyph (romHeader c base) (code.toNat - romByte c (base + 4))))
      else some <$> variableGlyph c base (romHeader c base) (code.toNat - romByte c (base + 4)) := by
  unfold locateGlyph
  rw [readHeader_ok h, except_bind_ok, if_neg]
  · rfl
  · simp only [inFontRange, romHeader] at hr ⊢
    omega

/-- The sum of the first `n` entries of the width table of the font at `base`. -/
def romWidthSum (c : Config) (base n : Nat) : Nat := ((List.range n).map (fun k => romByte c (base + 6 + k))).sum

/-- Every width is at most 255. -/
theorem romWidthSum_le (c : Config) (base n : Nat) : romWidthSum c base n ≤ n * 255 := by
  induction n with
  | zero => exact Nat.le_refl 0
  | succ n ih =>
    have hlast : romWidthSum c base (n + 1) = romWidthSum c base n + romByte c (base + 6 + n) := by
      simp only [romWidthSum, List.range_succ, List.map_append, List.sum_append_nat, List.map_cons, List.map_nil,
        List.sum_cons, List.sum_nil, Nat.add_zero]
    have := romByte_lt c (base + 6 + n)
    omega

/-- A glyph of a variable-width font whose width entries up to the glyph's own are in the ROM (R194). -/
theorem variableGlyph_ok {c : Config} {base i : Nat} (h : base + 6 + i < c.fontRomSize) :
    variableGlyph c base (romHeader c base) i = .ok
      { offset := romWidthSum c base i * romPages c base + (romHeader c base).charCount + 6
        width := romByte c (base + 6 + i), pages := romPages c base } := by
  unfold variableGlyph tableOffset
  rw [fontRead_ok h, except_bind_ok, widthSum_ok (Nat.le_of_lt h)]
  rfl

/-- At most 255 · 255 columns before a glyph, of at most 32 pages each, keep its offset inside the 24-bit field of R198. -/
theorem glyphOffset_lt {columns pages table : Nat} (hcolumns : columns ≤ 255 * 255) (hpages : pages ≤ 32)
    (htable : table ≤ 256) : columns * pages + table + 6 < 2 ^ 24 := by
  have := Nat.mul_le_mul hcolumns hpages
  omega

/-! ### The result words -/

/-- An appended bit vector as a number. -/
theorem toNat_append_eq_add {n m : Nat} (x : BitVec n) (y : BitVec m) : (x ++ y).toNat = x.toNat * 2 ^ m + y.toNat := by
  rw [BitVec.toNat_append, ← Nat.shiftLeft_add_eq_or_of_lt y.isLt, Nat.shiftLeft_eq]

/-- The result word of GLYPH.INFO where the page count and the width fit in their fields (R197). -/
theorem toNat_glyphInfoWord {g : Glyph} (hpages : g.pages < 2 ^ 6) (hwidth : g.width < 2 ^ 8) :
    (glyphInfoWord (some g)).toNat = 2 ^ 31 + g.pages * 2 ^ 8 + g.width := by
  change (1#1 ++ 0#17 ++ BitVec.ofNat 6 g.pages ++ BitVec.ofNat 8 g.width).toNat = _
  rw [toNat_append_eq_add, toNat_append_eq_add, BitVec.toNat_ofNat, BitVec.toNat_ofNat, Nat.mod_eq_of_lt hpages,
    Nat.mod_eq_of_lt hwidth]
  change (2 ^ 17 * 2 ^ 6 + g.pages) * 2 ^ 8 + g.width = _
  omega

/-- The result word of GLYPH.OFF where the offset fits in its field (R198). -/
theorem toNat_glyphOffWord {g : Glyph} (hoffset : g.offset < 2 ^ 24) :
    (glyphOffWord (some g)).toNat = 2 ^ 31 + g.offset := by
  change (1#1 ++ 0#7 ++ BitVec.ofNat 24 g.offset).toNat = _
  rw [toNat_append_eq_add, BitVec.toNat_ofNat, Nat.mod_eq_of_lt hoffset]
  rfl

theorem exec_glyphInfo_of_ok {s : State} {code : Byte} {g : Option Glyph}
    (h : locateGlyph s.cfg s.fontBase.toNat code.toNat = .ok g) :
    exec (.glyphInfo code) s = .next (withResult (glyphInfoWord g) s) := by
  change execGlyphInfo code s = _
  rw [execGlyphInfo, h]

theorem exec_glyphOff_of_ok {s : State} {code : Byte} {g : Option Glyph}
    (h : locateGlyph s.cfg s.fontBase.toNat code.toNat = .ok g) :
    exec (.glyphOff code) s = .next (withResult (glyphOffWord g) s) := by
  change execGlyphOff code s = _
  rw [execGlyphOff, h]

/-- GLYPH.INFO and GLYPH.OFF of a located glyph whose numbers fit in the fields of the two results. -/
theorem exec_located {s : State} {code : Byte} {offset width pages : Nat} (hpages : pages ≤ 32) (hwidth : width < 256)
    (hoffset : offset < 2 ^ 24)
    (h : locateGlyph s.cfg s.fontBase.toNat code.toNat = .ok (some { offset, width, pages })) :
    (∃ t, exec (.glyphInfo code) s = .next t ∧ OnlyResult s t ∧ t.result.toNat = 2 ^ 31 + pages * 2 ^ 8 + width) ∧
    (∃ t, exec (.glyphOff code) s = .next t ∧ OnlyResult s t ∧ t.result.toNat = 2 ^ 31 + offset) :=
  ⟨⟨_, exec_glyphInfo_of_ok h, onlyResult_withResult _ s,
      toNat_glyphInfoWord (Nat.lt_of_le_of_lt hpages (by decide)) hwidth⟩,
    ⟨_, exec_glyphOff_of_ok h, onlyResult_withResult _ s, toNat_glyphOffWord hoffset⟩⟩

/-- Settles O44: the glyph is `fixedGlyph` of the header, whose numbers fit in the fields of both results. -/
theorem fixedWidthGlyphIsLocated : Obligations.FixedWidthGlyphIsLocated := by
  intro s code F FW hrom hrange hFW
  have hlocate := (locateGlyph_of_inFontRange hrom hrange).trans (if_pos hFW)
  have hpages := romPages_le s.cfg F
  have hwidth : FW < 256 := romByte_lt _ _
  have hoffset : (code.toNat - romByte s.cfg (F + 4)) * romPages s.cfg F * FW + 6 < 2 ^ 24 := by
    have hcolumns : (code.toNat - romByte s.cfg (F + 4)) * FW ≤ 255 * 255 :=
      Nat.mul_le_mul (by have := code.isLt; omega) (Nat.le_of_lt_succ hwidth)
    rw [Nat.mul_right_comm]
    exact glyphOffset_lt hcolumns hpages (Nat.zero_le _)
  exact exec_located hpages hwidth hoffset hlocate

/-- Settles O45: the width table up to the character is in the ROM, and the numbers of the located glyph fit in the fields
of both results. -/
theorem variableWidthGlyphIsLocated : Obligations.VariableWidthGlyphIsLocated := by
  intro s code F i N hrom hrange hFW
  have hlocate := (locateGlyph_of_inFontRange (by omega) hrange).trans (if_neg fun h => h hFW)
  rw [variableGlyph_ok hrom] at hlocate
  have hpages := romPages_le s.cfg F
  have hsum : romWidthSum s.cfg F i ≤ 255 * 255 :=
    Nat.le_trans (romWidthSum_le s.cfg F i) (Nat.mul_le_mul_right 255 (by have := code.isLt; omega))
  have hN : N ≤ 256 := by have := romByte_lt s.cfg (F + 5); omega
  exact exec_located hpages (romByte_lt _ _) (glyphOffset_lt hsum hpages hN) hlocate

/-! ### The cases in which PUTC does nothing -/

theorem exec_putc_of_ok {code : Byte} {s u : State} (h : putChar code s = .ok u) :
    exec (.putc code) s = .next (withResult 0 u) := by
  change execPutc code s = _
  rw [execPutc, h]

/-- The first two no-op cases of R200. -/
theorem putChar_of_not_mayPut {code : Byte} {s : State} (h : ¬s.mayPut code) : putChar code s = .ok s := by
  unfold putChar
  by_cases hb : s.cfg.inBounds s.cursorX.toNat s.cursorY.toNat = true
  · obtain ⟨hx, hy⟩ := Config.inBounds_iff.1 hb
    rw [if_neg (by simp [hb]), if_pos (Nat.lt_of_not_le fun hcode => h ⟨hx, hy, hcode⟩)]
  · rw [if_pos (by simp [hb])]

/-- Settles O48: out of bounds or not printable, PUTC stops before the font; else the code has no glyph. -/
theorem putcNoOpCases : Obligations.PutcNoOpCases := by
  intro s code hcases
  refine exec_putc_of_ok ?_
  by_cases hput : s.mayPut code
  · obtain ⟨hx, hy, hcode⟩ := id hput
    obtain ⟨hrom, hrange⟩ : s.fontBase.toNat + 5 < s.cfg.fontRomSize ∧ ¬inFontRange s.cfg s.fontBase.toNat code := by
      rcases hcases with (hright | hbelow) | hsmall | hfont
      · exact absurd hx (Nat.not_le.2 hright)
      · exact absurd hy (Nat.not_le.2 hbelow)
      · exact absurd hcode (Nat.not_le.2 hsmall)
      · exact hfont
    rw [putChar_mayPut hput, locateGlyph_of_not_inFontRange hrom hrange]
    rfl
  · exact putChar_of_not_mayPut hput

end Sys2Proof.Machine
end

section
/-! PROOFS of the family 42_glyph_renderer, PUTC of a located glyph: where the cursor ends and when it faults (R201, R203),
how many transactions it issues (R205), and which ones, in their order (R199, R202). -/

namespace Sys2Proof.Machine

/-! ### Completion -/

/-- A PUTC of a located glyph: the pages of the glyph, then the advance of R203. -/
theorem exec_putc_located {s : State} {code : Byte} {g : Glyph} (hput : s.mayPut code)
    (hlocate : locateGlyph s.cfg s.fontBase.toNat code.toNat = .ok (some g)) :
    exec (.putc code) s = ofExcept (withResult 0 <$> drawGlyph g s) := by
  have hchar : putChar code s = drawGlyph g s := by rw [putChar_mayPut hput, hlocate, except_bind_ok]
  change execPutc code s = _
  rw [execPutc, hchar]
  cases drawGlyph g s <;> rfl

theorem drawGlyph_eq (g : Glyph) (s : State) :
    drawGlyph g s = setCursor (s.cursorX.toNat + g.width + s.cfg.glyphSpacing.toNat) s.cursorY.toNat <$>
      streamPages g.width s.cursorX.toNat s.cursorY.toNat 0 (s.fontBase.toNat + g.offset) g.pages s := by
  unfold drawGlyph
  dsimp only
  cases streamPages g.width s.cursorX.toNat s.cursorY.toNat 0 (s.fontBase.toNat + g.offset) g.pages s <;> rfl

/-- A glyph is drawn exactly when its streamed bytes are in the ROM. -/
theorem drawGlyph_total {g : Glyph} {s : State} (hy : s.cursorY.toNat ≤ s.cfg.displayBottom) :
    (s.glyphInRom g → ∃ u, drawGlyph g s = .ok u) ∧
    (¬s.glyphInRom g → ∃ a, s.cfg.fontRomSize ≤ a ∧ drawGlyph g s = .error (.fontReadOutOfRom a)) := by
  obtain ⟨hok, herror⟩ := streamPages_total (w := g.width) (x0 := s.cursorX.toNat) (n := g.pages) (p := 0)
    (a := s.fontBase.toNat + g.offset) (s := s) (y0 := s.cursorY.toNat) (by omega)
  refine ⟨fun h => ?_, fun h => ?_⟩
  · obtain ⟨u, hu⟩ := hok h
    exact ⟨_, by rw [drawGlyph_eq, hu]; rfl⟩
  · obtain ⟨a, ha, hu⟩ := herror h
    exact ⟨a, ha, by rw [drawGlyph_eq, hu]; rfl⟩

/-- Settles O49: the drawing is total on the ROM, and the cursor's advance does not wrap, the edge being below 2048. -/
theorem putcDrawsAndAdvances : Obligations.PutcDrawsAndAdvances := by
  intro s code g hwf hput hlocate
  obtain ⟨hx, hy, -⟩ := id hput
  obtain ⟨hok, herror⟩ := drawGlyph_total (g := g) hy
  rw [exec_putc_located hput hlocate]
  refine ⟨fun h => ?_, fun h => ?_⟩
  · obtain ⟨u, hu⟩ := hok h
    obtain ⟨heffect, hcursorX, hcursorY⟩ := drawGlyph_effect hu
    refine ⟨withResult 0 u, by rw [hu]; rfl, ?_, rfl, ?_, hcursorY⟩
    · unfold OnlyPixels
      rw [heffect.frame]
      rfl
    · obtain ⟨hedge, -⟩ := Config.edges_lt (Config.geometryWf_of_wf hwf)
      have hwidth := locateGlyph_width hlocate
      have hspacing := s.cfg.glyphSpacing.isLt
      rw [withResult_cursorX, hcursorX, BitVec.toNat_ofNat, Nat.mod_eq_of_lt]
      omega
  · obtain ⟨a, ha, hu⟩ := herror h
    exact ⟨a, ha, by rw [hu]; rfl⟩

/-- The pages behind a PUTC of a located glyph that completes; the advance after them is no transaction. -/
theorem exec_putc_next_pages {s t : State} {code : Byte} {g : Glyph} (hput : s.mayPut code)
    (hlocate : locateGlyph s.cfg s.fontBase.toNat code.toNat = .ok (some g)) (h : exec (.putc code) s = .next t) :
    ∃ u, streamPages g.width s.cursorX.toNat s.cursorY.toNat 0 (s.fontBase.toNat + g.offset) g.pages s = .ok u ∧
      t.dlog = u.dlog := by
  rw [exec_putc_located hput hlocate, drawGlyph_eq] at h
  cases hu : streamPages g.width s.cursorX.toNat s.cursorY.toNat 0 (s.fontBase.toNat + g.offset) g.pages s with
  | error f => rw [hu] at h; cases h
  | ok u => rw [hu] at h; cases h; exact ⟨u, rfl, rfl⟩

/-! ### One page of a glyph -/

/-- The first of some pages, and what is after it: nothing when it is the last page or the next one's row is below the
bottom edge, else the pages from the next one on (R201, R202). -/
theorem streamPages_succ_cases {w x0 y0 n p a : Nat} {s t : State} (h : streamPages w x0 y0 p a (n + 1) s = .ok t)
    (hy : y0 + 8 * p ≤ s.cfg.displayBottom) :
    ∃ v, streamColumns a w s = .ok v ∧
      ((streamedPages s.cfg (y0 + 8 * p) (n + 1) = 1 ∧ t = v) ∨
       (streamedPages s.cfg (y0 + 8 * p) (n + 1) = streamedPages s.cfg (y0 + 8 * (p + 1)) n + 1 ∧
        y0 + 8 * (p + 1) ≤ s.cfg.displayBottom ∧
        streamPages w x0 y0 (p + 1) (a + w) n (pageCursor x0 y0 (p + 1) v) = .ok t)) := by
  cases n with
  | zero =>
    unfold streamPages at h
    exact ⟨t, h, .inl ⟨by unfold streamedPages; omega, rfl⟩⟩
  | succ n =>
    unfold streamPages at h
    cases hv : streamColumns a w s with
    | error f => rw [hv] at h; cases h
    | ok v =>
      rw [hv, except_bind_ok] at h
      split at h
      · cases h
        exact ⟨t, rfl, .inl ⟨by unfold streamedPages; omega, rfl⟩⟩
      · exact ⟨v, rfl, .inr ⟨by unfold streamedPages; omega, by omega, h⟩⟩

/-- The state before page p of a glyph at (x0, y0), a page on the display: the cursor is that of R202. -/
structure AtPage (c : Config) (x0 y0 p : Nat) (s : State) : Prop where
  cfg : s.cfg = c
  cursorX : s.cursorX.toNat = x0
  cursorY : s.cursorY.toNat = y0 + 8 * p
  onDisplay : y0 + 8 * p ≤ c.displayBottom

theorem atPage_zero {s : State} (hy : s.cursorY.toNat ≤ s.cfg.displayBottom) :
    AtPage s.cfg s.cursorX.toNat s.cursorY.toNat 0 s := ⟨rfl, rfl, rfl, hy⟩

theorem AtPage.cursor_le {c : Config} {x0 y0 p : Nat} {s : State} (hs : AtPage c x0 y0 p s) :
    s.cursorY.toNat ≤ s.cfg.displayBottom := by
  rw [hs.cursorY, hs.cfg]; exact hs.onDisplay

/-- The page advance does not wrap. -/
theorem AtPage.next {c : Config} (hg : c.geometryWf = true) {x0 y0 p w a : Nat} {s v : State} (hs : AtPage c x0 y0 p s)
    (h : streamColumns a w s = .ok v) (hy : y0 + 8 * (p + 1) ≤ c.displayBottom) :
    AtPage c x0 y0 (p + 1) (pageCursor x0 y0 (p + 1) v) where
  cfg := (streamColumns_effect h).1.cfg_eq.trans hs.cfg
  cursorX := Nat.mod_eq_of_lt (by rw [← hs.cursorX]; exact s.cursorX.isLt)
  cursorY := Nat.mod_eq_of_lt (by have := (Config.edges_lt hg).2; omega)
  onDisplay := hy

/-! ### How many transactions -/

theorem writeColumn_toNat_cursorX {s : State} (b : Byte) (hg : s.cfg.geometryWf = true)
    (hx : s.cursorX.toNat ≤ s.cfg.displayRight) (hy : s.cursorY.toNat ≤ s.cfg.displayBottom) :
    (writeColumn b s).cursorX.toNat = s.cursorX.toNat + 1 := by
  rcases writeColumn_cases b s with ⟨hout, -⟩ | ⟨-, -, chip, lx, -, e⟩
  · exact absurd ⟨hx, hy⟩ hout
  · have := Config.edges_lt hg
    rw [e, (writeColumnAt_cursor chip lx b s).1, BitVec.toNat_ofNat, Nat.mod_eq_of_lt]
    omega

/-- The transactions of one kind that a run of columns issues, where each column write issues `k` of them. -/
theorem streamColumns_countP {kind : Transaction → Bool} {n a k : Nat} {s t : State} (hg : s.cfg.geometryWf = true)
    (hy : s.cursorY.toNat ≤ s.cfg.displayBottom) (hk : ∀ chip lx b upper lower,
      (columnTransactions s.cfg.displayBottom chip lx s.cursorY.toNat b upper lower).countP kind = k)
    (h : streamColumns a n s = .ok t) :
    t.dlog.countP kind = s.dlog.countP kind + inBoundsColumns s.cfg s.cursorX.toNat n * k := by
  induction n generalizing a s with
  | zero => cases h; simp [inBoundsColumns]
  | succ n ih =>
    unfold streamColumns at h
    by_cases ha : a < s.cfg.fontRomSize
    · rw [fontRead_ok ha, except_bind_ok] at h
      rcases writeColumn_cases (s.cfg.fontRom.read a) s with ⟨hout, e⟩ | ⟨hx, -, chip, lx, hr, e⟩
      · have hnone : ∀ m, inBoundsColumns s.cfg s.cursorX.toNat m = 0 := fun m => by unfold inBoundsColumns; omega
        rw [e] at h
        rw [ih hg hy hk h, hnone, hnone]
      · have hcfg := (writeColumn_effect (s.cfg.fontRom.read a) s).cfg_eq
        have hcursorY := writeColumn_cursorY (s.cfg.fontRom.read a) s
        have hone : inBoundsColumns s.cfg s.cursorX.toNat (n + 1) = inBoundsColumns s.cfg (s.cursorX.toNat + 1) n + 1 := by
          unfold inBoundsColumns; omega
        rw [ih (by rw [hcfg]; exact hg) (by rw [hcfg, hcursorY]; exact hy) (by rw [hcfg, hcursorY]; exact hk) h, hcfg,
          writeColumn_toNat_cursorX _ hg hx hy, e,
          writeColumnAt_dlog s _ (Nat.lt_of_le_of_lt (resolveChip_le hr) s.cursorX.isLt), List.countP_append, hk, hone,
          Nat.succ_mul]
        omega
    · rw [fontRead_error (Nat.not_lt.1 ha)] at h; cases h

/-- The transactions of one kind that some pages of a glyph issue, where a column write at row y issues `count y` of
them. -/
theorem streamPages_countP {kind : Transaction → Bool} {count : Nat → Nat} {c : Config} {w x0 y0 n p a : Nat} {s t : State}
    (hg : c.geometryWf = true) (hk : ∀ chip lx y b upper lower,
      (columnTransactions c.displayBottom chip lx y b upper lower).countP kind = count y)
    (hs : AtPage c x0 y0 p s) (h : streamPages w x0 y0 p a n s = .ok t) :
    t.dlog.countP kind = s.dlog.countP kind + ((List.range' p (streamedPages c (y0 + 8 * p) n)).map
      (fun q => inBoundsColumns c x0 w * count (y0 + 8 * q))).sum := by
  induction n generalizing p a s with
  | zero => unfold streamPages at h; cases h; simp [streamedPages]
  | succ n ih =>
    obtain ⟨v, hv, hrest⟩ := streamPages_succ_cases h (hs.cfg ▸ hs.onDisplay)
    have hpage := streamColumns_countP (kind := kind) (hs.cfg ▸ hg) hs.cursor_le
      (fun _ _ _ _ _ => by rw [hs.cfg]; exact hk _ _ _ _ _ _) hv
    rw [hs.cfg, hs.cursorX, hs.cursorY] at hpage
    rw [hs.cfg] at hrest
    rcases hrest with ⟨hone, rfl⟩ | ⟨hmore, hy, hnext⟩
    · rw [hone, hpage]; simp
    · rw [hmore, List.range'_succ, List.map_cons, List.sum_cons, ih (hs.next hg hv hy) hnext,
        show (pageCursor x0 y0 (p + 1) v).dlog = v.dlog from rfl, hpage, Nat.add_assoc]

/-- The reads and the writes of one column write (R240). -/
theorem columnTransactions_countP (bottom : Nat) (chip : ChipId) (lx y : Nat) (b upper lower : Byte) :
    (columnTransactions bottom chip lx y b upper lower).countP Transaction.isRead =
      (if y % 8 = 0 then 0 else if y + 8 ≤ bottom then 2 else 1) ∧
    (columnTransactions bottom chip lx y b upper lower).countP (fun tr => !tr.isRead) =
      (if y % 8 = 0 then 1 else if y + 8 ≤ bottom then 2 else 1) := by
  unfold columnTransactions
  by_cases haligned : y % 8 = 0
  · simp only [if_pos haligned]; exact ⟨rfl, rfl⟩
  · by_cases hb : bottom < y + 8
    · simp only [if_neg haligned, if_pos hb, if_neg (Nat.not_le.2 hb)]; exact ⟨rfl, rfl⟩
    · simp only [if_neg haligned, if_neg hb, if_pos (Nat.not_lt.1 hb)]; exact ⟨rfl, rfl⟩

/-- The pages whose rows are on the display are the first ones (R202). -/
theorem filter_range_onDisplay {c : Config} {y0 : Nat} (hy : y0 ≤ c.displayBottom) (n : Nat) :
    (List.range n).filter (fun p => decide (y0 + 8 * p ≤ c.displayBottom)) = List.range (streamedPages c y0 n) := by
  induction n with
  | zero => simp [streamedPages]
  | succ n ih =>
    rw [List.range_succ, List.filter_append, ih]
    by_cases hn : y0 + 8 * n ≤ c.displayBottom
    · rw [show streamedPages c y0 n = n by unfold streamedPages; omega,
        show streamedPages c y0 (n + 1) = n + 1 by unfold streamedPages; omega, List.range_succ]
      simp [hn]
    · rw [show streamedPages c y0 (n + 1) = streamedPages c y0 n by unfold streamedPages; omega]
      simp [hn]

/-- Settles O52: reads and writes are counted apart, page by page, and the log is what DLOG grew by. -/
theorem putcTransactionCount : Obligations.PutcTransactionCount := by
  intro s t code g hwf hput hlocate h
  obtain ⟨u, hu, hdlog⟩ := exec_putc_next_pages hput hlocate h
  obtain ⟨-, hy, -⟩ := hput
  obtain ⟨log, hlog, -⟩ := (streamPages_effect hu).log
  have hg := Config.geometryWf_of_wf hwf
  have hcount := columnTransactions_countP s.cfg.displayBottom
  have hreads := streamPages_countP hg (fun _ _ _ _ _ _ => (hcount _ _ _ _ _ _).1) (atPage_zero hy) hu
  have hwrites := streamPages_countP hg (fun _ _ _ _ _ _ => (hcount _ _ _ _ _ _).2) (atPage_zero hy) hu
  have hrow : ∀ p, (s.cursorY.toNat + 8 * p) % 8 = s.cursorY.toNat % 8 := fun p => Nat.add_mul_mod_self_left _ 8 p
  rw [hlog, List.countP_append, Nat.mul_zero, Nat.add_zero, ← List.range_eq_range', ← filter_range_onDisplay hy,
    Nat.add_left_cancel_iff] at hreads hwrites
  simp only [hrow] at hreads hwrites
  exact ⟨log, hdlog.trans hlog, hreads, hwrites⟩

/-! ### Which transactions -/

/-- The lower page of a column write that reaches it takes the bits that fall below the upper one; at a page-aligned row
there are none. -/
theorem mergedByte_lower {bottom y : Nat} (b old : Byte) (hy : y + 8 ≤ bottom) :
    mergedByte bottom y b (y / 8 + 1) old = old ||| BitVec.ofNat 8 (b.toNat / 2 ^ (8 - y % 8)) := by
  unfold mergedByte
  by_cases haligned : y % 8 = 0
  · rw [if_pos haligned, if_neg (by omega), haligned, Nat.div_eq_of_lt b.isLt]
    exact (BitVec.or_zero).symm
  · rw [if_neg haligned, if_neg (by omega), if_pos ⟨rfl, hy⟩, shiftRight_eq_div]

/-- A column write leaves the pages below its two alone. -/
theorem mergedByte_below {bottom y page : Nat} (b old : Byte) (hpage : y / 8 + 1 < page) :
    mergedByte bottom y b page old = old := by
  unfold mergedByte
  split
  · rw [if_neg (by omega)]
  · rw [if_neg (by omega), if_neg (by omega)]

/-- The state u before page p of the glyph g that a PUTC in state s draws: under the glyph's columns the upper page of page
p holds what page p − 1 has merged into it, and the pages below it are as they were. -/
structure State.BeforePage (s : State) (g : Glyph) (p : Nat) (u : State) : Prop
    extends AtPage s.cfg s.cursorX.toNat s.cursorY.toNat p u where
  displayWf : u.display.wf = true
  upper : ∀ c chip lx, c < g.width → resolveChip s.cfg (s.cursorX.toNat + c) = some (chip, lx) →
    u.display.cell chip ((s.cursorY.toNat + 8 * p) / 8) lx =
      s.display.cell chip ((s.cursorY.toNat + 8 * p) / 8) lx ||| s.glyphSpill g c p
  lower : ∀ c chip lx page, c < g.width → resolveChip s.cfg (s.cursorX.toNat + c) = some (chip, lx) →
    (s.cursorY.toNat + 8 * p) / 8 < page → u.display.cell chip page lx = s.display.cell chip page lx

theorem State.beforePage_zero {s : State} (g : Glyph) (hy : s.cursorY.toNat ≤ s.cfg.displayBottom)
    (hw : s.display.wf = true) : s.BeforePage g 0 s where
  toAtPage := atPage_zero hy
  displayWf := hw
  upper := fun _ _ _ _ _ => (BitVec.or_zero).symm
  lower := fun _ _ _ _ _ _ _ => rfl

section
variable {s u v : State} {g : Glyph} {p : Nat} (hg : s.cfg.geometryWf = true) (hu : s.BeforePage g p u)
include hg hu

/-- What page p of a glyph makes of a byte under one of its columns. -/
theorem State.BeforePage.cell_after (h : streamColumns (s.fontBase.toNat + g.offset + p * g.width) g.width u = .ok v)
    {c lx : Nat} {chip : ChipId} (hc : c < g.width) (hr : resolveChip s.cfg (s.cursorX.toNat + c) = some (chip, lx))
    (page : Nat) :
    v.display.cell chip page lx = mergedByte s.cfg.displayBottom (s.cursorY.toNat + 8 * p) (s.glyphByte g p c) page
      (u.display.cell chip page lx) := by
  have hl : lx < 4096 := by
    have := resolveChip_le hr
    have := (resolveChip_spec hg hr).2.2
    have := Config.edges_lt hg
    omega
  have hcell := (streamColumns_cells (hu.cfg ▸ hg) hu.displayWf hu.cursor_le h chip page hl).1 (s.cursorX.toNat + c)
  rw [hu.cfg, hu.cursorX, hu.cursorY, Nat.add_sub_cancel_left] at hcell
  exact hcell hr (Nat.le_add_right _ _) (Nat.add_lt_add_left hc _)

theorem State.BeforePage.next (h : streamColumns (s.fontBase.toNat + g.offset + p * g.width) g.width u = .ok v)
    (hy : s.cursorY.toNat + 8 * (p + 1) ≤ s.cfg.displayBottom) :
    s.BeforePage g (p + 1) (pageCursor s.cursorX.toNat s.cursorY.toNat (p + 1) v) where
  toAtPage := hu.toAtPage.next hg h hy
  displayWf := (streamColumns_effect h).1.wf hu.displayWf
  upper := fun c chip lx hc hr => by
    change v.display.cell chip _ lx = _
    rw [show (s.cursorY.toNat + 8 * (p + 1)) / 8 = (s.cursorY.toNat + 8 * p) / 8 + 1 by omega, hu.cell_after hg h hc hr,
      mergedByte_lower _ _ (by omega), hu.lower c chip lx _ hc hr (Nat.lt_succ_self _), Nat.add_mul_mod_self_left]
    rfl
  lower := fun c chip lx page hc hr hpage => by
    change v.display.cell chip page lx = _
    rw [hu.cell_after hg h hc hr, mergedByte_below _ _ (by omega), hu.lower c chip lx page hc hr (by omega)]

omit hg in
/-- The transactions of a column of page p, on the display before that page and on the one before the glyph. -/
theorem State.BeforePage.runTransactions_eq {c : Nat} (hc : c < g.width) :
    runTransactions u (s.fontBase.toNat + g.offset + p * g.width) c = s.glyphTransactions g p c := by
  unfold runTransactions State.glyphTransactions
  rw [hu.cfg, hu.cursorX, hu.cursorY]
  cases hr : resolveChip s.cfg (s.cursorX.toNat + c) with
  | none => rfl
  | some r =>
    obtain ⟨chip, lx⟩ := r
    simp only
    rw [hu.upper c chip lx hc hr, hu.lower c chip lx _ hc hr (Nat.lt_succ_self _)]
    rfl

/-- The transactions of page p, from the left to the right. -/
theorem State.BeforePage.dlog_after
    (h : streamColumns (s.fontBase.toNat + g.offset + p * g.width) g.width u = .ok v) :
    v.dlog = u.dlog ++ (List.range g.width).flatMap (s.glyphTransactions g p) := by
  rw [streamColumns_dlog (hu.cfg ▸ hg) hu.displayWf hu.cursor_le h, List.flatMap_def, List.flatMap_def,
    List.map_congr_left fun c hc => hu.runTransactions_eq (List.mem_range.1 hc)]

end

/-- The transactions of the pages of a glyph from page p on, from the top down. -/
theorem State.BeforePage.streamPages_dlog {s u t : State} {g : Glyph} {n p : Nat} (hg : s.cfg.geometryWf = true)
    (hu : s.BeforePage g p u)
    (h : streamPages g.width s.cursorX.toNat s.cursorY.toNat p (s.fontBase.toNat + g.offset + p * g.width) n u = .ok t) :
    t.dlog = u.dlog ++ (List.range' p (streamedPages s.cfg (s.cursorY.toNat + 8 * p) n)).flatMap
      (fun q => (List.range g.width).flatMap (s.glyphTransactions g q)) := by
  induction n generalizing p u with
  | zero => unfold streamPages at h; cases h; simp [streamedPages]
  | succ n ih =>
    obtain ⟨v, hv, hrest⟩ := streamPages_succ_cases h (hu.cfg ▸ hu.onDisplay)
    have hpage := hu.dlog_after hg hv
    rw [hu.cfg] at hrest
    rcases hrest with ⟨hone, rfl⟩ | ⟨hmore, hy, hnext⟩
    · rw [hone, hpage]; simp
    · rw [Nat.add_assoc, ← Nat.succ_mul] at hnext
      rw [hmore, List.range'_succ, List.flatMap_cons, ih (hu.next hg hv hy) hnext,
        show (pageCursor s.cursorX.toNat s.cursorY.toNat (p + 1) v).dlog = v.dlog from rfl, hpage, List.append_assoc]

/-- Settles O59: the pages from page 0 on, each streamed over what the page before it left. -/
theorem putcTransactionsInOrder : Obligations.PutcTransactionsInOrder := by
  intro s t code g hwf hw hput hlocate h
  obtain ⟨u, hu, hdlog⟩ := exec_putc_next_pages hput hlocate h
  obtain ⟨-, hy, -⟩ := hput
  have hpages := (State.beforePage_zero g hy hw).streamPages_dlog (n := g.pages) (t := u) (Config.geometryWf_of_wf hwf)
    (by rw [Nat.zero_mul, Nat.add_zero]; exact hu)
  rw [Nat.mul_zero, Nat.add_zero, ← List.range_eq_range'] at hpages
  exact hdlog.trans hpages

end Sys2Proof.Machine
end

section
/-! PROOFS of the family 43_pixel_plane: the cursor (R238, R239), chip resolution (R235, R237, R241) and the column
writer, dropped out of bounds (R231), its pixels (R232 to R234, R242) and its transactions (R240). -/

namespace Sys2Proof.Machine

/-! ### The cursor -/

/-- Settles O35: CUR.SET is its two field writes with the result 0, and CUR.RD answers x and y side by side. -/
theorem cursorIsSetAndRead : Obligations.CursorIsSetAndRead := by
  refine fun s => ⟨fun x y => rfl, _, rfl, onlyResult_withResult _ s, ?_⟩
  rw [withResult_result, toNat_append_eq_add, toNat_append_eq_add, BitVec.toNat_ofNat, Nat.zero_mod, Nat.zero_mul,
    Nat.zero_add]

/-! ### Chip resolution -/

theorem resolveChip_chip1 {c : Config} {x : Nat} (h : x < c.chip2Start) : resolveChip c x = some (.chip1, x) := if_pos h

theorem resolveChip_chip2 {c : Config} {x : Nat} (hlo : c.chip2Start ≤ x) (hhi : x < c.chip3Start) :
    resolveChip c x = some (.chip2, x - c.chip2Start) := by
  rw [resolveChip, if_neg (Nat.not_lt.2 hlo), if_pos hhi]

section
variable {c : Config} (hg : c.geometryWf = true)
include hg

/-- The region starts rise strictly, from 0 to the width of the display (R9). -/
theorem Config.chipStarts_lt : 0 < c.chip2Start ∧ c.chip2Start < c.chip3Start ∧ c.chip3Start < c.displayWidth := by
  simp only [Config.geometryWf, Bool.and_eq_true, decide_eq_true_eq] at hg
  omega

theorem Config.le_displayRight_iff {x : Nat} : x ≤ c.displayRight ↔ x < c.displayWidth := by
  have := Config.chipStarts_lt hg
  unfold Config.displayRight
  omega

theorem resolveChip_chip3 {x : Nat} (hlo : c.chip3Start ≤ x) (hhi : x < c.displayWidth) :
    resolveChip c x = some (.chip3, x - c.chip3Start) := by
  have := Config.chipStarts_lt hg
  rw [resolveChip, if_neg (by omega), if_neg (by omega), if_pos ((Config.le_displayRight_iff hg).2 hhi)]

theorem resolveChip_outside {x : Nat} (h : c.displayWidth ≤ x) : resolveChip c x = none := by
  have := Config.chipStarts_lt hg
  rw [resolveChip, if_neg (by omega), if_neg (by omega), if_neg]
  rw [Config.le_displayRight_iff hg]
  omega

end

/-- The result word of CHIP.RES where the local column fits in its field (R237). -/
theorem toNat_chipResWord {chip : ChipId} {lx : Nat} (hl : lx < 2 ^ 12) :
    (chipResWord (some (chip, lx))).toNat = 2 ^ 31 + chip.number * 2 ^ 16 + lx := by
  have hchip : (BitVec.ofNat 2 chip.number).toNat = chip.number := by cases chip <;> rfl
  change (1#1 ++ 0#13 ++ BitVec.ofNat 2 chip.number ++ 0#4 ++ BitVec.ofNat 12 lx).toNat = _
  rw [toNat_append_eq_add, toNat_append_eq_add, toNat_append_eq_add, hchip, BitVec.toNat_ofNat lx, Nat.mod_eq_of_lt hl]
  change ((2 ^ 13 * 2 ^ 2 + chip.number) * 2 ^ 4 + 0) * 2 ^ 12 + lx = _
  omega

/-- Settles O36: the word of the resolution, whose local column is no larger than the 12-bit column it comes from. -/
theorem chipResReportsTheResolution : Obligations.ChipResReportsTheResolution := by
  intro s x hwf
  have hg := Config.geometryWf_of_wf hwf
  have hword : ∀ chip {lx}, resolveChip s.cfg x.toNat = some (chip, lx) →
      (chipResWord (resolveChip s.cfg x.toNat)).toNat = 2 ^ 31 + chip.number * 2 ^ 16 + lx := fun chip lx hr => by
    rw [hr]; exact toNat_chipResWord (Nat.lt_of_le_of_lt (resolveChip_le hr) x.isLt)
  refine ⟨_, rfl, onlyResult_withResult _ s, fun h => hword .chip1 (resolveChip_chip1 h),
    fun hlo hhi => hword .chip2 (resolveChip_chip2 hlo hhi),
    fun hlo hhi => hword .chip3 (resolveChip_chip3 hg hlo hhi), fun h => ?_⟩
  rw [withResult_result, resolveChip_outside hg h]
  rfl

/-- Settles O37: `resolveChip` is total up to the right edge, sound and injective, and a region start is its column 0. -/
theorem chipResolutionPartitionsTheDisplay : Obligations.ChipResolutionPartitionsTheDisplay := by
  intro c hwf
  have hg := Config.geometryWf_of_wf hwf
  obtain ⟨hstart2, hstart3, hwidth⟩ := Config.chipStarts_lt hg
  refine ⟨fun x hx => ?_, fun x y chip lx => resolveChip_inj, fun x => resolveChip_outside hg,
    resolveChip_chip1 hstart2, ?_, ?_⟩
  · obtain ⟨chip, lx, hr⟩ := resolveChip_isSome ((Config.le_displayRight_iff hg).2 hx)
    obtain ⟨hsum, hlocal, -⟩ := resolveChip_spec hg hr
    exact ⟨chip, lx, hr, hlocal, hsum⟩
  · rw [resolveChip_chip2 (Nat.le_refl _) hstart3, Nat.sub_self]
  · rw [resolveChip_chip3 hg (Nat.le_refl _) hwidth, Nat.sub_self]

/-! ### The column writer -/

theorem exec_colWr (b : Byte) (s : State) : exec (.colWr b) s = .next (withResult 0 (writeColumn b s)) := rfl

theorem writeColumn_of_outOfBounds {s : State} (b : Byte)
    (h : s.cfg.displayRight < s.cursorX.toNat ∨ s.cfg.displayBottom < s.cursorY.toNat) : writeColumn b s = s := by
  rcases writeColumn_cases b s with ⟨-, e⟩ | ⟨hx, hy, -⟩
  · exact e
  · omega

theorem writeColumn_of_inBounds {s : State} (b : Byte) {chip : ChipId} {lx : Nat}
    (hx : s.cursorX.toNat ≤ s.cfg.displayRight) (hy : s.cursorY.toNat ≤ s.cfg.displayBottom)
    (hr : resolveChip s.cfg s.cursorX.toNat = some (chip, lx)) : writeColumn b s = writeColumnAt chip lx b s := by
  rw [writeColumn, if_pos (Config.inBounds_iff.2 ⟨hx, hy⟩), hr]

/-- Settles O38: the column writer out of bounds is the identity. -/
theorem columnWriteOutOfBoundsIsDropped : Obligations.ColumnWriteOutOfBoundsIsDropped := by
  intro s b h
  rw [exec_colWr, writeColumn_of_outOfBounds b h]
  rfl

/-! ### Its pixels -/

theorem mergedByte_aligned {bottom y : Nat} (b old : Byte) (haligned : y % 8 = 0) :
    mergedByte bottom y b (y / 8) old = b := by
  rw [mergedByte, if_pos haligned, if_pos rfl]

theorem mergedByte_upper {bottom y : Nat} (b old : Byte) (hoff : y % 8 ≠ 0) :
    mergedByte bottom y b (y / 8) old = old ||| BitVec.ofNat 8 (b.toNat * 2 ^ (y % 8)) := by
  rw [mergedByte, if_neg hoff, if_pos rfl, shiftLeft_eq_mul]

/-- A column write leaves every page alone but the upper one, and the lower one where it reaches that. -/
theorem mergedByte_other {bottom y page : Nat} (b old : Byte) (hupper : page ≠ y / 8)
    (hlower : ¬(y % 8 ≠ 0 ∧ y + 8 ≤ bottom ∧ page = y / 8 + 1)) : mergedByte bottom y b page old = old := by
  rw [mergedByte]
  by_cases haligned : y % 8 = 0
  · rw [if_pos haligned, if_neg hupper]
  · rw [if_neg haligned, if_neg hupper, if_neg fun ⟨hpage, hy⟩ => hlower ⟨haligned, hy, hpage⟩]

theorem writeColumnAt_cell_same {s : State} (b : Byte) (chip : ChipId) {lx : Nat} (page : Nat) (hw : s.display.wf = true)
    (hl : lx < 4096) : (writeColumnAt chip lx b s).display.cell chip page lx =
      mergedByte s.cfg.displayBottom s.cursorY.toNat b page (s.display.cell chip page lx) :=
  (writeColumnAt_cell b hw hl hl).trans (if_pos ⟨rfl, rfl⟩)

/-- Settles O39: each byte under the column is the merged byte of its page, and every other one is as it was. -/
theorem columnWriteSetsItsPixels : Obligations.ColumnWriteSetsItsPixels := by
  intro s b hw hx hy
  obtain ⟨chip, lx, hr⟩ := resolveChip_isSome hx
  have hl : lx < 4096 := Nat.lt_of_le_of_lt (resolveChip_le hr) s.cursorX.isLt
  obtain ⟨hcursorX, hcursorY⟩ := writeColumnAt_cursor chip lx b s
  have hcell := fun page => writeColumnAt_cell_same b chip page hw hl
  rw [exec_colWr, writeColumn_of_inBounds b hx hy hr]
  refine ⟨_, chip, lx, rfl, ?_, rfl, ?_, hcursorY, hr, fun haligned => ?_, fun hoff => ?_, fun hoff hb => ?_,
    fun chip' page lx' hl' hupper hlower => ?_⟩
  · unfold OnlyPixels
    rw [(writeColumnAt_effect b s hr s.cursorX.isLt hy).frame]
    rfl
  · rw [withResult_cursorX, hcursorX]
    exact BitVec.eq_of_toNat_eq (by rw [BitVec.toNat_ofNat, BitVec.toNat_add]; rfl)
  · exact (hcell _).trans (mergedByte_aligned b _ haligned)
  · exact (hcell _).trans (mergedByte_upper b _ hoff)
  · exact (hcell _).trans (mergedByte_lower b _ hb)
  · rw [withResult_display, writeColumnAt_cell b hw hl hl']
    split
    · obtain ⟨rfl, rfl⟩ := ‹chip' = chip ∧ lx' = lx›
      exact mergedByte_other b _ (fun hpage => hupper (by rw [hpage]))
        fun ⟨hoff, hb, hpage⟩ => hlower ⟨hoff, hb, by rw [hpage]⟩
    · rfl

/-! ### Its transactions -/

/-- Settles O40: out of bounds DLOG is that of the state before; in bounds it grows by `columnTransactions`, whose three
branches are the three rows of R240. -/
theorem columnWriteTransactions : Obligations.ColumnWriteTransactions := by
  refine ⟨fun s t b hout h => ?_, fun s t b chip lx hx hy hr h => ?_⟩
  · rw [exec_colWr, writeColumn_of_outOfBounds b hout] at h
    cases h
    rfl
  · rw [exec_colWr, writeColumn_of_inBounds b hx hy hr] at h
    cases h
    rw [withResult_dlog, writeColumnAt_dlog s b (Nat.lt_of_le_of_lt (resolveChip_le hr) s.cursorX.isLt),
      columnTransactions]
    refine ⟨fun haligned => ?_, fun hoff hb => ?_, fun hoff hb => ?_⟩
    · rw [if_pos haligned]
    · rw [if_neg hoff, if_neg (Nat.not_lt.2 hb)]
      rfl
    · rw [if_neg hoff, if_pos hb]

end Sys2Proof.Machine
end

section
/-! PROOFS of the family 70_reset_and_hazards: block reset (R300, R301), and FS.RESET in the middle of a burst (R315). -/

namespace Sys2Proof.Machine

/-- A step with a block reset pending takes it, whole (R300). -/
theorem step_blockReset {s : State} {rest : List Input} (h : s.inputs = .blockReset :: rest) :
    step s = .next (blockReset (takeInput rest s)) := by
  rw [step, h]

/-- Settles O8: the step is `blockReset`, whose buffers are `Buffers.zero` and whose flags are `ValidFlags.none`. -/
theorem blockResetSetsEveryRegister : Obligations.BlockResetSetsEveryRegister := fun _ _ hin =>
  ⟨_, step_blockReset hin, fun r k _ => ⟨Buffers.zero_byte r k, Buffers.zero_byte r k⟩, ValidFlags.none_get,
    rfl, rfl, rfl, rfl, rfl, rfl, rfl, rfl, rfl, rfl, rfl, rfl⟩

/-- A step with the word of FS.RESET pending clears the frame set and answers 0 (R131). -/
theorem step_fsReset {s : State} {rest : List Input} (h : s.inputs = .word (encode s.cfg .fsReset) :: rest) :
    step s = .next (takeInput rest (withResult 0 (clearFrameSet s))) := by
  rw [step, h]
  rfl

/-- FS.RESET keeps ACTIVE and REMAINING, so the data words after it are stored, into the cleared buffers (R315). -/
theorem runSteps_fsReset_burst {s : State} {r : RegId} {ds : List Byte} {rest : List Input}
    (hin : s.inputs = .word (encode s.cfg .fsReset) :: (busInputs (ds.map dataWord) ++ rest))
    (hactive : s.active = some r) (hd : s.busDisabled = false) (hds : ds.length ≤ s.remaining.toNat)
    (hlen : s.remaining.toNat ≤ r.len) :
    runSteps (ds.length + 1) s = .next (takeInput rest (storeBurst r ds (withResult 0 (clearFrameSet s)))) := by
  have hburst := runSteps_burst (s := takeInput (busInputs (ds.map dataWord) ++ rest) (withResult 0 (clearFrameSet s)))
    (takeInput_inputs _ _) hactive hd hds hlen
  rw [storeBurst_takeInput] at hburst
  exact (runSteps_succ_of_step _ (step_fsReset hin)).trans hburst

/-- Settles O14: the bytes after FS.RESET are a whole burst of REMAINING, and the slots above it are as FS.RESET left
them. -/
theorem burstGoesOnAcrossFsReset : Obligations.BurstGoesOnAcrossFsReset := by
  intro s r ds rest hactive hlen h0 hd hds hin
  have hcount : ds.length = (withResult 0 (clearFrameSet s)).remaining.toNat := hds
  have hwhole := Nat.le_of_eq hcount
  refine ⟨_, runSteps_fsReset_burst hin hactive hd hwhole hlen, storeBurst_valid_same r hcount h0, fun k hk => ?low,
    fun k hk _ => ?high⟩
  case low =>
    rw [← hds] at hk ⊢
    exact storeBurst_byte_same hcount hlen hk
  case high => exact (storeBurst_byte_other hwhole (.inr hk)).trans (Buffers.zero_byte r k)

end Sys2Proof.Machine
end

section
/-! PROOFS on decoding: words of the encoding tables, the opcode map of the host port (R95, R97, R98), and that decoding
inverts encoding (R90 to R98). -/

namespace Sys2Proof

/-! ### The fields of a host word -/

@[simp] theorem hostOpc_hostWord (opc : Byte) (opd : BitVec 24) : hostOpc (hostWord opc opd) = opc :=
  BitVec.extractLsb'_append_eq_left

/-- The operand of a host word stands below its opcode. -/
theorem extractLsb'_hostWord {lo n : Nat} (opc : Byte) (opd : BitVec 24) (h : lo + n ≤ 24) :
    (hostWord opc opd).extractLsb' lo n = opd.extractLsb' lo n :=
  BitVec.extractLsb'_append_eq_of_add_le h

@[simp] theorem operandAddr_hostWord (opc : Byte) (addr : FontAddr) : operandAddr (hostWord opc addr) = addr :=
  BitVec.extractLsb'_append_eq_right

@[simp] theorem RegId.ofFrId_frId (r : RegId) : RegId.ofFrId r.frId = r := by cases r <;> rfl

@[simp] theorem operandReg_formatFR (opc : Byte) (r : RegId) (idx : BitVec 3) :
    operandReg (hostWord opc (formatFR r idx)) = r := by
  have hreg : (formatFR r idx).extractLsb' 8 2 = r.frId := by
    unfold formatFR
    iterate 2 rw [BitVec.extractLsb'_append_eq_of_le (by omega)]
    exact BitVec.extractLsb'_append_eq_right
  rw [operandReg, extractLsb'_hostWord _ _ (by omega), hreg, RegId.ofFrId_frId]

@[simp] theorem operandIdx_formatFR (opc : Byte) (r : RegId) (idx : BitVec 3) :
    operandIdx (hostWord opc (formatFR r idx)) = idx :=
  (extractLsb'_hostWord _ _ (by omega)).trans BitVec.extractLsb'_append_eq_right

@[simp] theorem operandPos_formatFP (opc : Byte) (pos : BitVec 4) : operandPos (hostWord opc (formatFP pos)) = pos :=
  (extractLsb'_hostWord _ _ (by omega)).trans BitVec.extractLsb'_append_eq_right

@[simp] theorem operandHighCoord_formatFXY (opc : Byte) (x y : Coord) :
    operandHighCoord (hostWord opc (formatFXY x y)) = x :=
  (extractLsb'_hostWord _ _ (by omega)).trans BitVec.extractLsb'_append_eq_left

@[simp] theorem operandLowCoord_formatFXY (opc : Byte) (x y : Coord) :
    operandLowCoord (hostWord opc (formatFXY x y)) = y :=
  (extractLsb'_hostWord _ _ (by omega)).trans BitVec.extractLsb'_append_eq_right

@[simp] theorem operandByte_formatFB (opc b : Byte) : operandByte (hostWord opc (formatFB b)) = b :=
  (extractLsb'_hostWord _ _ (by omega)).trans BitVec.extractLsb'_append_eq_right

@[simp] theorem operandLowCoord_formatFX (opc : Byte) (x : Coord) : operandLowCoord (hostWord opc (formatFX x)) = x :=
  (extractLsb'_hostWord _ _ (by omega)).trans BitVec.extractLsb'_append_eq_right

/-! ### Decoding inverts encoding -/

/-- Under R9 the command byte of a well-formed BUS.CMD_IGN or BUS.CMD_UNREC is no register's. -/
theorem decodeCommand_of_wf {c : Config} {v : Byte} :
    ((Instr.busCmdIgn v).wf c = true → decodeCommand c v = .busCmdIgn v) ∧
    ((Instr.busCmdUnrec v).wf c = true → decodeCommand c v = .busCmdUnrec v) := by
  simp only [Instr.wf, Bool.and_eq_true, Bool.not_eq_true', List.contains_iff_mem, ← Bool.not_eq_true]
  constructor
  · rintro ⟨hi, hr⟩
    rw [decodeCommand_of_not_register hr, if_pos hi]
  · rintro ⟨hi, hr⟩
    rw [decodeCommand_of_not_register hr, if_neg hi]

/-- Settles O2: a bus operation's word goes through the command table, a host operation's through the opcode map, and
the field lemmas give each operand back. -/
theorem decodeInvertsEncode : Obligations.DecodeInvertsEncode := by
  intro c i hwf hi
  obtain ⟨ha, hb, hc, hann⟩ := decodeCommand_registers (Config.commands_of_wf hwf).1
  cases i with
  | busCmdA => exact (decodeBus_commandWord c _).trans ha
  | busCmdB => exact (decodeBus_commandWord c _).trans hb
  | busCmdC => exact (decodeBus_commandWord c _).trans hc
  | busCmdAnn => exact (decodeBus_commandWord c _).trans hann
  | busCmdIgn v => exact (decodeBus_commandWord c v).trans (decodeCommand_of_wf.1 hi)
  | busCmdUnrec v => exact (decodeBus_commandWord c v).trans (decodeCommand_of_wf.2 hi)
  | busData v => exact decodeBus_dataWord c v
  | reserved opc =>
    have hopc : 0x14 ≤ wordField (hostWord opc formatF0) 24 8 := by
      rw [← toNat_hostOpc, hostOpc_hostWord]
      exact of_decide_eq_true hi
    exact (decodeHost_reserved hopc).trans (congrArg Instr.reserved (hostOpc_hostWord opc formatF0))
  | nop | status | fsReady | fsReset | fsCapture | regRd | snapRd | digit | punct | ann | annMask | curSet | curRd
  | colWr | putc | fontSet | fontRd | glyphInfo | glyphOff | chipRes => simp [encode, decode, decodeHost]

/-! ### The opcode map -/

/-- A field of a host word is the bit vector of the number that `wordField` reads. -/
theorem extractLsb'_eq_ofNat_wordField (w : HostWord) (lo n : Nat) :
    w.extractLsb' lo n = BitVec.ofNat n (wordField w lo n) := by
  rw [← toNat_extractLsb'_eq_wordField, BitVec.ofNat_toNat, BitVec.setWidth_eq]

/-- The FR ids number the registers (R98). -/
theorem operandReg_of_wordField {w : HostWord} {n : Nat} {r : RegId}
    (h : (n, r) ∈ [(0, RegId.A), (1, RegId.B), (2, RegId.C), (3, RegId.ANN)]) (hn : wordField w 8 2 = n) :
    operandReg w = r := by
  rw [operandReg, extractLsb'_eq_ofNat_wordField, hn]
  simp only [List.mem_cons, List.not_mem_nil, or_false, Prod.mk.injEq] at h
  rcases h with ⟨rfl, rfl⟩ | ⟨rfl, rfl⟩ | ⟨rfl, rfl⟩ | ⟨rfl, rfl⟩ <;> rfl

/-- Settles O5: the opcode picks the row of the map, and each operand field is the number at its bits. -/
theorem hostWordsDecodeByTheOpcodeMap : Obligations.HostWordsDecodeByTheOpcodeMap := by
  intro w opc pos byte
  have hpos : operandPos w = pos := extractLsb'_eq_ofNat_wordField w 0 4
  have hbyte : operandByte w = byte := extractLsb'_eq_ofNat_wordField w 0 8
  have hopc : (hostOpc w).toNat = opc := toNat_hostOpc w
  simp only [← extractLsb'_eq_ofNat_wordField, ← hpos, ← hbyte]
  refine ⟨?_, ?_, ?_, ?_, ?_, fun n r hr hn => ?reg, ?_, ?_, ?_, ?_, ?_, ?_, ?_, ?_, ?_, ?_, ?_, ?_, ?_,
    fun h => ?reserved⟩
  case reg =>
    rw [← operandReg_of_wordField hr hn]
    constructor <;> intro h <;> rw [decodeHost, hopc, h] <;> rfl
  case reserved => rw [decodeHost_reserved h, ← hopc, BitVec.ofNat_toNat, BitVec.setWidth_eq]
  all_goals intro h; rw [decodeHost, hopc, h]; rfl

/-- Settles O1: each word is decoded by evaluation. -/
theorem decodesWordsOfTheEncodingTables : Obligations.DecodesWordsOfTheEncodingTables := by
  unfold Obligations.DecodesWordsOfTheEncodingTables
  decide

end Sys2Proof
end

section
/-! PROOFS on what an operation leaves unchanged: the frames of the bus events and of the host operations (R22, R75,
R282), the snapshot bank (R33), and the parameters (R37, R79). -/

namespace Sys2Proof.Machine

/-! ### The frames -/

/-- Settles O16: the next states of a bus event are `selectTarget`, the desync and `storeBurstByte`. -/
theorem busEventsChangeOnlyProducerState : Obligations.BusEventsChangeOnlyProducerState := by
  intro i s t hi h
  rcases exec_bus_cases hi h with rfl | ⟨r, n, -, rfl⟩ | ⟨v, -, hdata⟩
  · rfl
  · rfl
  · rcases execBusData_next hdata with rfl | rfl | ⟨r, -, -, -, -, rfl⟩ <;> rfl

/-- What the effects of host operations leave alone: the parameters, the environment's side, and the decoder's state. -/
theorem HostEffect.frame {s u : State} {i : Instr} (h : HostEffect s i u) :
    u = { s with
      live := u.live, valid := u.valid, cursorX := u.cursorX, cursorY := u.cursorY, fontBase := u.fontBase
      snap := u.snap, snapValid := u.snapValid, display := u.display, dlog := u.dlog } := by
  cases h with
  | column b => rw [(writeColumn_effect b s).frame]
  | char code hput => rw [(putChar_effect hput).1.frame]
  | none | reset | capture | cursor | font => rfl

/-- What host operations leave alone. -/
theorem exec_host_frame {i : Instr} {s t : State} (hi : i.isBus = false) (h : exec i s = .next t) :
    t = { s with
      live := t.live, valid := t.valid, cursorX := t.cursorX, cursorY := t.cursorY, fontBase := t.fontBase
      snap := t.snap, snapValid := t.snapValid, badop := t.badop, result := t.result, display := t.display
      dlog := t.dlog, hostLog := t.hostLog } := by
  rcases exec_host_cases hi h with ⟨-, rfl⟩ | ⟨-, u, hu, ht⟩
  · rfl
  · rw [ht, hu.frame]
    rfl

/-- Settles O18: the frame keeps the decoder's state, and `exec_host_frameSet` says when the frame set is cleared. -/
theorem hostOperationsOnlyClearTheFrameSet : Obligations.HostOperationsOnlyClearTheFrameSet := by
  intro i s t hi h
  have hframe := exec_host_frame hi h
  refine ⟨by rw [hframe], by rw [hframe], by rw [hframe], ?_⟩
  rcases exec_host_frameSet hi h with hsame | ⟨hclear, hlive, hvalid⟩
  · exact .inl hsame
  · refine .inr ⟨hclear, fun r => ⟨?_, fun k _ => ?_⟩⟩
    · rw [hvalid, ValidFlags.none_get]
    · rw [hlive, Buffers.zero_byte]

/-! ### The snapshot bank -/

/-- The effect of a host operation leaves the snapshot bank alone, or is that of FS.CAPTURE with READY (R132). -/
theorem HostEffect.snap_cases {s u : State} {i : Instr} (h : HostEffect s i u) :
    (u.snap = s.snap ∧ u.snapValid = s.snapValid) ∨
    (i = .fsCapture ∧ s.ready = true ∧ u.snap = s.live ∧ u.snapValid = true) := by
  cases h with
  | capture hready => exact .inr ⟨rfl, hready, rfl, rfl⟩
  | column b => rw [(writeColumn_effect b s).frame]; exact .inl ⟨rfl, rfl⟩
  | char code hput => rw [(putChar_effect hput).1.frame]; exact .inl ⟨rfl, rfl⟩
  | none | reset | cursor | font => exact .inl ⟨rfl, rfl⟩

/-- What an operation does to the snapshot bank. -/
theorem exec_snap_cases {i : Instr} {s t : State} (h : exec i s = .next t) :
    (t.snap = s.snap ∧ t.snapValid = s.snapValid) ∨
    (i = .fsCapture ∧ s.ready = true ∧ t.snap = s.live ∧ t.snapValid = true) := by
  cases hi : i.isBus with
  | true =>
    have hframe : t = _ := busEventsChangeOnlyProducerState i s t hi h
    rw [hframe]
    exact .inl ⟨rfl, rfl⟩
  | false =>
    rcases exec_host_cases hi h with ⟨-, rfl⟩ | ⟨-, u, hu, ht⟩
    · exact .inl ⟨rfl, rfl⟩
    · rw [ht]; exact hu.snap_cases

/-- Settles O29: an operation that does not leave the bank alone is FS.CAPTURE with READY. -/
theorem onlyFsCaptureWritesTheSnapshot : Obligations.OnlyFsCaptureWritesTheSnapshot := by
  intro i s t h hne
  rcases exec_snap_cases h with ⟨hsnap, hvalid⟩ | hcapture
  · rcases hne with hne | hne
    · exact absurd hsnap hne
    · exact absurd hvalid hne
  · exact hcapture

/-! ### The parameters and the environment's side -/

/-- No operation changes the parameters, the BUS_IDLE level or the pending events. -/
theorem exec_environment {i : Instr} {s t : State} (h : exec i s = .next t) :
    t.cfg = s.cfg ∧ t.busIdle = s.busIdle ∧ t.inputs = s.inputs := by
  cases hi : i.isBus with
  | true =>
    have hframe : t = _ := busEventsChangeOnlyProducerState i s t hi h
    rw [hframe]
    exact ⟨rfl, rfl, rfl⟩
  | false =>
    rw [exec_host_frame hi h]
    exact ⟨rfl, rfl, rfl⟩

/-- Settles O58: no operation writes the parameters, and no event of the environment does. -/
theorem parametersNeverChange : Obligations.ParametersNeverChange := by
  refine ⟨fun i s t => exec_environment, fun s t h => ?_⟩
  rcases step_next_cases h with ⟨-, rfl⟩ | ⟨w, rest, -, hexec⟩ | ⟨level, rest, -, rfl⟩ | ⟨rest, -, rfl⟩ |
    ⟨chip, page, lx, v, rest, -, -, rfl⟩
  · rfl
  · exact (exec_environment hexec).1
  · rfl
  · rfl
  · rfl

end Sys2Proof.Machine
end

section
/-! PROOFS on the whole machine: the step on a word and on an event of the environment (R74, R80, R300), DLOG's replay
(R66), and the invariant (R26, R27, R40, R67). -/

namespace Sys2Proof.Machine

/-! ### Steps -/

/-- A step with a word pending runs the word's operation. -/
theorem step_word {s : State} {w : InputWord} {rest : List Input} (h : s.inputs = .word w :: rest) :
    step s = exec (decodeInput s w) (takeInput rest s) := by
  rw [step, h]

/-- A number of the opcode table is the input of its word. -/
theorem tableInput_of_wordOfTableBits {nbits n : Nat} {w : InputWord} (h : wordOfTableBits nbits n = .ok w) :
    tableInput nbits n = .word w := by
  unfold wordOfTableBits at h
  unfold tableInput
  split at h
  next hbus =>
    rw [if_pos hbus]
    split at h <;> cases h
    rfl
  next hhost =>
    rw [if_neg hhost]
    split at h <;> cases h
    rfl

/-- Settles O6: the word at the head of the list is taken, whether it was pending or has been placed there. -/
theorem stepRunsTheDecodedOperation : Obligations.StepRunsTheDecodedOperation := by
  refine ⟨fun s w rest h => step_word h, fun s nbits n w h => ?_⟩
  have hin : (s.withFetchWord nbits n).inputs = .word w :: s.inputs :=
    congrArg (· :: s.inputs) (tableInput_of_wordOfTableBits h)
  exact step_word hin

theorem step_controllerWrite {s : State} {chip : ChipId} {page lx : Nat} {v : Byte} {rest : List Input}
    (h : s.inputs = .controllerWrite chip page lx v :: rest) :
    step s = controllerSet chip page lx v (takeInput rest s) := by
  rw [step, h]

/-- Settles O7: the four kinds of pending event, the controller's by whether its cell exists. -/
theorem stepTakesEnvironmentEvents : Obligations.StepTakesEnvironmentEvents := by
  intro s rest
  refine ⟨fun h => ?_, fun level h => ?_, fun h => ?_, fun chip page lx v h => ⟨fun hcell => ?_, fun hcell => ?_⟩⟩
  · rw [step, h]
  · rw [step, h]; rfl
  · exact ⟨_, step_blockReset h, rfl, rfl, rfl, rfl, rfl, rfl⟩
  · exact (step_controllerWrite h).trans (if_pos (Config.cellExists_iff.2 hcell))
  · exact (step_controllerWrite h).trans (if_neg fun hexists => hcell (Config.cellExists_iff.1 hexists))

/-! ### DLOG -/

/-- Settles O41: an operation logs nothing and leaves the display alone, or it has a pixel effect. -/
theorem logReplaysToTheDisplay : Obligations.LogReplaysToTheDisplay := by
  intro i s t h
  rcases exec_display_cases h with ⟨hdisplay, hdlog⟩ | ⟨-, u, heffect, ht⟩
  · exact ⟨[], by rw [hdlog, List.append_nil], by rw [hdisplay]; rfl⟩
  · obtain ⟨log, hlog, hreplay, -⟩ := heffect.log
    rw [ht]
    exact ⟨log, hlog, hreplay⟩

/-- Settles O60: a word's operation appends a log that replays from the present display; every other event but the
controller's leaves DLOG and the display alone. -/
theorem everyStepKeepsTheLogReplay : Obligations.EveryStepKeepsTheLogReplay := by
  intro start s t hcontroller hreplay h
  rcases step_next_cases h with ⟨-, rfl⟩ | ⟨w, rest, -, hexec⟩ | ⟨level, rest, -, rfl⟩ | ⟨rest, -, rfl⟩ |
    ⟨chip, page, lx, v, rest, hin, -, -⟩
  · exact hreplay
  · obtain ⟨log, hlog, hnew⟩ := logReplaysToTheDisplay _ _ t hexec
    rw [hlog]
    exact (replay_append hreplay).trans hnew
  · exact hreplay
  · exact hreplay
  · exact absurd (congrArg List.head? hin) (hcontroller chip page lx v)

/-! ### The invariant at power-on -/

/-- The raw codes of the reference configuration are the numbers 0 to 127, no two of them equal. -/
theorem nodup_rawCombine_reference : Config.reference.rawCombine.Nodup :=
  List.pairwise_map.2 <| List.nodup_range.imp_of_mem fun hx hy hne hxy => hne <| by
    have h := congrArg BitVec.toNat hxy
    rw [BitVec.toNat_ofNat, BitVec.toNat_ofNat, Nat.mod_eq_of_lt (List.mem_range.1 hx),
      Nat.mod_eq_of_lt (List.mem_range.1 hy)] at h
    exact h

/-- The reference configuration meets R9. -/
theorem wf_reference : Config.reference.wf = true := by
  have hdigit : Config.reference.digitMapWf = true := by
    have hlength : Config.reference.rawCombine.length = 128 := (List.length_map _).trans List.length_range
    rw [Config.digitMapWf, (pairwiseDistinct_iff_nodup _).2 nodup_rawCombine_reference, Bool.and_true,
      decide_eq_true hlength, Bool.and_true]
    decide
  rw [Config.wf, hdigit]
  decide

theorem powerOn_inv {c : Config} {d : Display} (idle : Bool) (hc : c.wf = true) (hd : d.wf = true)
    (hcells : d.cellsExist c = true) : (State.powerOn c d idle).Inv where
  cfgWf := hc
  burst := rfl
  disabled := nofun
  snapshot := fun _ => rfl
  displayWf := hd
  displayCells := hcells
  dlogInRange := nofun

/-- Settles O53: power-on starts with no burst, no snapshot and an empty DLOG; reset is a power-on. -/
theorem powerOnMeetsTheInvariant : Obligations.PowerOnMeetsTheInvariant :=
  ⟨fun _ _ => powerOn_inv, powerOn_inv true wf_reference rfl rfl⟩

/-! ### The invariant, clause by clause -/

/-- Every operation keeps R27. -/
theorem exec_burstOk {i : Instr} {s t : State} (hs : s.burstOk = true) (h : exec i s = .next t) : t.burstOk = true := by
  cases hi : i.isBus with
  | true => exact exec_bus_burstOk hi hs h
  | false => rw [exec_host_frame hi h]; exact hs

/-- R40: no operation leaves BUS_DISABLED = 1 with data bytes expected. -/
theorem exec_disabled {i : Instr} {s t : State} (hs : s.burstOk = true)
    (hdisabled : s.busDisabled = true → s.remaining = 0) (h : exec i s = .next t) :
    t.busDisabled = true → t.remaining = 0 := by
  cases hi : i.isBus with
  | true =>
    rcases exec_bus_cases hi h with rfl | ⟨r, n, -, rfl⟩ | ⟨v, -, hdata⟩
    · nofun
    · nofun
    · rcases execBusData_cases hs v with ⟨-, he⟩ | ⟨-, h0, he⟩ | ⟨hd, -, r, -, -, he⟩ <;> cases he.symm.trans hdata
      · exact hdisabled
      · exact fun _ => h0
      · exact fun hd' => absurd (hd.symm.trans hd') nofun
  | false => rw [exec_host_frame hi h]; exact hdisabled

/-- R40: without a snapshot the bank is zero, which FS.CAPTURE alone can change. -/
theorem exec_snapshot {i : Instr} {s t : State} (hs : s.snapValid = false → s.snap = Buffers.zero)
    (h : exec i s = .next t) : t.snapValid = false → t.snap = Buffers.zero := by
  rcases exec_snap_cases h with ⟨hsnap, hvalid⟩ | ⟨-, -, -, hvalid⟩
  · rw [hsnap, hvalid]; exact hs
  · rw [hvalid]; nofun

/-- Every operation keeps the canonical form of the display, its cells, and DLOG's addresses in range (R67). -/
theorem exec_display_inv {i : Instr} {s t : State} (hg : s.cfg.geometryWf = true) (hw : s.display.wf = true)
    (hcells : s.display.cellsExist s.cfg = true) (hdlog : ∀ tr ∈ s.dlog, tr.inRange s.cfg = true)
    (h : exec i s = .next t) :
    t.display.wf = true ∧ t.display.cellsExist s.cfg = true ∧ ∀ tr ∈ t.dlog, tr.inRange s.cfg = true := by
  rcases exec_display_cases h with ⟨hdisplay, hlog⟩ | ⟨-, u, heffect, ht⟩
  · rw [hdisplay, hlog]
    exact ⟨hw, hcells, hdlog⟩
  · obtain ⟨log, hlog, -, hrange⟩ := heffect.log
    rw [ht, withResult_display, withResult_dlog, hlog]
    exact ⟨heffect.wf hw, heffect.cells hg hcells, List.forall_mem_append.2 ⟨hdlog, hrange hg⟩⟩

/-! ### The invariant is kept -/

theorem exec_inv {i : Instr} {s t : State} (hs : s.Inv) (h : exec i s = .next t) : t.Inv := by
  obtain ⟨hcfg, -, -⟩ := exec_environment h
  obtain ⟨hw, hcells, hdlog⟩ :=
    exec_display_inv (Config.geometryWf_of_wf hs.cfgWf) hs.displayWf hs.displayCells hs.dlogInRange h
  rw [← hcfg] at hcells hdlog
  exact {
    cfgWf := by rw [hcfg]; exact hs.cfgWf
    burst := exec_burstOk hs.burst h
    disabled := exec_disabled hs.burst hs.disabled h
    snapshot := exec_snapshot hs.snapshot h
    displayWf := hw
    displayCells := hcells
    dlogInRange := hdlog }

/-- The invariant says nothing of the pending events or of the BUS_IDLE level. -/
theorem State.Inv.environment {s : State} (hs : s.Inv) (inputs : List Input) (idle : Bool) :
    State.Inv { s with inputs := inputs, busIdle := idle } :=
  ⟨hs.cfgWf, hs.burst, hs.disabled, hs.snapshot, hs.displayWf, hs.displayCells, hs.dlogInRange⟩

theorem blockReset_inv {s : State} (hs : s.Inv) : (blockReset s).Inv where
  cfgWf := hs.cfgWf
  burst := rfl
  disabled := nofun
  snapshot := fun _ => rfl
  displayWf := hs.displayWf
  displayCells := hs.displayCells
  dlogInRange := hs.dlogInRange

/-- Under R9 a local column is below 4096, so every cell has an address of its own. -/
theorem Config.lt_of_cellExists {c : Config} {chip : ChipId} {page lx : Nat} (hg : c.geometryWf = true)
    (h : c.cellExists chip page lx = true) : lx < 4096 := by
  obtain ⟨-, hl⟩ := Config.cellExists_iff.1 h
  simp only [Config.geometryWf, Bool.and_eq_true, decide_eq_true_eq] at hg
  cases chip <;> simp only [Config.chipWidth] at hl <;> omega

theorem setCell_inv {s : State} {chip : ChipId} {page lx : Nat} (v : Byte) (hs : s.Inv)
    (hcell : s.cfg.cellExists chip page lx = true) :
    State.Inv { s with display := s.display.setCell chip page lx v } where
  cfgWf := hs.cfgWf
  burst := hs.burst
  disabled := hs.disabled
  snapshot := hs.snapshot
  displayWf := Display.setCell_wf hs.displayWf chip page lx v
  displayCells := Display.setCell_cellsExist hs.displayCells hcell
    (Config.lt_of_cellExists (Config.geometryWf_of_wf hs.cfgWf) hcell) v
  dlogInRange := hs.dlogInRange

/-- Settles O54: an operation keeps the invariant clause by clause, and so does each event of the environment. -/
theorem everyStepKeepsTheInvariant : Obligations.EveryStepKeepsTheInvariant := by
  intro s t hs h
  have htake (rest : List Input) : (takeInput rest s).Inv := hs.environment rest s.busIdle
  rcases step_next_cases h with ⟨-, rfl⟩ | ⟨w, rest, -, hexec⟩ | ⟨level, rest, -, rfl⟩ | ⟨rest, -, rfl⟩ |
    ⟨chip, page, lx, v, rest, -, hcell, rfl⟩
  · exact hs
  · exact exec_inv (htake rest) hexec
  · exact hs.environment rest level
  · exact blockReset_inv (htake rest)
  · exact setCell_inv v (htake rest) hcell

/-! ### A state without R27 -/

/-- Settles O12: a state that breaks R27 expects a byte and has no register with a slot for it. -/
theorem dataByteOutsideABurstFaults : Obligations.DataByteOutsideABurstFaults := by
  intro s v hs hd
  change execBusData v s = _
  unfold execBusData
  cases hactive : s.active with
  | none =>
    have h0 : s.remaining ≠ 0 := fun h0 => by simp [(State.burstOk_none hactive).2 h0] at hs
    rw [if_neg (by simp [hd]), if_neg h0]
  | some r =>
    have hlen : ¬s.remaining.toNat ≤ r.len := fun hlen => by simp [(State.burstOk_some hactive).2 hlen] at hs
    have h0 : s.remaining ≠ 0 := fun h0 => hlen (by simp [h0])
    simp only [if_neg h0, if_neg hlen, hd, Bool.false_eq_true, if_false]

end Sys2Proof.Machine
end

section
/-! PROOFS on completion: the font reads that fail (E5 and E14 of R271), and that nothing else stops an operation (R270,
R275). -/

namespace Sys2Proof.Machine

/-- Settles O46: a code outside the range has no glyph, and the words of no glyph are 0. -/
theorem codeOutsideTheFontIsNotFound : Obligations.CodeOutsideTheFontIsNotFound := fun _ _ hrom hrange =>
  have hlocate := locateGlyph_of_not_inFontRange hrom hrange
  ⟨exec_glyphInfo_of_ok hlocate, exec_glyphOff_of_ok hlocate⟩

/-! ### Font reads beyond the ROM -/

theorem exec_glyphInfo_of_error {s : State} {code : Byte} {f : Fault}
    (h : locateGlyph s.cfg s.fontBase.toNat code.toNat = .error f) : exec (.glyphInfo code) s = .fault f := by
  change execGlyphInfo code s = _
  rw [execGlyphInfo, h]

theorem exec_glyphOff_of_error {s : State} {code : Byte} {f : Fault}
    (h : locateGlyph s.cfg s.fontBase.toNat code.toNat = .error f) : exec (.glyphOff code) s = .fault f := by
  change execGlyphOff code s = _
  rw [execGlyphOff, h]

theorem exec_putc_of_error {s : State} {code : Byte} {f : Fault} (h : putChar code s = .error f) :
    exec (.putc code) s = .fault f := by
  change execPutc code s = _
  rw [execPutc, h]

/-- The first width read of a variable-width glyph is the glyph's own (R194). -/
theorem variableGlyph_error {c : Config} {base i : Nat} (header : FontHeader) (h : c.fontRomSize ≤ base + 6 + i) :
    variableGlyph c base header i = .error (.fontReadOutOfRom (base + 6 + i)) := by
  unfold variableGlyph tableOffset
  rw [fontRead_error h, except_bind_error]

/-- The font resolver fails on a header beyond the ROM, and on a width entry beyond it. -/
theorem locateGlyph_error {c : Config} {base : Nat} {code : Byte}
    (h : c.fontRomSize ≤ base + 5 ∨ (inFontRange c base code ∧ romByte c (base + 2) = 0 ∧
      c.fontRomSize ≤ base + 6 + (code.toNat - romByte c (base + 4)))) :
    ∃ a, c.fontRomSize ≤ a ∧ locateGlyph c base code.toNat = .error (.fontReadOutOfRom a) := by
  rcases Nat.lt_or_ge (base + 5) c.fontRomSize with hheader | hheader
  · obtain ⟨hrange, hwidth, hentry⟩ := h.resolve_left (Nat.not_le.2 hheader)
    refine ⟨_, hentry, ?_⟩
    rw [locateGlyph_of_inFontRange hheader hrange, if_neg fun hne => hne hwidth, variableGlyph_error _ hentry]
    rfl
  · obtain ⟨a, ha, he⟩ := readHeader_error hheader
    exact ⟨a, ha, by rw [locateGlyph, he, except_bind_error]⟩

/-- Settles O47: each of the three operations fails where the font resolver does. -/
theorem fontReadBeyondTheRomFaults : Obligations.FontReadBeyondTheRomFaults := by
  intro s code i hi hrom
  obtain ⟨a, ha, he⟩ := locateGlyph_error hrom
  refine ⟨a, ha, ?_⟩
  rcases hi with rfl | rfl | ⟨rfl, hput⟩
  · exact exec_glyphInfo_of_error he
  · exact exec_glyphOff_of_error he
  · exact exec_putc_of_error (by rw [putChar_mayPut hput, he, except_bind_error])

/-! ### Completion -/

/-- A meaning with a range check completes in both cases. -/
theorem ite_next_completes (ok : Bool) (t u : State) :
    ∃ v, (if ok then Host.Outcome.next t else .next u : StepResult) = .next v := by
  cases ok
  · exact ⟨u, rfl⟩
  · exact ⟨t, rfl⟩

/-- A host operation that reads no font completes in every state. -/
theorem exec_host_completes {i : Instr} (s : State) (hi : i.isBus = false) (hfont : i.readsFont = false) :
    ∃ t, exec i s = .next t := by
  cases i with
  | busCmdA | busCmdB | busCmdC | busCmdAnn | busCmdIgn | busCmdUnrec | busData => cases hi
  | putc | glyphInfo | glyphOff => cases hfont
  | regRd | snapRd | digit | punct | ann | fsCapture => exact ite_next_completes _ _ _
  | nop | status | fsReady | fsReset | annMask | curSet | curRd | colWr | fontSet | fontRd | chipRes | reserved =>
    exact ⟨_, rfl⟩

/-- An operation that reads the font completes, or it fails at an address beyond the ROM. -/
theorem exec_readsFont {i : Instr} (s : State) (hfont : i.readsFont = true) :
    (∃ t, exec i s = .next t) ∨ ∃ a, s.cfg.fontRomSize ≤ a ∧ exec i s = .fault (.fontReadOutOfRom a) := by
  cases i with
  | putc code =>
    rcases putChar_romOrFault code s with ⟨u, he⟩ | ⟨a, ha, he⟩
    · exact .inl ⟨_, exec_putc_of_ok he⟩
    · exact .inr ⟨a, ha, exec_putc_of_error he⟩
  | glyphInfo code =>
    rcases locateGlyph_romOrFault s.cfg s.fontBase.toNat code.toNat with ⟨g, he⟩ | ⟨a, ha, he⟩
    · exact .inl ⟨_, exec_glyphInfo_of_ok he⟩
    · exact .inr ⟨a, ha, exec_glyphInfo_of_error he⟩
  | glyphOff code =>
    rcases locateGlyph_romOrFault s.cfg s.fontBase.toNat code.toNat with ⟨g, he⟩ | ⟨a, ha, he⟩
    · exact .inl ⟨_, exec_glyphOff_of_ok he⟩
    · exact .inr ⟨a, ha, exec_glyphOff_of_error he⟩
  | busCmdA | busCmdB | busCmdC | busCmdAnn | busCmdIgn | busCmdUnrec | busData | nop | status | fsReady | fsReset
  | fsCapture | regRd | snapRd | digit | punct | ann | annMask | curSet | curRd | colWr | fontSet | fontRd | chipRes
  | reserved => cases hfont

/-- Settles O56: a bus event completes under R27, a host operation that reads no font in every state. -/
theorem everyOperationCompletes : Obligations.EveryOperationCompletes := by
  refine fun i s hs => ⟨fun hfont => ?_, exec_readsFont s⟩
  cases hi : i.isBus with
  | true => exact exec_bus_completes hi hs
  | false => exact exec_host_completes s hi hfont

end Sys2Proof.Machine
end

section
/-! PROOFS on the bounds of the cursor (R40). -/

namespace Sys2Proof.Machine

/-- A stored coordinate is no larger than the number it holds mod 2^12 (R12). -/
theorem toNat_coord_le (n : Nat) : (BitVec.ofNat 12 n).toNat ≤ n := by
  rw [BitVec.toNat_ofNat]
  exact Nat.mod_le _ _

/-- What an operation but CUR.SET can do to the cursor: y stays, and x stays or goes from a column of the display to one
at most 255 + GLYPH_SPACING columns to its right. -/
structure CursorAdvance (s t : State) : Prop where
  cursorY : t.cursorY = s.cursorY
  cursorX : t.cursorX = s.cursorX ∨ (s.cursorX.toNat ≤ s.cfg.displayRight ∧
    t.cursorX.toNat ≤ s.cursorX.toNat + 255 + s.cfg.glyphSpacing.toNat)

theorem writeColumn_cursorAdvance (b : Byte) (s : State) : CursorAdvance s (writeColumn b s) where
  cursorY := writeColumn_cursorY b s
  cursorX := by
    rcases writeColumn_cases b s with ⟨-, e⟩ | ⟨hx, -, chip, lx, -, e⟩
    · rw [e]; exact .inl rfl
    · have hadvance := toNat_coord_le (s.cursorX.toNat + 1)
      rw [e, (writeColumnAt_cursor chip lx b s).1]
      exact .inr ⟨hx, by omega⟩

theorem putChar_cursorAdvance {code : Byte} {s u : State} (h : putChar code s = .ok u) : CursorAdvance s u where
  cursorY := (putChar_effect h).2
  cursorX := by
    rcases putChar_cases h with rfl | ⟨⟨hx, -, -⟩, g, hlocate, hdraw⟩
    · exact .inl rfl
    · have hwidth := locateGlyph_width hlocate
      have hadvance := toNat_coord_le (s.cursorX.toNat + g.width + s.cfg.glyphSpacing.toNat)
      obtain ⟨-, hcursorX, -⟩ := drawGlyph_effect hdraw
      rw [hcursorX]
      exact .inr ⟨hx, by omega⟩

theorem HostEffect.cursorAdvance {s u : State} {i : Instr} (h : HostEffect s i u) (hset : ∀ x y, i ≠ .curSet x y) :
    CursorAdvance s u := by
  cases h with
  | cursor x y => exact absurd rfl (hset x y)
  | column b => exact writeColumn_cursorAdvance b s
  | char code hput => exact putChar_cursorAdvance hput
  | none | reset | capture | font => exact ⟨rfl, .inl rfl⟩

theorem exec_cursorAdvance {i : Instr} {s t : State} (hset : ∀ x y, i ≠ .curSet x y) (h : exec i s = .next t) :
    CursorAdvance s t := by
  cases hi : i.isBus with
  | true =>
    have hframe : t = _ := busEventsChangeOnlyProducerState i s t hi h
    rw [hframe]
    exact ⟨rfl, .inl rfl⟩
  | false =>
    rcases exec_host_cases hi h with ⟨-, rfl⟩ | ⟨-, u, hu, ht⟩
    · exact ⟨rfl, .inl rfl⟩
    · obtain ⟨hy, hx⟩ := hu.cursorAdvance hset
      rw [ht]
      exact ⟨hy, hx⟩

/-- Settles O55: an advance starts on the display, so it ends at DISPLAY_RIGHT + 255 + GLYPH_SPACING at the most. -/
theorem cursorStaysInItsBounds : Obligations.CursorStaysInItsBounds := by
  intro i s t _ h hset
  obtain ⟨hy, hsame | ⟨hstart, hend⟩⟩ := exec_cursorAdvance hset h
  · exact ⟨hy, hsame ▸ Nat.le_max_left _ _, fun hne => absurd hsame hne⟩
  · exact ⟨hy, Nat.le_trans (by omega) (Nat.le_max_right _ _), fun _ => hstart⟩

end Sys2Proof.Machine
end

section
/-! PROOFS on the two agents (R75): a bus event reads and writes the producer's fields alone, and a host operation that
does not share them gives the same outcome whatever they hold. -/

namespace Sys2Proof.Machine

/-- The state `s` with the producer's fields of `p`. -/
def withProducer (p s : State) : State :=
  { s with
    live := p.live
    valid := p.valid
    active := p.active
    remaining := p.remaining
    busDisabled := p.busDisabled }

@[simp] theorem withProducer_cfg (p s : State) : (withProducer p s).cfg = s.cfg := rfl
@[simp] theorem withProducer_cursorX (p s : State) : (withProducer p s).cursorX = s.cursorX := rfl
@[simp] theorem withProducer_cursorY (p s : State) : (withProducer p s).cursorY = s.cursorY := rfl
@[simp] theorem withProducer_fontBase (p s : State) : (withProducer p s).fontBase = s.fontBase := rfl

/-! ### Bus events -/

/-- A data byte is determined by the producer's fields. -/
theorem execBusData_withProducer {v : Byte} {s t : State} (hs : s.burstOk = true) (h : execBusData v s = .next t)
    (u : State) : execBusData v (withProducer s u) = .next (withProducer t u) := by
  rcases execBusData_cases hs v with ⟨hd, he⟩ | ⟨hd, h0, he⟩ | ⟨hd, h0, r, hactive, hlen, he⟩ <;> cases he.symm.trans h
  · exact if_pos hd
  · exact (if_neg (Bool.eq_false_iff.1 hd)).trans (if_pos h0)
  · exact execBusData_of_active v hd h0 hactive hlen

/-- A bus event is determined by the producer's fields: in any state that has them it does the same to them. -/
theorem exec_bus_withProducer {b : Instr} {s t : State} (hb : b.isBus = true) (hs : s.burstOk = true)
    (h : exec b s = .next t) (u : State) : exec b (withProducer s u) = .next (withProducer t u) := by
  cases b with
  | busCmdA | busCmdB | busCmdC | busCmdAnn | busCmdIgn | busCmdUnrec => cases h; rfl
  | busData v => exact execBusData_withProducer hs h u
  | nop | status | fsReady | fsReset | fsCapture | regRd | snapRd | digit | punct | ann | annMask | curSet | curRd
  | colWr | putc | fontSet | fontRd | glyphInfo | glyphOff | chipRes | reserved => cases hb

/-! ### Host operations that share nothing with the producer -/

/-- An outcome with `f` done to its next state. -/
def mapNext (f : State → State) : StepResult → StepResult
  | .next s => .next (f s)
  | .fault r => .fault r
  | .refused r => .refused r

theorem writeColumnAt_withProducer (p : State) (chip : ChipId) (lx : Nat) (b : Byte) (s : State) :
    writeColumnAt chip lx b (withProducer p s) = withProducer p (writeColumnAt chip lx b s) := by
  unfold writeColumnAt
  dsimp only
  rw [apply_ite (withProducer p), apply_ite (withProducer p)]
  rfl

theorem writeColumn_withProducer (p : State) (b : Byte) (s : State) :
    writeColumn b (withProducer p s) = withProducer p (writeColumn b s) := by
  rcases writeColumn_cases b s with ⟨hout, e⟩ | ⟨hx, hy, chip, lx, hr, e⟩
  · rw [e]
    refine writeColumn_of_outOfBounds (s := withProducer p s) b ?_
    rw [withProducer_cfg, withProducer_cursorX, withProducer_cursorY]
    omega
  · rw [e, writeColumn_of_inBounds (s := withProducer p s) b hx hy hr, writeColumnAt_withProducer]

theorem streamColumns_withProducer (p : State) (a n : Nat) (s : State) :
    streamColumns a n (withProducer p s) = withProducer p <$> streamColumns a n s := by
  induction n generalizing a s with
  | zero => rfl
  | succ n ih =>
    unfold streamColumns
    rw [withProducer_cfg]
    cases fontRead s.cfg a with
    | error f => rfl
    | ok b => rw [except_bind_ok, except_bind_ok, writeColumn_withProducer, ih]

theorem streamPages_withProducer (q : State) (w x0 y0 p a n : Nat) (s : State) :
    streamPages w x0 y0 p a n (withProducer q s) = withProducer q <$> streamPages w x0 y0 p a n s := by
  induction n generalizing p a s with
  | zero => rfl
  | succ n ih =>
    cases n with
    | zero => exact streamColumns_withProducer q a w s
    | succ n =>
      unfold streamPages
      rw [streamColumns_withProducer, withProducer_cfg]
      cases streamColumns a w s with
      | error f => rfl
      | ok v =>
        change (if _ then _ else _) = withProducer q <$> (if _ then _ else _)
        split
        · rfl
        · exact ih (p + 1) (a + w) (pageCursor x0 y0 (p + 1) v)

theorem drawGlyph_withProducer (p : State) (g : Glyph) (s : State) :
    drawGlyph g (withProducer p s) = withProducer p <$> drawGlyph g s := by
  rw [drawGlyph_eq, drawGlyph_eq, withProducer_cfg, withProducer_cursorX, withProducer_cursorY, withProducer_fontBase,
    streamPages_withProducer]
  cases streamPages g.width s.cursorX.toNat s.cursorY.toNat 0 (s.fontBase.toNat + g.offset) g.pages s <;> rfl

theorem putChar_withProducer (p : State) (code : Byte) (s : State) :
    putChar code (withProducer p s) = withProducer p <$> putChar code s := by
  by_cases hput : s.mayPut code
  · have hput' : (withProducer p s).mayPut code := hput
    rw [putChar_mayPut hput, putChar_mayPut hput', withProducer_cfg, withProducer_fontBase]
    cases locateGlyph s.cfg s.fontBase.toNat code.toNat with
    | error f => rfl
    | ok g =>
      cases g with
      | none => rfl
      | some g => exact drawGlyph_withProducer p g s
  · have hput' : ¬(withProducer p s).mayPut code := hput
    rw [putChar_of_not_mayPut hput, putChar_of_not_mayPut hput']
    rfl

/-- A meaning with a range check whose result word does not depend on the producer's fields. -/
theorem rangeChecked_withProducer (p s : State) (ok : Bool) (v : HostWord) :
    (if ok then .next (withResult v (withProducer p s)) else .next (badop (withProducer p s))) =
      mapNext (withProducer p) (if ok then .next (withResult v s) else .next (badop s)) := by
  cases ok <;> rfl

/-- A host operation that does not share the producer's fields neither reads nor writes them. -/
theorem exec_host_withProducer {h : Instr} (p s : State) (hh : h.isBus = false)
    (hshare : h.sharesWithProducer = false) : exec h (withProducer p s) = mapNext (withProducer p) (exec h s) := by
  cases h with
  | busCmdA | busCmdB | busCmdC | busCmdAnn | busCmdIgn | busCmdUnrec | busData => cases hh
  | fsReady | fsReset | fsCapture | regRd | status => cases hshare
  | nop | annMask | curSet | curRd | fontSet | fontRd | chipRes | reserved => rfl
  | snapRd | digit | punct | ann => exact rangeChecked_withProducer p s _ _
  | colWr b => exact congrArg (fun u => Host.Outcome.next (withResult 0 u)) (writeColumn_withProducer p b s)
  | putc code =>
    change execPutc code _ = mapNext _ (execPutc code s)
    rw [execPutc, execPutc, putChar_withProducer]
    cases putChar code s <;> rfl
  | glyphInfo code =>
    change execGlyphInfo code _ = mapNext _ (execGlyphInfo code s)
    rw [execGlyphInfo, execGlyphInfo, withProducer_cfg, withProducer_fontBase]
    cases locateGlyph s.cfg s.fontBase.toNat code.toNat <;> rfl
  | glyphOff code =>
    change execGlyphOff code _ = mapNext _ (execGlyphOff code s)
    rw [execGlyphOff, execGlyphOff, withProducer_cfg, withProducer_fontBase]
    cases locateGlyph s.cfg s.fontBase.toNat code.toNat <;> rfl

/-- Settles O57: in both orders the outcome is that of the host operation, with what the bus event makes of the
producer's fields. -/
theorem producerCommutesWithConsumer : Obligations.ProducerCommutesWithConsumer := by
  intro b h s hs hb hh hshare
  obtain ⟨t, ht⟩ := exec_bus_completes hb hs
  have hproducer : t = withProducer t s := busEventsChangeOnlyProducerState b s t hb ht
  have hconsumer : exec h s = mapNext (withProducer s) (exec h s) := exec_host_withProducer s s hh hshare
  calc execBoth b h s = exec h t := by rw [execBoth, ht]
    _ = mapNext (withProducer t) (exec h s) := by rw [← exec_host_withProducer t s hh hshare, ← hproducer]
    _ = execBoth h b s := by
      rw [execBoth]
      cases hu : exec h s with
      | next u =>
        have hu' : u = withProducer s u := by
          rw [hu] at hconsumer
          exact Host.Outcome.next.inj hconsumer
        exact ((congrArg (exec b) hu').trans (exec_bus_withProducer hb hs ht u)).symm
      | fault f => rfl
      | refused r => rfl

end Sys2Proof.Machine
end

section
/-! PROOFS of the bytes that PUTC leaves in the display (R199, R201, R233, R234): each streamed page merges its byte
into the cells of every column of the glyph on the display, and no other cell changes. -/

namespace Sys2Proof.Machine

/-! ### The bytes under a glyph -/

/-- What the pages `qs` of a glyph, drawn one after the other, make of the byte `old` of a cell under its column `c`. -/
def State.mergedColumn (s : State) (g : Glyph) (c page : Nat) (qs : List Nat) (old : Byte) : Byte :=
  qs.foldl (fun v q => mergedByte s.cfg.displayBottom (s.cursorY.toNat + 8 * q) (s.glyphByte g q c) page v) old

theorem State.mergedColumn_nil (s : State) (g : Glyph) (c page : Nat) (old : Byte) :
    s.mergedColumn g c page [] old = old := rfl

theorem State.mergedColumn_cons (s : State) (g : Glyph) (c page q : Nat) (qs : List Nat) (old : Byte) :
    s.mergedColumn g c page (q :: qs) old = s.mergedColumn g c page qs
      (mergedByte s.cfg.displayBottom (s.cursorY.toNat + 8 * q) (s.glyphByte g q c) page old) := rfl

/-- Pages that leave the byte alone, each on its own, leave it alone together. -/
theorem State.mergedColumn_eq_self {s : State} {g : Glyph} {c page : Nat} {qs : List Nat} {old : Byte}
    (h : ∀ q ∈ qs, mergedByte s.cfg.displayBottom (s.cursorY.toNat + 8 * q) (s.glyphByte g q c) page old = old) :
    s.mergedColumn g c page qs old = old := by
  induction qs with
  | nil => rfl
  | cons q qs ih =>
    obtain ⟨hfirst, hrest⟩ := List.forall_mem_cons.1 h
    rw [State.mergedColumn_cons, hfirst, ih hrest]

section
variable {s u t : State} {g : Glyph} {n p : Nat} {chip : ChipId} {lx : Nat} (hg : s.cfg.geometryWf = true)
  (hu : s.BeforePage g p u)
  (h : streamPages g.width s.cursorX.toNat s.cursorY.toNat p (s.fontBase.toNat + g.offset + p * g.width) n u = .ok t)
include hg hu h

/-- A cell under a column of the glyph, after the pages from page p on. -/
theorem State.BeforePage.streamPages_cell {c : Nat} (hc : c < g.width)
    (hr : resolveChip s.cfg (s.cursorX.toNat + c) = some (chip, lx)) (page : Nat) :
    t.display.cell chip page lx = s.mergedColumn g c page
      (List.range' p (streamedPages s.cfg (s.cursorY.toNat + 8 * p) n)) (u.display.cell chip page lx) := by
  induction n generalizing p u with
  | zero => unfold streamPages at h; cases h; simp [streamedPages, State.mergedColumn_nil]
  | succ n ih =>
    obtain ⟨v, hv, hrest⟩ := streamPages_succ_cases h (hu.cfg ▸ hu.onDisplay)
    have hcell := hu.cell_after hg hv hc hr page
    rw [hu.cfg] at hrest
    rcases hrest with ⟨hone, rfl⟩ | ⟨hmore, hy, hnext⟩
    · rw [hone, hcell]; rfl
    · rw [Nat.add_assoc, ← Nat.succ_mul] at hnext
      rw [hmore, List.range'_succ, State.mergedColumn_cons, ← hcell]
      have hafter := ih (hu.next hg hv hy) hnext
      exact hafter

/-- A cell under no column of the glyph. -/
theorem State.BeforePage.streamPages_cell_other (hl : lx < 4096)
    (hout : ∀ c, c < g.width → resolveChip s.cfg (s.cursorX.toNat + c) ≠ some (chip, lx)) (page : Nat) :
    t.display.cell chip page lx = u.display.cell chip page lx := by
  induction n generalizing p u with
  | zero => unfold streamPages at h; cases h; rfl
  | succ n ih =>
    obtain ⟨v, hv, hrest⟩ := streamPages_succ_cases h (hu.cfg ▸ hu.onDisplay)
    have hcell : v.display.cell chip page lx = u.display.cell chip page lx := by
      refine (streamColumns_cells (hu.cfg ▸ hg) hu.displayWf hu.cursor_le hv chip page hl).2 ?_
      rw [hu.cfg, hu.cursorX]
      rintro X hX ⟨hlo, hhi⟩
      exact hout (X - s.cursorX.toNat) (by omega) (by rw [Nat.add_sub_cancel' hlo]; exact hX)
    rw [hu.cfg] at hrest
    rcases hrest with ⟨-, rfl⟩ | ⟨-, hy, hnext⟩
    · exact hcell
    · rw [Nat.add_assoc, ← Nat.succ_mul] at hnext
      exact (ih (hu.next hg hv hy) hnext).trans hcell

end

/-- The display after a PUTC of a located glyph is that after its pages. -/
theorem exec_putc_next_display {s t : State} {code : Byte} {g : Glyph} (hput : s.mayPut code)
    (hlocate : locateGlyph s.cfg s.fontBase.toNat code.toNat = .ok (some g)) (h : exec (.putc code) s = .next t) :
    ∃ u, streamPages g.width s.cursorX.toNat s.cursorY.toNat 0 (s.fontBase.toNat + g.offset + 0 * g.width) g.pages s =
      .ok u ∧ t.display = u.display := by
  rw [exec_putc_located hput hlocate, drawGlyph_eq] at h
  rw [Nat.zero_mul, Nat.add_zero]
  cases hu : streamPages g.width s.cursorX.toNat s.cursorY.toNat 0 (s.fontBase.toNat + g.offset) g.pages s with
  | error f => rw [hu] at h; cases h
  | ok u => rw [hu] at h; cases h; exact ⟨u, rfl, rfl⟩

/-- The bytes of the display after a PUTC of a located glyph. -/
theorem exec_putc_cells {s t : State} {code : Byte} {g : Glyph} (hwf : s.cfg.wf = true) (hw : s.display.wf = true)
    (hput : s.mayPut code) (hlocate : locateGlyph s.cfg s.fontBase.toNat code.toNat = .ok (some g))
    (h : exec (.putc code) s = .next t) (chip : ChipId) (page lx : Nat) :
    (∀ c, c < g.width → resolveChip s.cfg (s.cursorX.toNat + c) = some (chip, lx) →
      t.display.cell chip page lx = s.mergedColumn g c page
        (List.range (streamedPages s.cfg s.cursorY.toNat g.pages)) (s.display.cell chip page lx)) ∧
    (lx < 4096 → (∀ c, c < g.width → resolveChip s.cfg (s.cursorX.toNat + c) ≠ some (chip, lx)) →
      t.display.cell chip page lx = s.display.cell chip page lx) := by
  obtain ⟨u, hu, hdisplay⟩ := exec_putc_next_display hput hlocate h
  obtain ⟨-, hy, -⟩ := hput
  have hbefore := State.beforePage_zero g hy hw
  have hg := Config.geometryWf_of_wf hwf
  rw [hdisplay, List.range_eq_range']
  exact ⟨fun c hc hr => hbefore.streamPages_cell hg hu hc hr page,
    fun hl hout => hbefore.streamPages_cell_other hg hu hl hout page⟩

/-- A cell that no streamed page changes under any column of the glyph is as it was. -/
theorem exec_putc_cell_unchanged {s t : State} {code : Byte} {g : Glyph} (hwf : s.cfg.wf = true)
    (hw : s.display.wf = true) (hput : s.mayPut code)
    (hlocate : locateGlyph s.cfg s.fontBase.toNat code.toNat = .ok (some g)) (h : exec (.putc code) s = .next t)
    {chip : ChipId} {page lx : Nat} (hl : lx < 4096)
    (hkept : ∀ p c, p < streamedPages s.cfg s.cursorY.toNat g.pages → c < g.width →
      resolveChip s.cfg (s.cursorX.toNat + c) = some (chip, lx) → ∀ b old,
        mergedByte s.cfg.displayBottom (s.cursorY.toNat + 8 * p) b page old = old) :
    t.display.cell chip page lx = s.display.cell chip page lx := by
  obtain ⟨hunder, hother⟩ := exec_putc_cells hwf hw hput hlocate h chip page lx
  by_cases hcolumn : ∃ c, c < g.width ∧ resolveChip s.cfg (s.cursorX.toNat + c) = some (chip, lx)
  · obtain ⟨c, hc, hr⟩ := hcolumn
    rw [hunder c hc hr]
    exact State.mergedColumn_eq_self fun q hq => hkept q c (List.mem_range.1 hq) hc hr _ _
  · exact hother hl fun c hc hr => hcolumn ⟨c, hc, hr⟩

/-- A page whose row is on the display is streamed (R202). -/
theorem lt_streamedPages_iff {c : Config} {y0 pages p : Nat} (hy : y0 ≤ c.displayBottom) :
    p < streamedPages c y0 pages ↔ p < pages ∧ y0 + 8 * p ≤ c.displayBottom := by
  unfold streamedPages
  omega

/-- A row is on the display exactly when its page is: the height is whole pages (R9). -/
theorem Config.div_lt_pages_iff {c : Config} (hg : c.geometryWf = true) {y : Nat} :
    y / 8 < c.pages ↔ y ≤ c.displayBottom := by
  simp only [Config.geometryWf, Bool.and_eq_true, decide_eq_true_eq] at hg
  unfold Config.pages Config.displayBottom
  omega

theorem le_displayRight_of_resolveChip {c : Config} {x lx : Nat} {chip : ChipId} (hg : c.geometryWf = true)
    (h : resolveChip c x = some (chip, lx)) : x ≤ c.displayRight := by
  obtain ⟨-, -, hx⟩ := resolveChip_spec hg h
  exact hx

/-- The page at which page q of a glyph stands. -/
theorem div_pageRow (y0 q : Nat) : (y0 + 8 * q) / 8 = y0 / 8 + q := Nat.add_mul_div_left y0 q (by decide)

/-! ### A page-aligned row -/

/-- At a page-aligned row a page of a glyph changes its own page of the display alone. -/
theorem mergedByte_aligned_other {bottom y0 q page : Nat} (b old : Byte) (haligned : y0 % 8 = 0)
    (hpage : page ≠ y0 / 8 + q) : mergedByte bottom (y0 + 8 * q) b page old = old := by
  refine mergedByte_other b old (by rwa [div_pageRow]) fun hlower => hlower.1 ?_
  rw [Nat.add_mul_mod_self_left, haligned]

/-- At a page-aligned row the pages of a glyph leave the byte of page p under its column. -/
theorem State.mergedColumn_aligned {s : State} {g : Glyph} {c p : Nat} {qs : List Nat} (old : Byte)
    (haligned : s.cursorY.toNat % 8 = 0) (hp : p ∈ qs) :
    s.mergedColumn g c (s.cursorY.toNat / 8 + p) qs old = s.glyphByte g p c := by
  induction qs generalizing old with
  | nil => exact absurd hp List.not_mem_nil
  | cons q qs ih =>
    rw [State.mergedColumn_cons]
    by_cases hlater : p ∈ qs
    · exact ih _ hlater
    · obtain rfl := (List.mem_cons.1 hp).resolve_right hlater
      have hown : (s.cursorY.toNat + 8 * p) % 8 = 0 := by rw [Nat.add_mul_mod_self_left, haligned]
      rw [← div_pageRow, mergedByte_aligned _ _ hown, div_pageRow]
      refine State.mergedColumn_eq_self fun q hq => mergedByte_aligned_other _ _ haligned fun hpage => hlater ?_
      rwa [Nat.add_left_cancel hpage]

/-- Settles O50: each page of the glyph replaces its page of the display, and no other page of it changes that. -/
theorem putcDrawsAnAlignedGlyph : Obligations.PutcDrawsAnAlignedGlyph := by
  intro s t code g hwf hw hput hlocate haligned h
  obtain ⟨-, hy, -⟩ := id hput
  have hg := Config.geometryWf_of_wf hwf
  refine ⟨fun p c chip lx hp hc hrow _ hr => ?_, fun chip page lx hl hout => ?_⟩
  · rw [(exec_putc_cells hwf hw hput hlocate h chip _ lx).1 c hc hr]
    exact State.mergedColumn_aligned _ haligned (List.mem_range.2 ((lt_streamedPages_iff hy).2 ⟨hp, hrow⟩))
  · refine exec_putc_cell_unchanged hwf hw hput hlocate h hl fun p c hp hc hr b old => ?_
    obtain ⟨hp, hrow⟩ := (lt_streamedPages_iff hy).1 hp
    refine mergedByte_aligned_other b old haligned fun hpage => ?_
    refine hout p c hp hc (le_displayRight_of_resolveChip hg hr) ⟨hpage, ?_, hr⟩
    rwa [hpage, ← div_pageRow, Config.div_lt_pages_iff hg]

/-! ### Any other row -/

/-- A column write at an unaligned row y sets, in each page of the display, the pixels of its byte's set bits, bit k at
row y + k, and clears none. -/
theorem getLsbD_mergedByte {bottom y Y : Nat} (b old : Byte) (hoff : y % 8 ≠ 0) (hbottom : bottom % 8 = 7)
    (hY : Y ≤ bottom) : (mergedByte bottom y b (Y / 8) old).getLsbD (Y % 8) = true ↔
      old.getLsbD (Y % 8) = true ∨ (y ≤ Y ∧ b.getLsbD (Y - y) = true) := by
  have hbit : b.getLsbD (Y - y) = true → Y < y + 8 := fun h => by have := BitVec.lt_of_getLsbD h; omega
  have hY8 : Y % 8 < 8 := Nat.mod_lt _ (by decide)
  rw [mergedByte, if_neg hoff]
  by_cases hupper : Y / 8 = y / 8
  · rw [if_pos hupper, BitVec.getLsbD_or, BitVec.getLsbD_shiftLeft, show Y % 8 - y % 8 = Y - y by omega]
    have hle : Y % 8 < y % 8 ↔ ¬y ≤ Y := by omega
    simp [hY8, hle]
  · rw [if_neg hupper]
    by_cases hlower : Y / 8 = y / 8 + 1
    · rw [if_pos ⟨hlower, by omega⟩, BitVec.getLsbD_or, BitVec.getLsbD_ushiftRight,
        show 8 - y % 8 + Y % 8 = Y - y by omega]
      simp [show y ≤ Y by omega]
    · rw [if_neg fun h => hlower h.1]
      exact (or_iff_left fun h => by have := hbit h.2; omega).symm

/-- The pixels that the pages of a glyph leave under one of its columns. -/
theorem State.getLsbD_mergedColumn {s : State} {g : Glyph} {c Y : Nat} {qs : List Nat} (old : Byte)
    (hg : s.cfg.geometryWf = true) (hoff : s.cursorY.toNat % 8 ≠ 0) (hY : Y ≤ s.cfg.displayBottom) :
    (s.mergedColumn g c (Y / 8) qs old).getLsbD (Y % 8) = true ↔ old.getLsbD (Y % 8) = true ∨
      ∃ q ∈ qs, s.cursorY.toNat + 8 * q ≤ Y ∧ (s.glyphByte g q c).getLsbD (Y - (s.cursorY.toNat + 8 * q)) = true := by
  have hbottom : s.cfg.displayBottom % 8 = 7 := by
    simp only [Config.geometryWf, Bool.and_eq_true, decide_eq_true_eq] at hg
    unfold Config.displayBottom
    omega
  induction qs generalizing old with
  | nil => simp [State.mergedColumn_nil]
  | cons q qs ih =>
    rw [State.mergedColumn_cons]
    refine (ih _).trans ?_
    rw [getLsbD_mergedByte _ _ (by rwa [Nat.add_mul_mod_self_left]) hbottom hY, or_assoc]
    simp only [List.mem_cons, exists_eq_or_imp]

theorem State.pixel_of_resolveChip {s : State} {X lx : Nat} {chip : ChipId} (h : resolveChip s.cfg X = some (chip, lx))
    (Y : Nat) : s.pixel X Y = (s.display.cell chip (Y / 8) lx).getLsbD (Y % 8) := by
  rw [State.pixel, h]

/-- The pixels of a column of the display after a PUTC at an unaligned row. -/
theorem exec_putc_pixel {s t : State} {code : Byte} {g : Glyph} (hwf : s.cfg.wf = true) (hw : s.display.wf = true)
    (hput : s.mayPut code) (hlocate : locateGlyph s.cfg s.fontBase.toNat code.toNat = .ok (some g))
    (hoff : s.cursorY.toNat % 8 ≠ 0) (h : exec (.putc code) s = .next t) {X Y : Nat} (hX : X ≤ s.cfg.displayRight)
    (hY : Y ≤ s.cfg.displayBottom) :
    t.pixel X Y = true ↔ s.pixel X Y = true ∨ ∃ q c, q < g.pages ∧ c < g.width ∧ X = s.cursorX.toNat + c ∧
      s.cursorY.toNat + 8 * q ≤ Y ∧ (s.glyphByte g q c).getLsbD (Y - (s.cursorY.toNat + 8 * q)) = true := by
  obtain ⟨-, hy, -⟩ := id hput
  have hg := Config.geometryWf_of_wf hwf
  obtain ⟨chip, lx, hr⟩ := resolveChip_isSome hX
  have hl : lx < 4096 := by have := resolveChip_le hr; have := Config.edges_lt hg; omega
  have hrt : resolveChip t.cfg X = some (chip, lx) := by rw [(exec_environment h).1, hr]
  obtain ⟨hunder, hother⟩ := exec_putc_cells hwf hw hput hlocate h chip (Y / 8) lx
  rw [State.pixel_of_resolveChip hr, State.pixel_of_resolveChip hrt]
  by_cases hcolumn : ∃ c, c < g.width ∧ X = s.cursorX.toNat + c
  · obtain ⟨c, hc, rfl⟩ := hcolumn
    rw [hunder c hc hr, State.getLsbD_mergedColumn _ hg hoff hY]
    refine or_congr_right ⟨?_, ?_⟩
    · rintro ⟨q, hq, hrow, hbit⟩
      exact ⟨q, c, ((lt_streamedPages_iff hy).1 (List.mem_range.1 hq)).1, hc, rfl, hrow, hbit⟩
    · rintro ⟨q, c', hq, -, hcc, hrow, hbit⟩
      obtain rfl := Nat.add_left_cancel hcc
      exact ⟨q, List.mem_range.2 ((lt_streamedPages_iff hy).2 ⟨hq, Nat.le_trans hrow hY⟩), hrow, hbit⟩
  · rw [hother hl fun c hc hrc => hcolumn ⟨c, hc, resolveChip_inj hr hrc⟩]
    exact (or_iff_left fun ⟨q, c, _, hc, hXc, _⟩ => hcolumn ⟨c, hc, hXc⟩).symm

/-- Settles O51: the pixels column by column, and the two pages that a page of the glyph can reach. -/
theorem putcMergesAnUnalignedGlyph : Obligations.PutcMergesAnUnalignedGlyph := by
  intro s t code g hwf hw hput hlocate hoff h
  obtain ⟨-, hy, -⟩ := id hput
  have hg := Config.geometryWf_of_wf hwf
  refine ⟨fun X Y hX hY => ?_, fun chip page lx hl hout => ?_⟩
  · rw [exec_putc_pixel hwf hw hput hlocate hoff h hX hY]
    refine or_congr_right ⟨?_, ?_⟩
    · rintro ⟨q, c, hq, hc, hXc, hrow, hbit⟩
      exact ⟨q, c, _, hq, hc, BitVec.lt_of_getLsbD hbit, hXc, (Nat.add_sub_cancel' hrow).symm, hbit⟩
    · rintro ⟨q, c, i, hq, hc, -, hXc, rfl, hbit⟩
      exact ⟨q, c, hq, hc, hXc, Nat.le_add_right _ _, by rwa [Nat.add_sub_cancel_left]⟩
  · refine exec_putc_cell_unchanged hwf hw hput hlocate h hl fun p c hp hc hr b old => ?_
    obtain ⟨hp, hrow⟩ := (lt_streamedPages_iff hy).1 hp
    have hkept := hout p c hp hc (le_displayRight_of_resolveChip hg hr)
    refine mergedByte_other b old (fun hpage => ?upper) fun ⟨_, hedge, hpage⟩ => ?lower <;> rw [div_pageRow] at hpage
    case upper =>
      refine hkept ⟨.inl hpage, ?_, hr⟩
      rwa [hpage, ← div_pageRow, Config.div_lt_pages_iff hg]
    case lower =>
      refine hkept ⟨.inr hpage, ?_, hr⟩
      rwa [hpage, Nat.add_assoc, ← div_pageRow, Config.div_lt_pages_iff hg]

end Sys2Proof.Machine
end
